-- ==== Sys2Proof/Word.lean ====
section
/-! DEFINITION. The word types of the block (spec/00_scope.md R11, R12). -/

namespace Sys2Proof

/-- One byte of a frame, of the ring buffer or of the pending output buffer (R72). -/
abbrev Byte := BitVec 8

/-- A signed 16-bit two's-complement q15 value: a sample, a level or a coefficient (R12).
Its integer is `BitVec.toInt`. -/
abbrev Sample := BitVec 16

/-- A 32-bit unit of the command port: a command word or a response word (R73, R100, R110). -/
abbrev Word := BitVec 32

end Sys2Proof
end

