-- ==== Sys2Proof/Config.lean ====
section
/-! DEFINITION. What one implementation of the block fixes (the OPEN parameters of spec/00_scope.md R8)
and the free values (the sink inputs of spec/10_state.md R51).

The constants of R8 and R170 that the spec does fix stand as numerals in the rules that use them:
L = 10 samples per symbol, NTAPS = 90 coefficients, P = NTAPS / L = 9 filter entries, SYMS = 4 symbols
per byte, BLOCK = SYMS * L = 40 samples per block, PREAMBLE_MAX = 1200, SPACE_W = 16. -/

namespace Sys2Proof

/-- The OPEN parameters of the block, R8: fixed at construction, changed by no command and by no reset. -/
structure Params where
  /-- `FRAME_LEN`: bytes per frame (R8, D8). -/
  frameLen : Nat
  /-- `RB_CAP`: ring-buffer capacity in bytes (R8, D9). -/
  rbCap : Nat
  /-- `SYNC_BYTE` (R8, D10). -/
  syncByte : Byte
  /-- `PREAMBLE_OFFSET` (R8, D11). -/
  preambleOffset : Nat
  /-- `PREAMBLE_SCALE` (R8, D11). -/
  preambleScale : Nat
  /-- `HANG_SCALE` (R8, D12). -/
  hangScale : Nat
  /-- `CHANNEL_TAG` (R8, D16). -/
  channelTag : Byte
  /-- `COEF[0..89]`: the read-only coefficient table, in the time order of the impulse response
  (R43, R70, D13). No value, symmetry or sum of it is assumed (R10). -/
  coef : Vector Sample 90
deriving DecidableEq, Repr, Inhabited

/-- The ranges R8 gives the OPEN parameters. The widths of `SYNC_BYTE`, `CHANNEL_TAG` and `COEF` are
already in their types. -/
abbrev Params.Legal (p : Params) : Prop :=
  1 ≤ p.frameLen ∧ p.frameLen ≤ p.rbCap ∧ p.rbCap ≤ 65535 ∧
  p.preambleOffset ≤ 65535 ∧ p.preambleScale ≤ 65535 ∧ p.hangScale ≤ 2 ^ 24

/-- Brings arbitrary numbers into the ranges of R8. Its results are exactly the legal parameter sets
(`Laws/Config.lean`: every result is legal, and every legal set is a result). -/
def Params.intoRange (r : Params) : Params :=
  { r with
    frameLen := r.frameLen % 65535 + 1
    rbCap := r.rbCap % (65536 - (r.frameLen % 65535 + 1)) + (r.frameLen % 65535 + 1)
    preambleOffset := r.preambleOffset % 65536
    preambleScale := r.preambleScale % 65536
    hangScale := r.hangScale % (2 ^ 24 + 1) }

/-- FREE VALUE (log entry 1). Eight unconstrained numbers; nothing in Lean can evaluate them. -/
opaque Config.rawParams : Params

/-- The parameters of the block that `State.reset` describes: some legal set, not known which (log entry 1).
Every other legal set is reached by a state whose `params` field holds it. -/
def Config.params : Params := Config.rawParams.intoRange

/-- What the sink shows the block at one TICK (R51): `SINK_FREE_SPACE` and `SINK_KEYED`. -/
structure SinkSample where
  /-- `SINK_FREE_SPACE`, unsigned, `SPACE_W` = 16 bits. -/
  freeSpace : BitVec 16
  /-- `SINK_KEYED`: true when the sink is actively transmitting (R16). -/
  keyed : Bool
deriving DecidableEq, Repr, Inhabited

/-- FREE VALUE (log entry 2). What the sink shows at the n-th TICK for which the state lists no sample:
the free input ("draw") of R51. -/
opaque Config.freeSinkSample : Nat → SinkSample

end Sys2Proof
end

