-- ==== Sys2Proof/Syntax.lean ====
section
/-! DEFINITION. The host commands (spec/30_encoding.md R102, R103; spec/opcode_table.json), one constructor a row. -/

namespace Sys2Proof

/-- The six host commands, R102. Operands are the fields of R103, each with the width of its field. -/
inductive Instr where
  /-- SUBMIT_FRAME (R130): `LEN` = word[15:0] and the payload bytes p[0], p[1], ... that follow the word (R101). -/
  | submitFrame (len : BitVec 16) (payload : List Byte)
  /-- TICK (R200): no operand in the word. -/
  | tick
  /-- SET_PREAMBLE_DELAY (R240): `DELAY` = word[7:0]. -/
  | setPreambleDelay (delay : BitVec 8)
  /-- SET_DEV_HANG (R242): `LODEV` = word[8], `HANG_UNITS` = word[7:0]. -/
  | setDevHang (lodev : Bool) (hangUnits : BitVec 8)
  /-- GET_QUEUE_CAP (R134): no operand. -/
  | getQueueCap
  /-- SET_DUPLEX (R245): `DUPLEX` = word[0]. -/
  | setDuplex (duplex : Bool)
deriving DecidableEq, Repr

end Sys2Proof
end

