-- ==== Sys2Proof/WellFormed.lean ====
section
/-! DEFINITION. Which terms of `Instr` are commands (spec/30_encoding.md R101). -/

namespace Sys2Proof

/-- R101: a SUBMIT_FRAME carries exactly `LEN` payload bytes. The other operands are legal at every value of
their fields (R104), which their types already say. -/
def Instr.wf : Instr → Bool
  | .submitFrame len payload => payload.length == len.toNat
  | .tick => true
  | .setPreambleDelay _ => true
  | .setDevHang _ _ => true
  | .getQueueCap => true
  | .setDuplex _ => true

end Sys2Proof
end

