-- ==== Sys2Proof/Decode.lean ====
section
/-! DEFINITION. Decoding a command word and its payload, and encoding (spec/30_encoding.md R100 to R115). -/

namespace Sys2Proof

/-- Why a delivery on the command port is no command. -/
inductive Reject where
  /-- R112: `OPC` is 0x0 or 0x7 to 0xF. The block answers ILLEGAL_COMMAND. -/
  | reservedOpcode (opc : BitVec 4)
  /-- R113: a legal `OPC` with a reserved bit set. The block answers ILLEGAL_COMMAND. -/
  | reservedBits (word : Word)
  /-- R101: the payload list does not have the length the word declares: a host fault, for which the
  spec gives the block no behaviour (U11). -/
  | payloadLength (declared delivered : Nat)
deriving DecidableEq, Repr

/-- The opcode field `OPC` = word[31:28] (R101). -/
def opcField (w : Word) : BitVec 4 := w.extractLsb' 28 4

/-- `LEN` = word[15:0] (R103). -/
def lenField (w : Word) : BitVec 16 := w.extractLsb' 0 16

/-- `DELAY` and `HANG_UNITS` = word[7:0] (R103). -/
def imm8Field (w : Word) : BitVec 8 := w.extractLsb' 0 8

/-- How many payload bytes follow the word: `LEN` for every word of opcode 0x1, legal or not (R113),
none for any other (R100, R112). -/
def payloadLen (w : Word) : Nat :=
  if opcField w = 0x1#4 then (lenField w).toNat else 0

/-- R102: the opcodes 0x1 to 0x6 name a command, the others are reserved. -/
def opcLegal (opc : BitVec 4) : Bool := 0x1#4 ≤ opc && opc ≤ 0x6#4

/-- R112, R113: the reason an illegal word is illegal. -/
def illegalReason (w : Word) : Reject :=
  if opcLegal (opcField w) then .reservedBits w else .reservedOpcode (opcField w)

/-- The decode procedure of R115, total on every 32-bit word and every payload list. The length of the payload is
checked first (R101); a reserved bit is any bit R103 does not name. -/
def decode (w : Word) (payload : List Byte) : Except Reject Instr :=
  if payload.length ≠ payloadLen w then .error (.payloadLength (payloadLen w) payload.length)
  else if opcField w = 0x1#4 ∧ w.extractLsb' 16 12 = 0 then .ok (.submitFrame (lenField w) payload)
  else if opcField w = 0x2#4 ∧ w.extractLsb' 0 28 = 0 then .ok .tick
  else if opcField w = 0x3#4 ∧ w.extractLsb' 8 20 = 0 then .ok (.setPreambleDelay (imm8Field w))
  else if opcField w = 0x4#4 ∧ w.extractLsb' 9 19 = 0 then .ok (.setDevHang (w.getLsbD 8) (imm8Field w))
  else if opcField w = 0x5#4 ∧ w.extractLsb' 0 28 = 0 then .ok .getQueueCap
  else if opcField w = 0x6#4 ∧ w.extractLsb' 1 27 = 0 then .ok (.setDuplex (w.getLsbD 0))
  else .error (illegalReason w)

/-- The command word of an instruction, field by field from bit 31 down (R103). -/
def encodeWord : Instr → Word
  | .submitFrame len _ => 0x1#4 ++ 0#12 ++ len
  | .tick => 0x2#4 ++ 0#28
  | .setPreambleDelay delay => 0x3#4 ++ 0#20 ++ delay
  | .setDevHang lodev hangUnits => 0x4#4 ++ 0#19 ++ BitVec.ofBool lodev ++ hangUnits
  | .getQueueCap => 0x5#4 ++ 0#28
  | .setDuplex duplex => 0x6#4 ++ 0#27 ++ BitVec.ofBool duplex

/-- The payload bytes that follow the word: none but for SUBMIT_FRAME (R100, R114). -/
def encodePayload : Instr → List Byte
  | .submitFrame _ payload => payload
  | .tick => []
  | .setPreambleDelay _ => []
  | .setDevHang _ _ => []
  | .getQueueCap => []
  | .setDuplex _ => []

/-- What the host delivers for a command: the word and the payload (R100). -/
def encode (i : Instr) : Word × List Byte := (encodeWord i, encodePayload i)

/-- The next `n` bytes of a number, the least significant first. -/
def bytesOf : Nat → Nat → List Byte
  | 0, _ => []
  | n + 1, v => BitVec.ofNat 8 v :: bytesOf n (v / 256)

/-- The command word in the low 32 of `nbits` bits `w` (bits above `nbits` are 0). -/
def tableWord (nbits w : Nat) : Word := BitVec.ofNat 32 (w % 2 ^ nbits)

/-- The payload of that word, from the bits above the word; the table gives the payload no bits, so it is `LEN` zero bytes. -/
def tablePayload (nbits w : Nat) : List Byte :=
  bytesOf (payloadLen (tableWord nbits w)) (w % 2 ^ nbits / 2 ^ 32)

/-- The instruction the decoder reads from a row's bits, as spec/opcode_table.json numbers them. -/
def decodeTableWord (nbits w : Nat) : Option Instr :=
  match decode (tableWord nbits w) (tablePayload nbits w) with
  | .ok i => some i
  | .error _ => none

end Sys2Proof
end

