-- ==== Sys2Proof/Machine/State.lean ====
section
/-! DEFINITION. The state of the block (spec/10_state.md R30 to R56), the ports as recorded data, and the reasons to stop. -/

namespace Sys2Proof.Machine

/-- A byte array of the block, R70: the bytes written so far as (index, byte) pairs, indices strictly rising. An index
that is not listed holds no value (D34, log entry 3). -/
abbrev Memory := List Host.Cell

/-- The two byte arrays of R70. -/
inductive Space where
  | rbMem
  | pobMem
deriving DecidableEq, Repr

/-- `SEQ_STATE`, R32: all four values are legal and no other exists. -/
inductive SeqState where
  | idle
  | preamble
  | data
  | hang
deriving DecidableEq, Repr

/-- One `SinkWrite(tag, block)` event, R14, R50: exactly 40 samples in time order. -/
structure SinkBlock where
  tag : Byte
  samples : Vector Sample 40
deriving DecidableEq, Repr

/-- What can arrive from the host side, one at a time (R52, R80). -/
inductive HostEvent where
  /-- A command word with its payload list (R100, R101). -/
  | command (word : Word) (payload : List Byte)
  /-- `RST` asserted between two commands (R53, R291). -/
  | reset
  /-- `RST` asserted while a command runs, after its first `blocksMade` sink writes (R291). -/
  | resetDuring (word : Word) (payload : List Byte) (blocksMade : Nat)
deriving DecidableEq, Repr

/-- The block and what stands at its ports. Plain data: every register of R32 to R46 under its own name, the internal
arrays of R70, the construction parameters of R8 (`COEF` among them), the two observed sequences of R55, and the
inputs that have not arrived yet. The counter `space` of R54(a) lives only inside a TICK and is no field. -/
structure State where
  /-- The construction parameters (R8, R43); no command and no reset changes them. -/
  params : Params
  /-- `SEQ_STATE` (R32). -/
  seqState : SeqState
  /-- `HANG_CNT`, 32 bits (R33). -/
  hangCnt : BitVec 32
  /-- `RB_MEM[0..RB_CAP-1]` (R35). -/
  rbMem : Memory
  /-- `RB_HEAD`, the 16-bit write index (R35). -/
  rbHead : BitVec 16
  /-- `RB_TAIL`, the 16-bit read index (R35). -/
  rbTail : BitVec 16
  /-- `RB_COUNT`, the 16-bit count of bytes held (R35). -/
  rbCount : BitVec 16
  /-- `POB_MEM[0..POB_CAP-1]` (R40). -/
  pobMem : Memory
  /-- `POB_LEN`, 16 bits (R40). -/
  pobLen : BitVec 16
  /-- `POB_PTR`, the 16-bit read cursor (R40). -/
  pobPtr : BitVec 16
  /-- `FILT_MEM[0..8]`, entry 0 the most recent input (R42). -/
  filtMem : Vector Sample 9
  /-- `CFG_LODEV`: true is low deviation (R45). -/
  cfgLodev : Bool
  /-- `CFG_PREAMBLE_LEN`, 16 bits (R45). -/
  cfgPreambleLen : BitVec 16
  /-- `CFG_HANG_DUR`, 32 bits (R45). -/
  cfgHangDur : BitVec 32
  /-- `CFG_DUPLEX` (R45). -/
  cfgDuplex : Bool
  /-- `RESP`, the 32-bit response register (R46). -/
  resp : Word
  /-- The sink writes made so far, oldest first (R50, R55, R271). -/
  sinkWrites : List SinkBlock
  /-- The response words returned to the host so far, oldest first (R52, R55). -/
  responses : List Word
  /-- The host's commands and resets that have not been taken yet, the next one first (R52, R80). -/
  hostPort : List HostEvent
  /-- The sink inputs of the coming TICKs, as far as the environment has fixed them, the next one first (R51). -/
  sinkSamples : List SinkSample
  /-- The model's own field (log entry 2): how many sink inputs have been drawn from `Config.freeSinkSample`. -/
  sinkDraws : Nat
deriving DecidableEq, Repr

/-- Why the machine stops with a fault. The spec gives the block no fault state (R260): both reasons are assertions on
derived rules, and no state that meets `State.Inv` (Safety.lean) reaches them. -/
inductive Fault where
  /-- Raised by SUBMIT_FRAME and TICK when an index lies outside its array, which R70 says does not happen.
  Safe: the model stops where the spec says the machine cannot be. -/
  | indexOutOfRange (space : Space) (index : Nat)
  /-- Raised by TICK when it reads a byte that nothing has written since reset; R75 allows exactly this fault and calls
  it unreachable. Safe. -/
  | readUnwritten (space : Space) (index : Nat)
deriving DecidableEq, Repr

/-- Why the model has no step. -/
inductive Refusal where
  /-- Raised by no instruction: every row of the opcode table has its meaning. -/
  | notModelled (mnemonic : String)
  /-- Raised by a delivery whose payload list differs in length from the word's `LEN`: R101 and U11 call it a host fault
  and say the model refuses it. Safe. -/
  | payloadLength (declared delivered : Nat)
deriving DecidableEq, Repr

/-- The block right after construction with the parameters `p`: the reset values of R56, nothing at the ports. -/
def State.resetOf (p : Params) : State where
  params := p
  seqState := .idle
  hangCnt := 0
  rbMem := []
  rbHead := 0
  rbTail := 0
  rbCount := 0
  pobMem := []
  pobLen := 0
  pobPtr := 0
  filtMem := Vector.replicate 9 0
  cfgLodev := false
  cfgPreambleLen := BitVec.ofNat 16 (min p.preambleOffset 1200)
  cfgHangDur := 0
  cfgDuplex := false
  resp := 0
  sinkWrites := []
  responses := []
  hostPort := []
  sinkSamples := []
  sinkDraws := 0

/-- The machine right after reset (R56, R290), with the parameters of its implementation (log entry 1). -/
def State.reset : State := State.resetOf Config.params

end Sys2Proof.Machine
end

