-- ==== Sys2Proof/Machine/Flags.lean ====
section
/-! DEFINITION. The block has no condition codes (spec/10_state.md R47): its only status is the STATUS field of the response
word (spec/30_encoding.md R110, R111). Beside it the numeric code of SEQ_STATE (R32). -/

namespace Sys2Proof.Machine

/-- The statuses a command can end with, R111, R261. -/
inductive Status where
  | ok
  | lengthError
  | capacityError
  | illegalCommand
deriving DecidableEq, Repr

/-- The STATUS code of R111. -/
def Status.code : Status → BitVec 4
  | .ok => 0x0#4
  | .lengthError => 0x1#4
  | .capacityError => 0x2#4
  | .illegalCommand => 0xF#4

/-- The response word of R110: DATA in bits 31:16, bits 15:4 zero, STATUS in bits 3:0. -/
def respWord (status : Status) (data : BitVec 16) : Word := data ++ 0#12 ++ status.code

/-- The 2-bit code of SEQ_STATE, R32 (D32); no command shows it to the host. -/
def SeqState.code : SeqState → BitVec 2
  | .idle => 0#2
  | .preamble => 1#2
  | .data => 2#2
  | .hang => 3#2

end Sys2Proof.Machine
end

