-- ==== Sys2Proof/Machine/Operands.lean ====
section
/-! DEFINITION. Operand forms: the zero-extended fields of R104, the sink inputs of a TICK (R51, R202), the level tables
and the Symbol Mapper (spec/42_symbol_mapper.md), and the q15 arithmetic of spec/00_scope.md R12. -/

namespace Sys2Proof.Machine

/-- R104: an operand field is an unsigned integer, zero-extended. -/
def operand {w : Nat} (field : BitVec w) : Nat := field.toNat

/-- R101: the payload has the length the command declares. -/
def payloadMatches (len : BitVec 16) (payload : List Byte) : Bool := payload.length == operand len

/-- `sat16(v)` of R12: min(max(v, -32768), 32767), as a signed 16-bit value. -/
def sat16 (v : Int) : Sample := BitVec.ofInt 16 (min (max v (-32768)) 32767)

/-- floor(v / 32768), the arithmetic right shift by 15 of R174 and R177. -/
def floorQ15 (v : Int) : Int := v / 32768

/-- `LEVEL_NORMAL[s]`, R44, R150. -/
def levelNormal (s : BitVec 2) : Sample :=
  if s = 0b11#2 then BitVec.ofInt 16 1893
  else if s = 0b10#2 then BitVec.ofInt 16 631
  else if s = 0b00#2 then BitVec.ofInt 16 (-631)
  else BitVec.ofInt 16 (-1893)

/-- `LEVEL_LOW[s]`, R44, R150. -/
def levelLow (s : BitVec 2) : Sample :=
  if s = 0b11#2 then BitVec.ofInt 16 948
  else if s = 0b10#2 then BitVec.ofInt 16 316
  else if s = 0b00#2 then BitVec.ofInt 16 (-316)
  else BitVec.ofInt 16 (-948)

/-- The level of a 2-bit symbol under a deviation flag (R151). -/
def level (lodev : Bool) (s : BitVec 2) : Sample :=
  if lodev then levelLow s else levelNormal s

/-- MAP_BYTE(b, lodev), R151: the four 2-bit groups of the byte, the most significant first. -/
def mapByte (b : Byte) (lodev : Bool) : Vector Sample 4 :=
  #v[level lodev (b.extractLsb' 6 2), level lodev (b.extractLsb' 4 2),
     level lodev (b.extractLsb' 2 2), level lodev (b.extractLsb' 0 2)]

/-- The sink inputs of the next TICK (R51): what the environment has fixed, or a free value (log entry 2). -/
def State.sinkSample (s : State) : SinkSample :=
  match s.sinkSamples with
  | x :: _ => x
  | [] => Config.freeSinkSample s.sinkDraws

/-- Sampling the sink inputs uses them up (R51: once at the start of each TICK and never at any other time). -/
def State.afterSinkSample (s : State) : State :=
  match s.sinkSamples with
  | _ :: rest => { s with sinkSamples := rest }
  | [] => { s with sinkDraws := s.sinkDraws + 1 }

end Sys2Proof.Machine
end

