-- ==== Sys2Proof/Machine/Ops.lean ====
section
/-! DEFINITION. The named operations over memories, registers and ports.

Taking an exception and returning from one do not exist in this block (spec/60_exceptions.md R265, R266): the one
shared way a command ends, with or without an error, is `State.respond`, and the way a command that is rejected ends is
`respond` on the unchanged state (R262). The one other event that replaces the state is `RST` (`State.applyRst`). -/

namespace Sys2Proof

/-- `POB_CAP` = max(PREAMBLE_MAX, FRAME_LEN), the derived parameter of R8 and R40. -/
def Params.pobCap (p : Params) : Nat := max 1200 p.frameLen

end Sys2Proof

namespace Sys2Proof.Machine

/-- What an index that no rule has written holds: no value (R75, D34; log entry 3). -/
def Memory.unlisted : Option Byte := none

/-- `MemRead(space, i, 1)` of R14 on one array; `none` where nothing has been written. -/
def Memory.read : Memory → Nat → Option Byte
  | [], _ => Memory.unlisted
  | (j, b) :: rest, i => if j = i then some b else Memory.read rest i

/-- `MemWrite(space, i, 1, v)` of R14 on one array, keeping the indices strictly rising. -/
def Memory.write : Memory → Nat → Byte → Memory
  | [], i, v => [(i, v)]
  | (j, b) :: rest, i, v =>
    if i < j then (i, v) :: (j, b) :: rest
    else if i = j then (i, v) :: rest
    else (j, b) :: Memory.write rest i v

/-- Bytes written one by one at `i`, `i + 1`, ... -/
def Memory.writeFrom : Memory → Nat → List Byte → Memory
  | m, _, [] => m
  | m, i, b :: bs => Memory.writeFrom (m.write i b) (i + 1) bs

/-- Every listed index is at least `lo`, and the indices rise strictly. -/
def Memory.risingFrom : Nat → Memory → Bool
  | _, [] => true
  | lo, (j, _) :: rest => decide (lo ≤ j) && Memory.risingFrom (j + 1) rest

/-- The one canonical form of a memory: indices strictly rising. No listed byte equals what an unlisted index holds,
since that is no value. -/
def Memory.wf (m : Memory) : Bool := Memory.risingFrom 0 m

/-- Every listed index lies inside an array of `size` bytes (R70). -/
def Memory.within (size : Nat) (m : Memory) : Bool := m.all fun cell => decide (cell.1 < size)

/-- Ends the command with a response word (R14, R110): `RESP` is written and the host is answered. -/
def State.respond (s : State) (status : Status) (data : BitVec 16) : State :=
  { s with resp := respWord status data, responses := s.responses ++ [respWord status data] }

/-- `SinkWrite(tag, block)` with the tag of R50: recorded, never refused (R302, D31). -/
def State.sinkWrite (s : State) (block : Vector Sample 40) : State :=
  { s with sinkWrites := s.sinkWrites ++ [⟨s.params.channelTag, block⟩] }

/-- `RB_FREE` = RB_CAP - RB_COUNT (R37). -/
def State.rbFree (s : State) : Nat := s.params.rbCap - s.rbCount.toNat

/-- `RB_FRAMES` = RB_COUNT div FRAME_LEN (R37), the source's `queuedCount()` (R135). -/
def State.rbFrames (s : State) : Nat := s.rbCount.toNat / s.params.frameLen

/-- `RB_FREE_FRAMES` = RB_FREE div FRAME_LEN (R37). -/
def State.rbFreeFrames (s : State) : Nat := s.rbFree / s.params.frameLen

/-- At least one frame is queued: RB_COUNT ≥ FRAME_LEN (R203). -/
def State.queued (s : State) : Bool := decide (s.params.frameLen ≤ s.rbCount.toNat)

/-- The index after `i` in the ring buffer: (i + 1) mod RB_CAP (R74, R132, R133). -/
def Params.ringNext (p : Params) (i : BitVec 16) : BitVec 16 := BitVec.ofNat 16 ((i.toNat + 1) % p.rbCap)

/-- One turn of RB_ENQUEUE's loop (R132): the byte at RB_HEAD, and RB_HEAD moved on. -/
def State.rbWriteByte (s : State) (b : Byte) : State :=
  { s with rbMem := s.rbMem.write s.rbHead.toNat b, rbHead := Params.ringNext s.params s.rbHead }

/-- The write loop of RB_ENQUEUE (R132). -/
def State.rbWriteBytes : State → List Byte → State
  | s, [] => s
  | s, b :: bs => State.rbWriteBytes (s.rbWriteByte b) bs

/-- RB_ENQUEUE(f), R132. -/
def State.rbEnqueue (s : State) (frame : List Byte) : State :=
  { s.rbWriteBytes frame with rbCount := BitVec.ofNat 16 (s.rbCount.toNat + s.params.frameLen) }

/-- `MemRead(RB_MEM, i, 1)`; R70 and R75 say that neither fault happens. -/
def State.rbRead (s : State) (i : Nat) : Except Fault Byte :=
  if i < s.params.rbCap then
    match s.rbMem.read i with
    | some b => .ok b
    | none => .error (.readUnwritten .rbMem i)
  else .error (.indexOutOfRange .rbMem i)

/-- RB_TAIL moved on by one byte (R133). DESIGN CHOICE (log entry 3): the slot left behind keeps its byte, where U9 leaves
what it holds open; no rule reads it before it is written again (R75). -/
def State.rbTailNext (s : State) : State := { s with rbTail := Params.ringNext s.params s.rbTail }

/-- The read loop of RB_DEQUEUE (R133): the next `n` bytes, and the state with RB_TAIL moved past them. -/
def State.rbReadBytes : State → Nat → Except Fault (List Byte × State)
  | s, 0 => .ok ([], s)
  | s, n + 1 =>
    match s.rbRead s.rbTail.toNat with
    | .error f => .error f
    | .ok b =>
      match State.rbReadBytes s.rbTailNext n with
      | .error f => .error f
      | .ok (bs, t) => .ok (b :: bs, t)

/-- RB_DEQUEUE(), R133. RB_MEM is not written: what the dequeued slots hold is the choice of log entry 3. -/
def State.rbDequeue (s : State) : Except Fault (List Byte × State) :=
  match s.rbReadBytes s.params.frameLen with
  | .error f => .error f
  | .ok (frame, t) => .ok (frame, { t with rbCount := BitVec.ofNat 16 (t.rbCount.toNat - t.params.frameLen) })

/-- `MemRead(POB_MEM, i, 1)`; R70 and R75 say that neither fault happens. -/
def State.pobRead (s : State) (i : Nat) : Except Fault Byte :=
  if i < s.params.pobCap then
    match s.pobMem.read i with
    | some b => .ok b
    | none => .error (.readUnwritten .pobMem i)
  else .error (.indexOutOfRange .pobMem i)

/-- Fills POB_MEM[0..] with the bytes and sets POB_LEN and POB_PTR (R203, R204); the first index past the array faults. -/
def State.pobFill (s : State) (bytes : List Byte) : Except Fault State :=
  if bytes.length ≤ s.params.pobCap then
    .ok { s with
      pobMem := s.pobMem.writeFrom 0 bytes
      pobLen := BitVec.ofNat 16 bytes.length
      pobPtr := 0 }
  else .error (.indexOutOfRange .pobMem s.params.pobCap)

/-- The result of a decode that rejects: ILLEGAL_COMMAND with no state change but `RESP` (R112, R113, R262), and no step at
all for a host fault of delivery (R101, U11). -/
def execReject (r : Reject) (s : State) : Host.Outcome State Fault Refusal :=
  match r with
  | .reservedOpcode _ => .next (s.respond .illegalCommand 0)
  | .reservedBits _ => .next (s.respond .illegalCommand 0)
  | .payloadLength declared delivered => .refused (.payloadLength declared delivered)

/-- `RST` (R53, R56, R290): every register takes its reset value. The parameters are no register (R43); the sink writes and
responses already made stay made, and what has not arrived yet is outside the block (R291). -/
def State.applyRst (s : State) : State :=
  { State.resetOf s.params with
    sinkWrites := s.sinkWrites
    responses := s.responses
    hostPort := s.hostPort
    sinkSamples := s.sinkSamples
    sinkDraws := s.sinkDraws }

/-- `RST` during a command (R291): `s` is the state before the command and `t` the state the whole command would have
left. The state is lost, the response is not delivered, and of the command's sink writes the first `blocksMade` stay
made. -/
def State.applyRstDuring (s t : State) (blocksMade : Nat) : State :=
  { t.applyRst with
    sinkWrites := s.sinkWrites ++ (t.sinkWrites.drop s.sinkWrites.length).take blocksMade
    responses := s.responses }

/-- The event at the head of the command port is taken (R52). -/
def State.takeEvent (s : State) : State := { s with hostPort := s.hostPort.tail }

end Sys2Proof.Machine
end

