-- ==== Sys2Proof/Machine/Configuration.lean ====
section
/-! DEFINITION. The configuration commands (spec/45_configuration.md): SET_PREAMBLE_DELAY, SET_DEV_HANG, SET_DUPLEX. -/

namespace Sys2Proof.Machine

/-- The preamble length of R240: min(PREAMBLE_OFFSET + PREAMBLE_SCALE * DELAY, 1200), exact and then clamped. -/
def Params.preambleLen (p : Params) (delay : BitVec 8) : Nat :=
  min (p.preambleOffset + p.preambleScale * operand delay) 1200

/-- The hang duration of R243: HANG_UNITS * HANG_SCALE, exact. -/
def Params.hangDur (p : Params) (hangUnits : BitVec 8) : Nat := operand hangUnits * p.hangScale

/-- SET_PREAMBLE_DELAY, R240. -/
def execSetPreambleDelay (delay : BitVec 8) (s : State) : Host.Outcome State Fault Refusal :=
  .next ({ s with cfgPreambleLen := BitVec.ofNat 16 (Params.preambleLen s.params delay) }.respond .ok 0)

/-- SET_DEV_HANG, R242: HANG_CNT is not written (R244). -/
def execSetDevHang (lodev : Bool) (hangUnits : BitVec 8) (s : State) : Host.Outcome State Fault Refusal :=
  .next ({ s with
    cfgLodev := lodev
    cfgHangDur := BitVec.ofNat 32 (Params.hangDur s.params hangUnits) }.respond .ok 0)

/-- SET_DUPLEX, R245: HANG_CNT and SEQ_STATE are not written. -/
def execSetDuplex (duplex : Bool) (s : State) : Host.Outcome State Fault Refusal :=
  .next ({ s with cfgDuplex := duplex }.respond .ok 0)

end Sys2Proof.Machine
end

