-- ==== Sys2Proof/Machine/RingBuffer.lean ====
section
/-! DEFINITION. The Frame Ring Buffer commands (spec/41_ring_buffer.md): SUBMIT_FRAME, GET_QUEUE_CAP. -/

namespace Sys2Proof.Machine

/-- The two checks of SUBMIT_FRAME in the order of R130 and R131: `none` when the frame is accepted. -/
def State.submitError (s : State) (len : BitVec 16) : Option Status :=
  if operand len ≠ s.params.frameLen then some .lengthError
  else if s.rbFree < s.params.frameLen then some .capacityError
  else none

/-- The state after SUBMIT_FRAME (R130): a rejected frame changes nothing but RESP (R262). -/
def State.submitFrame (s : State) (len : BitVec 16) (payload : List Byte) : State :=
  match s.submitError len with
  | some status => s.respond status 0
  | none => (s.rbEnqueue payload).respond .ok 0

/-- SUBMIT_FRAME, R130. A payload of another length than LEN is the host fault of R101. An accepted frame writes from
RB_HEAD on, which R70 says is an index of RB_MEM (every later index is reduced modulo RB_CAP). -/
def execSubmitFrame (len : BitVec 16) (payload : List Byte) (s : State) : Host.Outcome State Fault Refusal :=
  if payloadMatches len payload then
    if s.rbHead.toNat < s.params.rbCap then .next (s.submitFrame len payload)
    else
      match s.submitError len with
      | some _ => .next (s.submitFrame len payload)
      | none => .fault (.indexOutOfRange .rbMem s.rbHead.toNat)
  else .refused (.payloadLength (operand len) payload.length)

/-- GET_QUEUE_CAP, R134: the remaining capacity in whole frames, in the 16-bit DATA field. -/
def execGetQueueCap (s : State) : Host.Outcome State Fault Refusal :=
  .next (s.respond .ok (BitVec.ofNat 16 s.rbFreeFrames))

end Sys2Proof.Machine
end

