-- ==== Sys2Proof/Machine/Filter.lean ====
section
/-! DEFINITION. The Interpolating Filter (spec/43_interpolating_filter.md): INTERPOLATE, EMIT_BYTE, EMIT_SILENCE. -/

namespace Sys2Proof.Machine

/-- One product of R174: COEF[k*10 + m] * FILT_MEM[k], exact. -/
def tap (coef : Vector Sample 90) (mem : Vector Sample 9) (m : Fin 10) (k : Fin 9) : Int :=
  coef[k.val * 10 + m.val].toInt * mem[k].toInt

/-- `acc` of R174: the exact sum over k in 0 .. 8 for output phase m. -/
def phaseAcc (coef : Vector Sample 90) (mem : Vector Sample 9) (m : Fin 10) : Int :=
  tap coef mem m 0 + tap coef mem m 1 + tap coef mem m 2 + tap coef mem m 3 + tap coef mem m 4 +
  tap coef mem m 5 + tap coef mem m 6 + tap coef mem m 7 + tap coef mem m 8

/-- One output sample of R174: sat16(floor(acc / 32768)). -/
def phaseOut (coef : Vector Sample 90) (mem : Vector Sample 9) (m : Fin 10) : Sample :=
  sat16 (floorQ15 (phaseAcc coef mem m))

/-- The delay-line shift of R174: entry k takes entry k-1 for k = 8 down to 1, entry 0 takes the input. -/
def shiftIn (mem : Vector Sample 9) (x : Sample) : Vector Sample 9 :=
  #v[x, mem[0], mem[1], mem[2], mem[3], mem[4], mem[5], mem[6], mem[7]]

/-- The ten outputs of one input sample, phase 0 first (R174, R175). -/
def phaseGroup (coef : Vector Sample 90) (mem : Vector Sample 9) : Vector Sample 10 :=
  Vector.ofFn (phaseOut coef mem)

/-- INTERPOLATE(x[0..3]), R174: the block y[0..39] and the delay line after the call. -/
def interpolate (coef : Vector Sample 90) (mem : Vector Sample 9) (x : Vector Sample 4) :
    Vector Sample 40 × Vector Sample 9 :=
  let mem0 := shiftIn mem x[0]
  let mem1 := shiftIn mem0 x[1]
  let mem2 := shiftIn mem1 x[2]
  let mem3 := shiftIn mem2 x[3]
  (phaseGroup coef mem0 ++ phaseGroup coef mem1 ++ phaseGroup coef mem2 ++ phaseGroup coef mem3, mem3)

/-- INTERPOLATE on the block's own delay line, then one sink write: the common part of R179 and R180. -/
def State.emitBlock (s : State) (x : Vector Sample 4) : State :=
  { s with filtMem := (interpolate s.params.coef s.filtMem x).2 }.sinkWrite
    (interpolate s.params.coef s.filtMem x).1

/-- EMIT_BYTE(c), R179: CFG_LODEV is read at the call. -/
def State.emitByte (s : State) (c : Byte) : State := s.emitBlock (mapByte c s.cfgLodev)

/-- EMIT_SILENCE(), R180: four zero inputs through the same filter (R173). -/
def State.emitSilence (s : State) : State := s.emitBlock (Vector.replicate 4 0)

end Sys2Proof.Machine
end

