-- ==== Sys2Proof/Machine/Sequencer.lean ====
section
/-! DEFINITION. The Transmit Sequencer (spec/44_transmit_sequencer.md): TICK. -/

namespace Sys2Proof.Machine

/-- R204: CFG_PREAMBLE_LEN copies of SYNC_BYTE; nothing is dequeued. -/
def State.preambleFill (s : State) : Except Fault State :=
  match s.pobFill (List.replicate s.cfgPreambleLen.toNat s.params.syncByte) with
  | .error f => .error f
  | .ok t => .ok { t with seqState := .preamble }

/-- R203: exactly one frame is dequeued into the POB. -/
def State.frameFill (s : State) : Except Fault State :=
  match s.rbDequeue with
  | .error f => .error f
  | .ok (frame, t) =>
    match t.pobFill frame with
    | .error f => .error f
    | .ok u => .ok { u with seqState := .data }

/-- R205: end of data, to HANG if duplex is on and the hang count is not 0, else to IDLE with the count cleared. -/
def State.endOfData (s : State) : State :=
  if s.cfgDuplex = true ∧ s.hangCnt ≠ 0 then { s with seqState := .hang }
  else { s with seqState := .idle, hangCnt := 0 }

/-- The preamble condition of R204. -/
def State.coldStart (s : State) (keyed : Bool) : Bool :=
  decide (s.seqState = .idle) && !keyed && decide (s.cfgPreambleLen ≠ 0)

/-- The phase step of R200: at most one fill or one end-of-data decision (R203 to R206). -/
def State.phaseStep (s : State) (keyed : Bool) : Except Fault State :=
  if s.pobLen = 0 ∧ s.seqState ≠ .hang then
    if s.queued then
      if s.coldStart keyed then s.preambleFill else s.frameFill
    else if s.seqState = .preamble ∨ s.seqState = .data then .ok s.endOfData
    else .ok s
  else .ok s

/-- R209: a byte drained in DATA with duplex on reloads the hang count. -/
def State.hangReload (s : State) : State :=
  if s.seqState = .data ∧ s.cfgDuplex = true then { s with hangCnt := s.cfgHangDur } else s

/-- One turn of the drain loop of R200 for the byte `c` just read: cursor, block, reload (R208, R209). -/
def State.drainByte (s : State) (c : Byte) : State :=
  ({ s with pobPtr := s.pobPtr + 1 }.emitByte c).hangReload

/-- R210: an exhausted POB is cleared, by its length and cursor. DESIGN CHOICE (log entry 3): the drained bytes of POB_MEM stay
where U9 leaves what they are open; no rule reads them before they are written again (R75). -/
def State.pobClear (s : State) : State := { s with pobLen := 0, pobPtr := 0 }

/-- The drain loop of R200 (R208 to R210). `space` is the local counter of R202; `fuel` bounds the turns, and any fuel of
at least `space` gives the same result (`Laws/Sequencer.lean`). -/
def State.drain : Nat → Nat → State → Except Fault State
  | 0, _, s => .ok s
  | fuel + 1, space, s =>
    if 40 < space then
      match s.pobRead s.pobPtr.toNat with
      | .error f => .error f
      | .ok c =>
        if (s.drainByte c).pobLen ≤ (s.drainByte c).pobPtr then .ok (s.drainByte c).pobClear
        else State.drain fuel (space - 40) (s.drainByte c)
    else .ok s

/-- One silence step (R211, R212): one block, then the count goes down by one. -/
def State.silenceStep (s : State) : State := { s.emitSilence with hangCnt := s.hangCnt - 1 }

/-- The hang loop of R200 (R211, R212), with `space` and `fuel` as in `State.drain`. -/
def State.hangLoop : Nat → Nat → State → State
  | 0, _, s => s
  | fuel + 1, space, s =>
    if 40 < space then
      if s.silenceStep.hangCnt = 0 then { s.silenceStep with seqState := .idle }
      else State.hangLoop fuel (space - 40) s.silenceStep
    else s

/-- The emission step of R200: drain or hang, never both (R207). -/
def State.emissionStep (s : State) (space : Nat) : Except Fault State :=
  if s.pobLen ≠ 0 then State.drain space space s
  else if s.seqState = .hang then .ok (State.hangLoop space space s)
  else .ok s

/-- The body of TICK (R200) before its response: the inputs are sampled once (R202), then the two steps. -/
def State.tickBody (s : State) : Except Fault State :=
  match s.afterSinkSample.phaseStep s.sinkSample.keyed with
  | .error f => .error f
  | .ok t => t.emissionStep (operand s.sinkSample.freeSpace)

/-- TICK, R200: always OK. -/
def execTick (s : State) : Host.Outcome State Fault Refusal :=
  match s.tickBody with
  | .error f => .fault f
  | .ok t => .next (t.respond .ok 0)

end Sys2Proof.Machine
end

