-- ==== Sys2Proof/Machine/Dispatch.lean ====
section
/-! DEFINITION. One arm per host command (spec/30_encoding.md R102). -/

namespace Sys2Proof.Machine

def exec (i : Instr) (s : State) : Host.Outcome State Fault Refusal :=
  match i with
  | .submitFrame len payload => Sys2Proof.Machine.execSubmitFrame len payload s
  | .tick => Sys2Proof.Machine.execTick s
  | .setPreambleDelay delay => Sys2Proof.Machine.execSetPreambleDelay delay s
  | .setDevHang lodev hangUnits => Sys2Proof.Machine.execSetDevHang lodev hangUnits s
  | .getQueueCap => Sys2Proof.Machine.execGetQueueCap s
  | .setDuplex duplex => Sys2Proof.Machine.execSetDuplex duplex s

end Sys2Proof.Machine
end

