-- ==== Sys2Proof/Machine/Step.lean ====
section
/-! DEFINITION. One step of the block: it takes the next event of the command port (spec/10_state.md R52, R53; spec/20_memory.md
R80; spec/70_reset_and_hazards.md R291). -/

namespace Sys2Proof.Machine

/-- One delivered command, whole (R80): decode it (R115), then run it or answer that it is illegal. -/
def runCommand (word : Word) (payload : List Byte) (s : State) : Host.Outcome State Fault Refusal :=
  match decode word payload with
  | .ok i => exec i s
  | .error r => execReject r s

/-- One step. With nothing at the port the block holds all its state (R274). -/
def step (s : State) : Host.Outcome State Fault Refusal :=
  match s.hostPort with
  | [] => .next s
  | .command word payload :: _ => runCommand word payload s.takeEvent
  | .reset :: _ => .next s.takeEvent.applyRst
  | .resetDuring word payload blocksMade :: _ =>
    match runCommand word payload s.takeEvent with
    | .next t => .next (s.takeEvent.applyRstDuring t blocksMade)
    | .fault f => .fault f
    | .refused r => .refused r

/-- The state whose very next step takes the instruction with the bits `w` (R100; log entry 4). -/
def State.withFetchWord (s : State) (nbits w : Nat) : State :=
  { s with hostPort := .command (tableWord nbits w) (tablePayload nbits w) :: s.hostPort }

end Sys2Proof.Machine
end

