-- ==== Sys2Proof/Machine/Assembly.lean ====
section
/-! DEFINITION. The spec's assembly syntax and pseudo-instructions (spec/30_encoding.md R116, R117), and how lines of it
come to stand at the block's ports (log entry 4). No step reads this file; it says how a program is delivered. -/

namespace Sys2Proof.Machine

/-- One line of R116. -/
inductive AsmLine where
  /-- A command. A TICK written without its sink comment has free sink inputs of its own (DESIGN CHOICE, log entry 4). -/
  | instr (i : Instr)
  /-- `TICK ; space=S keyed=K`. -/
  | tickAt (inputs : SinkSample)
  /-- `.word 0xHHHHHHHH` with the payload bytes delivered after it. DESIGN CHOICE (log entry 4): R116 has no notation for the
  LEN bytes that an illegal SUBMIT_FRAME word takes (R113); the line carries any list of bytes beside its text. -/
  | word (w : Word) (payload : List Byte)
deriving DecidableEq, Repr

/-- The pseudo-instructions of R117. -/
inductive Pseudo where
  /-- `SUBMIT f`. -/
  | submit (frame : List Byte)
  /-- `TICKS n ; space=S keyed=K`. -/
  | ticks (n : Nat) (inputs : SinkSample)
  /-- `CONFIG delay, lodev, hang_units, duplex`. -/
  | config (delay : BitVec 8) (lodev : Bool) (hangUnits : BitVec 8) (duplex : Bool)
deriving DecidableEq, Repr

/-- The exact expansions of R117; `SUBMIT` takes LEN from the parameter FRAME_LEN. -/
def Pseudo.expand (p : Params) : Pseudo → List AsmLine
  | .submit frame => [.instr (.submitFrame (BitVec.ofNat 16 p.frameLen) frame)]
  | .ticks n inputs => List.replicate n (.tickAt inputs)
  | .config delay lodev hangUnits duplex =>
    [.instr (.setPreambleDelay delay), .instr (.setDevHang lodev hangUnits), .instr (.setDuplex duplex)]

/-- What a line delivers to the command port. -/
def AsmLine.event : AsmLine → HostEvent
  | .instr i => .command (encodeWord i) (encodePayload i)
  | .tickAt _ => .command (encodeWord .tick) (encodePayload .tick)
  | .word w payload => .command w payload

/-- What a line fixes of the sink inputs. -/
def AsmLine.inputs : AsmLine → List SinkSample
  | .instr _ => []
  | .tickAt x => [x]
  | .word _ _ => []

/-- Whether the line is a TICK, however it is written, and so uses one pair of sink inputs when it runs (R51). -/
def AsmLine.isTick : AsmLine → Bool
  | .instr i => decide (i = .tick)
  | .tickAt _ => true
  | .word w payload =>
    match decode w payload with
    | .ok i => decide (i = .tick)
    | .error _ => false

/-- One line stands at the ports after what is there already (R52, R80). DESIGN CHOICE (log entry 4): R116 does not say what
inputs a TICK without its sink comment gets; it gets the next free value, listed in its place, so that a pair a later line
names stays with that line. -/
def State.deliverLine (s : State) (line : AsmLine) : State :=
  if line.isTick && line.inputs.isEmpty then
    { s with
      hostPort := s.hostPort ++ [line.event]
      sinkSamples := s.sinkSamples ++ [Config.freeSinkSample s.sinkDraws]
      sinkDraws := s.sinkDraws + 1 }
  else
    { s with
      hostPort := s.hostPort ++ [line.event]
      sinkSamples := s.sinkSamples ++ line.inputs }

/-- The lines stand at the ports in order, after what is there already (R52, R80). -/
def State.deliver (s : State) (lines : List AsmLine) : State := lines.foldl State.deliverLine s

/-- One hexadecimal digit, upper case. -/
def hexDigit (d : BitVec 4) : String :=
  if d.toNat < 10 then toString d.toNat
  else if d.toNat = 10 then "A" else if d.toNat = 11 then "B" else if d.toNat = 12 then "C"
  else if d.toNat = 13 then "D" else if d.toNat = 14 then "E" else "F"

/-- A byte as two hexadecimal digits. -/
def hexByte (b : Byte) : String := hexDigit (b.extractLsb' 4 4) ++ hexDigit (b.extractLsb' 0 4)

/-- The mnemonic of a command, as spec/opcode_table.json spells it. -/
def Instr.mnemonic : Instr → String
  | .submitFrame _ _ => "SUBMIT_FRAME"
  | .tick => "TICK"
  | .setPreambleDelay _ => "SET_PREAMBLE_DELAY"
  | .setDevHang _ _ => "SET_DEV_HANG"
  | .getQueueCap => "GET_QUEUE_CAP"
  | .setDuplex _ => "SET_DUPLEX"

/-- The operands of a command as R116 writes them: decimal, but payload bytes in hexadecimal, b0 first. -/
def Instr.operandText : Instr → String
  | .submitFrame len payload => " " ++ toString len.toNat ++ ", [" ++ String.intercalate ", " (payload.map hexByte) ++ "]"
  | .tick => ""
  | .setPreambleDelay delay => " " ++ toString delay.toNat
  | .setDevHang lodev hangUnits => " " ++ toString lodev.toNat ++ ", " ++ toString hangUnits.toNat
  | .getQueueCap => ""
  | .setDuplex duplex => " " ++ toString duplex.toNat

/-- The text of a line (R116). DESIGN CHOICE (log entry 4): the payload of a `.word` line has no notation in R116 and is not
printed, so two such lines that differ in their payload alone have one text. -/
def AsmLine.text : AsmLine → String
  | .instr i => Instr.mnemonic i ++ Instr.operandText i
  | .tickAt x => "TICK ; space=" ++ toString x.freeSpace.toNat ++ " keyed=" ++ toString x.keyed.toNat
  | .word w _ =>
    ".word 0x" ++ hexByte (w.extractLsb' 24 8) ++ hexByte (w.extractLsb' 16 8) ++ hexByte (w.extractLsb' 8 8) ++
      hexByte (w.extractLsb' 0 8)

end Sys2Proof.Machine
end

