-- ==== Sys2Proof/Safety.lean ====
section
/-! DEFINITION. What counts as a safe state, and the terms the claims use. -/

namespace Sys2Proof.Machine

/-- The invariants the spec gives the block's state, true after reset and after every command: R34, R35, R36, R40, R41,
R45, the ranges of R8 and R70, and R75 in the form "what will be read has been written". -/
structure State.Inv (s : State) : Prop where
  /-- R8: the parameters are in their ranges. -/
  legal : s.params.Legal
  /-- R35: 0 ≤ RB_HEAD < RB_CAP. -/
  head_lt : s.rbHead.toNat < s.params.rbCap
  /-- R35: 0 ≤ RB_TAIL < RB_CAP. -/
  tail_lt : s.rbTail.toNat < s.params.rbCap
  /-- R35: RB_COUNT ≤ RB_CAP. -/
  count_le : s.rbCount.toNat ≤ s.params.rbCap
  /-- R36: RB_HEAD = (RB_TAIL + RB_COUNT) mod RB_CAP. -/
  head_eq : s.rbHead.toNat = (s.rbTail.toNat + s.rbCount.toNat) % s.params.rbCap
  /-- R36: RB_COUNT mod FRAME_LEN = 0. -/
  count_mod : s.rbCount.toNat % s.params.frameLen = 0
  /-- The ring-buffer memory is in canonical form. -/
  rb_wf : s.rbMem.wf = true
  /-- R70: RB_MEM has the indices 0 to RB_CAP-1. -/
  rb_within : s.rbMem.within s.params.rbCap = true
  /-- R75: the RB_COUNT bytes from RB_TAIL on have been written. -/
  rb_written : ∀ k < s.rbCount.toNat, (s.rbMem.read ((s.rbTail.toNat + k) % s.params.rbCap)).isSome = true
  /-- The pending-output memory is in canonical form. -/
  pob_wf : s.pobMem.wf = true
  /-- R70: POB_MEM has the indices 0 to POB_CAP-1. -/
  pob_within : s.pobMem.within s.params.pobCap = true
  /-- R75: the POB_LEN bytes of the buffer have been written. -/
  pob_written : ∀ j < s.pobLen.toNat, (s.pobMem.read j).isSome = true
  /-- R40: POB_LEN ≤ POB_CAP. -/
  pob_le : s.pobLen.toNat ≤ s.params.pobCap
  /-- R41: POB_LEN = 0 implies POB_PTR = 0. -/
  ptr_zero : s.pobLen = 0 → s.pobPtr = 0
  /-- R41: POB_LEN > 0 implies POB_PTR < POB_LEN. -/
  ptr_lt : s.pobLen ≠ 0 → s.pobPtr.toNat < s.pobLen.toNat
  /-- R34(a). -/
  hang : s.seqState = .hang → s.hangCnt ≠ 0 ∧ s.pobLen = 0
  /-- R34(b). -/
  idle : s.seqState = .idle → s.hangCnt = 0 ∧ s.pobLen = 0
  /-- D20: the frame that started the preamble is still queued. -/
  preamble_queued : s.seqState = .preamble → s.queued = true
  /-- R45: CFG_PREAMBLE_LEN is 0 to 1200. -/
  preamble_le : s.cfgPreambleLen.toNat ≤ 1200
  /-- R45: CFG_HANG_DUR is 0 to 255 * HANG_SCALE. -/
  hang_dur_le : s.cfgHangDur.toNat ≤ 255 * s.params.hangScale

/-- A q15 value inside the bound that the symbol levels and silence meet: |x| ≤ 1893 (R151, R176). -/
abbrev LevelBounded (x : Sample) : Prop := -1893 ≤ x.toInt ∧ x.toInt ≤ 1893

/-- Every entry of FILT_MEM is inside that bound (R176). -/
def State.FiltBounded (s : State) : Prop := ∀ k : Fin 9, LevelBounded s.filtMem[k]

/-- The frame queue as the host sees it, R133: the bytes from RB_TAIL on, oldest first. -/
def State.queue (s : State) : List (Option Byte) :=
  (List.range s.rbCount.toNat).map fun k => s.rbMem.read ((s.rbTail.toNat + k) % s.params.rbCap)

/-- The bytes of the POB that have not been drained, in POB order (R40, R208). -/
def State.pending (s : State) : List (Option Byte) :=
  (List.range (s.pobLen.toNat - s.pobPtr.toNat)).map fun j => s.pobMem.read (s.pobPtr.toNat + j)

/-- `k_max` of R214: floor((S - 1) / 40) when S ≥ 1, and 0 when S = 0. -/
def maxBlocks (space : Nat) : Nat := (space - 1) / 40

/-- The sink blocks a command appends: what `t` has written beyond `s`. -/
def newBlocks (s t : State) : List SinkBlock := t.sinkWrites.drop s.sinkWrites.length

/-- The effect of a list of bytes going out one after another (R179, R208). -/
def State.emitBytes (s : State) (bytes : List Byte) : State := bytes.foldl State.emitByte s

/-- The effect of `n` silence blocks one after another (R180, R211). -/
def State.emitSilences (s : State) : Nat → State
  | 0 => s
  | n + 1 => State.emitSilences s.emitSilence n

/-- TICKs one after another and nothing between them, each with the sink inputs listed for it (R51, R117). -/
def afterTicks : List SinkSample → State → Option State
  | [], s => some s
  | x :: xs, s =>
    match exec .tick { s with sinkSamples := x :: s.sinkSamples } with
    | .next t => afterTicks xs t
    | .fault _ => none
    | .refused _ => none

/-- The most blocks a list of TICKs can write (R214, one after another). -/
def totalBlocks (xs : List SinkSample) : Nat := (xs.map fun x => maxBlocks x.freeSpace.toNat).sum

/-- The block stream of a list of 4-sample groups, each through one INTERPOLATE call, from a delay line on. -/
def interpolateAll (coef : Vector Sample 90) : Vector Sample 9 → List (Vector Sample 4) → List Sample
  | _, [] => []
  | mem, x :: xs => (interpolate coef mem x).1.toList ++ interpolateAll coef (interpolate coef mem x).2 xs

/-- The upsampled stream `u` of R175: u[n*10] = x[n], and 0 elsewhere and outside the stream. -/
def upsampled (x : List Sample) (j : Int) : Int :=
  if 0 ≤ j ∧ j % 10 = 0 then ((x[(j / 10).toNat]?).map BitVec.toInt).getD 0 else 0

/-- The 90-tap FIR sum of R175 at output sample `j`: the sum over t in 0 .. 89 of COEF[t] * u[j - t]. -/
def firSum (coef : Vector Sample 90) (x : List Sample) (j : Nat) : Int :=
  ((List.finRange 90).map fun t => coef[t].toInt * upsampled x ((j : Int) - (t.val : Int))).sum

/-- What entry k of FILT_MEM holds after the inputs x[0..i] of one INTERPOLATE call (R174): the k-th newest of the inputs,
then what the delay line held before the call. -/
def delayEntry (mem : Vector Sample 9) (x : Vector Sample 4) (i : Fin 4) (k : Fin 9) : Sample :=
  if _h : k.val ≤ i.val then x[i.val - k.val] else mem[k.val - 1 - i.val]

/-- One row of spec/opcode_table.json: a word is the row's when `word &&& mask = matchBits`. -/
structure TableRow where
  mnemonic : String
  matchBits : Word
  mask : Word
deriving DecidableEq, Repr

/-- spec/opcode_table.json. -/
def opcodeTable : List TableRow :=
  [⟨"SUBMIT_FRAME", 0x10000000#32, 0xFFFF0000#32⟩, ⟨"TICK", 0x20000000#32, 0xFFFFFFFF#32⟩,
   ⟨"SET_PREAMBLE_DELAY", 0x30000000#32, 0xFFFFFF00#32⟩, ⟨"SET_DEV_HANG", 0x40000000#32, 0xFFFFFE00#32⟩,
   ⟨"GET_QUEUE_CAP", 0x50000000#32, 0xFFFFFFFF#32⟩, ⟨"SET_DUPLEX", 0x60000000#32, 0xFFFFFFFE#32⟩]

/-- The row of an instruction. -/
def tableRow : Instr → TableRow
  | .submitFrame _ _ => ⟨"SUBMIT_FRAME", 0x10000000#32, 0xFFFF0000#32⟩
  | .tick => ⟨"TICK", 0x20000000#32, 0xFFFFFFFF#32⟩
  | .setPreambleDelay _ => ⟨"SET_PREAMBLE_DELAY", 0x30000000#32, 0xFFFFFF00#32⟩
  | .setDevHang _ _ => ⟨"SET_DEV_HANG", 0x40000000#32, 0xFFFFFE00#32⟩
  | .getQueueCap => ⟨"GET_QUEUE_CAP", 0x50000000#32, 0xFFFFFFFF#32⟩
  | .setDuplex _ => ⟨"SET_DUPLEX", 0x60000000#32, 0xFFFFFFFE#32⟩

end Sys2Proof.Machine
end

