-- ==== Sys2Proof/Certificates/Slice0/Obligations.lean ====
section
/-! DEFINITION. The statements for the provers, file by file of spec/. Inside a statement about a TICK, `s.sinkSample` is
what the sink shows at it: it is given by the state where the state lists a sample and is a free value where it does not
(log entry 2), and every statement holds for every value of it. Where a statement says that RB_MEM or POB_MEM stays, this takes in
the slots already dequeued or drained: the spec's pseudocode writes nothing there, and that the model keeps their bytes, which U9
leaves open, is its choice (log entry 3). -/

open Sys2Proof Sys2Proof.Machine

/-! ## Reset, and what stands at the port -/

/-- The state after reset has the values of R56's table; the parameters are legal but otherwise unknown. -/
def Obligations.ResetStateHasTheResetValues : Prop :=
  State.reset.params.Legal ∧
  State.reset.seqState = .idle ∧ State.reset.hangCnt = 0#32 ∧
  State.reset.rbHead = 0#16 ∧ State.reset.rbTail = 0#16 ∧ State.reset.rbCount = 0#16 ∧
  State.reset.pobLen = 0#16 ∧ State.reset.pobPtr = 0#16 ∧ (∀ k : Fin 9, State.reset.filtMem[k] = 0#16) ∧
  State.reset.cfgLodev = false ∧
  State.reset.cfgPreambleLen.toNat = min State.reset.params.preambleOffset 1200 ∧
  State.reset.cfgHangDur = 0#32 ∧ State.reset.cfgDuplex = false ∧ State.reset.resp = 0#32

/-- R290: `RST` between two commands puts every register at its reset value, from any state. The parameters stay (R43 for the
coefficient table) and so do the sink writes already made (R291). That the responses already delivered stay is no rule of the
spec but the model's inference, marked DEDUCED in log entry 5; what is left at the port is the model's form (log entry 4). -/
def Obligations.RstSetsEveryRegister : Prop :=
  ∀ (s : State) (rest : List HostEvent), s.hostPort = .reset :: rest →
    ∃ t, step s = .next t ∧
      t.seqState = .idle ∧ t.hangCnt = 0#32 ∧ t.rbHead = 0#16 ∧ t.rbTail = 0#16 ∧ t.rbCount = 0#16 ∧
      t.pobLen = 0#16 ∧ t.pobPtr = 0#16 ∧ (∀ k : Fin 9, t.filtMem[k] = 0#16) ∧ t.cfgLodev = false ∧
      t.cfgPreambleLen.toNat = min s.params.preambleOffset 1200 ∧ t.cfgHangDur = 0#32 ∧ t.cfgDuplex = false ∧
      t.resp = 0#32 ∧
      t.params = s.params ∧ t.sinkWrites = s.sinkWrites ∧ t.responses = s.responses ∧ t.hostPort = rest

/-- R291: `RST` during a command. Of the command's sink writes the first `n` are already made and stay made, its response is
not delivered, and every register is at its reset value; the parameters stay (R43 for the coefficient table). No rule of the spec
but the model's: that the responses delivered before stay is its inference, marked DEDUCED in log entry 5; that an `n` beyond the
writes the command makes keeps all of them is its form of the event (log entry 5), and so is what is left at the port (log entry 4). -/
def Obligations.RstDuringACommandKeepsOnlyItsSinkWrites : Prop :=
  ∀ (s u : State) (w : Word) (p : List Byte) (n : Nat) (rest : List HostEvent),
    s.hostPort = .resetDuring w p n :: rest →
    runCommand w p s.takeEvent = .next u →
    ∃ t, step s = .next t ∧
      t.sinkWrites = s.sinkWrites ++ (newBlocks s u).take n ∧ t.responses = s.responses ∧
      t.seqState = .idle ∧ t.hangCnt = 0#32 ∧ t.rbHead = 0#16 ∧ t.rbTail = 0#16 ∧ t.rbCount = 0#16 ∧
      t.pobLen = 0#16 ∧ t.pobPtr = 0#16 ∧ (∀ k : Fin 9, t.filtMem[k] = 0#16) ∧ t.cfgLodev = false ∧
      t.cfgPreambleLen.toNat = min s.params.preambleOffset 1200 ∧ t.cfgHangDur = 0#32 ∧ t.cfgDuplex = false ∧
      t.resp = 0#32 ∧ t.params = s.params ∧ t.hostPort = rest

/-- R274: with nothing at the port the block holds all its state. -/
def Obligations.NothingAtThePortChangesNothing : Prop :=
  ∀ s : State, s.hostPort = [] → step s = .next s

/-- R52, R80: when the delivery at the head of the port decodes to an instruction, a step is that instruction's meaning on
the state with the delivery taken. -/
def Obligations.StepRunsTheDecodedCommand : Prop :=
  ∀ (s : State) (w : Word) (p : List Byte) (rest : List HostEvent) (i : Instr),
    s.hostPort = .command w p :: rest → decode w p = .ok i →
    step s = exec i { s with hostPort := rest }

/-! ## Encoding -/

/-- R112: a word of opcode 0x0 or 0x7 to 0xF changes nothing but RESP (and the host is answered), and carries no payload. -/
def Obligations.ReservedOpcodeChangesOnlyResp : Prop :=
  ∀ (s : State) (w : Word) (rest : List HostEvent), s.hostPort = .command w [] :: rest →
    (w.toNat / 2 ^ 28 = 0 ∨ 7 ≤ w.toNat / 2 ^ 28) →
    step s = .next { s with
      hostPort := rest, resp := 0x0000000F#32, responses := s.responses ++ [0x0000000F#32] }

/-- R113: a legal opcode with a reserved bit set does the same; for SUBMIT_FRAME the LEN payload bytes are taken and discarded. -/
def Obligations.ReservedBitChangesOnlyResp : Prop :=
  ∀ (s : State) (w : Word) (p : List Byte) (rest : List HostEvent), s.hostPort = .command w p :: rest →
    ((w.toNat / 2 ^ 28 = 1 ∧ w.toNat / 2 ^ 16 % 2 ^ 12 ≠ 0 ∧ p.length = w.toNat % 2 ^ 16) ∨
     (w.toNat / 2 ^ 28 = 2 ∧ w.toNat % 2 ^ 28 ≠ 0 ∧ p = []) ∨
     (w.toNat / 2 ^ 28 = 3 ∧ w.toNat / 2 ^ 8 % 2 ^ 20 ≠ 0 ∧ p = []) ∨
     (w.toNat / 2 ^ 28 = 4 ∧ w.toNat / 2 ^ 9 % 2 ^ 19 ≠ 0 ∧ p = []) ∨
     (w.toNat / 2 ^ 28 = 5 ∧ w.toNat % 2 ^ 28 ≠ 0 ∧ p = []) ∨
     (w.toNat / 2 ^ 28 = 6 ∧ w.toNat / 2 % 2 ^ 27 ≠ 0 ∧ p = [])) →
    step s = .next { s with
      hostPort := rest, resp := 0x0000000F#32, responses := s.responses ++ [0x0000000F#32] }

/-- R101: a delivery whose payload list has another length than the word declares is refused by name. R101 says so of SUBMIT_FRAME;
that an illegal SUBMIT_FRAME word with another number of bytes, and any payload behind another word, are the same host fault is
the model's inference, marked DEDUCED in log entry 6. -/
def Obligations.PayloadOfAnotherLengthIsRefused : Prop :=
  (∀ (s : State) (w : Word) (p : List Byte) (rest : List HostEvent), s.hostPort = .command w p :: rest →
    ((w.toNat / 2 ^ 28 = 1 ∧ p.length ≠ w.toNat % 2 ^ 16 →
        step s = .refused (.payloadLength (w.toNat % 2 ^ 16) p.length)) ∧
     (w.toNat / 2 ^ 28 ≠ 1 ∧ p ≠ [] → step s = .refused (.payloadLength 0 p.length)))) ∧
  (∀ (s : State) (len : BitVec 16) (p : List Byte), p.length ≠ len.toNat →
    exec (.submitFrame len p) s = .refused (.payloadLength len.toNat p.length))

/-- R118: the spec's encoding examples. -/
def Obligations.EncodingExamplesDecode : Prop :=
  decode 0x20000000#32 [] = .ok .tick ∧
  (∀ p : List Byte, p.length = 120 → decode 0x10000078#32 p = .ok (.submitFrame 120#16 p)) ∧
  decode 0x300000FF#32 [] = .ok (.setPreambleDelay 255#8) ∧
  decode 0x40000103#32 [] = .ok (.setDevHang true 3#8) ∧
  decode 0x400000C8#32 [] = .ok (.setDevHang false 200#8) ∧
  decode 0x50000000#32 [] = .ok .getQueueCap ∧
  decode 0x60000001#32 [] = .ok (.setDuplex true) ∧
  decode 0x20000001#32 [] = .error (.reservedBits 0x20000001#32) ∧
  decode 0x00000000#32 [] = .error (.reservedOpcode 0x0#4)

/-- Decoding an encoded well-formed instruction gives it back, with every operand at every value of its field. -/
def Obligations.DecodeOfEncodeIsTheInstruction : Prop :=
  ∀ i : Instr, i.wf = true → decode (encode i).1 (encode i).2 = .ok i

/-- Each delivery has one meaning: what decodes is the encoding of what it decodes to, which is well formed. -/
def Obligations.EncodeOfDecodeIsTheDelivery : Prop :=
  ∀ (w : Word) (p : List Byte) (i : Instr), decode w p = .ok i → encode i = (w, p) ∧ i.wf = true

/-- A word with the payload it declares decodes exactly when it is a word of the opcode table, to the instruction of that row,
and no word is a word of two rows. -/
def Obligations.DecodesExactlyTheTableRows : Prop :=
  (∀ (w : Word) (p : List Byte), p.length = (if w.toNat / 2 ^ 28 = 1 then w.toNat % 2 ^ 16 else 0) →
    ((∃ i, decode w p = .ok i) ↔ ∃ r ∈ opcodeTable, w &&& r.mask = r.matchBits)) ∧
  (∀ (w : Word) (p : List Byte) (i : Instr), decode w p = .ok i →
    tableRow i ∈ opcodeTable ∧ w &&& (tableRow i).mask = (tableRow i).matchBits) ∧
  (∀ w : Word, ∀ r ∈ opcodeTable, ∀ r' ∈ opcodeTable,
    w &&& r.mask = r.matchBits → w &&& r'.mask = r'.matchBits → r = r')

/-- R117: the pseudo-instructions expand to the command words the rule names. -/
def Obligations.PseudoInstructionsExpand : Prop :=
  (∀ (p : Params) (f : List Byte), p.Legal → f.length = p.frameLen →
    ∃ len : BitVec 16, len.toNat = p.frameLen ∧ (Pseudo.submit f).expand p = [.instr (.submitFrame len f)] ∧
      (Instr.submitFrame len f).wf = true) ∧
  (∀ (p : Params) (n : Nat) (x : SinkSample),
    ((Pseudo.ticks n x).expand p).map AsmLine.event = List.replicate n (.command 0x20000000#32 []) ∧
    ((Pseudo.ticks n x).expand p).flatMap AsmLine.inputs = List.replicate n x) ∧
  (∀ (p : Params) (d : BitVec 8) (l : Bool) (h : BitVec 8) (x : Bool),
    (Pseudo.config d l h x).expand p =
      [.instr (.setPreambleDelay d), .instr (.setDevHang l h), .instr (.setDuplex x)])

/-! ## The response word -/

/-- R110: after every command RESP has STATUS in bits 3:0, zero in bits 15:4 and DATA in bits 31:16; DATA is the remaining frame
capacity for GET_QUEUE_CAP and 0 for every other command and every error; the host gets that one word. -/
def Obligations.EveryCommandAnswersOneResponseWord : Prop :=
  ∀ (s t : State) (w : Word) (p : List Byte), runCommand w p s = .next t →
    t.responses = s.responses ++ [t.resp] ∧
    t.resp.toNat / 2 ^ 4 % 2 ^ 12 = 0 ∧
    (t.resp.toNat % 2 ^ 4 = 0 ∨ t.resp.toNat % 2 ^ 4 = 1 ∨ t.resp.toNat % 2 ^ 4 = 2 ∨ t.resp.toNat % 2 ^ 4 = 15) ∧
    (t.resp.toNat / 2 ^ 16 ≠ 0 → decode w p = .ok .getQueueCap ∧ t.resp.toNat % 2 ^ 4 = 0) ∧
    (s.params.Legal → decode w p = .ok .getQueueCap →
      t.resp.toNat / 2 ^ 16 = (s.params.rbCap - s.rbCount.toNat) / s.params.frameLen)

/-- From R261 and R262: the three error statuses of R261's table, each with exactly its cause, for a delivery with the payload it declares,
and what an error leaves. That no further status occurs, so that every other decoded command answers OK, is not said here but in
`Obligations.EveryCommandAnswersOneResponseWord`. -/
def Obligations.EveryStatusHasItsCause : Prop :=
  ∀ (s t : State) (w : Word) (p : List Byte), runCommand w p s = .next t →
    (t.resp.toNat % 2 ^ 4 = 15 ↔ ∀ i, decode w p ≠ .ok i) ∧
    (t.resp.toNat % 2 ^ 4 = 1 ↔ ∃ len, decode w p = .ok (.submitFrame len p) ∧ len.toNat ≠ s.params.frameLen) ∧
    (t.resp.toNat % 2 ^ 4 = 2 ↔ ∃ len, decode w p = .ok (.submitFrame len p) ∧ len.toNat = s.params.frameLen ∧
      s.params.rbCap - s.rbCount.toNat < s.params.frameLen) ∧
    (t.resp.toNat % 2 ^ 4 ≠ 0 → t.resp.toNat / 2 ^ 4 = 0 ∧
      t = { s with resp := t.resp, responses := s.responses ++ [t.resp] })

/-- The host reads nothing of the block's state but what RB_COUNT tells (R30, R54): one command on two states with the same
parameters and the same RB_COUNT is answered alike, whatever the sequencer, the buffers, the filter and the configuration hold. -/
def Obligations.ResponseRevealsOnlyTheQueueCount : Prop :=
  ∀ (s₁ s₂ t₁ t₂ : State) (w : Word) (p : List Byte), s₁.params = s₂.params → s₁.rbCount = s₂.rbCount →
    runCommand w p s₁ = .next t₁ → runCommand w p s₂ = .next t₂ → t₁.resp = t₂.resp

/-! ## The ring buffer -/

/-- R130, R131, R132: SUBMIT_FRAME. A frame of the wrong length gets LENGTH_ERROR, a full buffer or not; one of the right length without
room CAPACITY_ERROR; both change nothing but RESP. With room it is stored byte by byte from RB_HEAD on, wrapping at RB_CAP, behind the bytes
that are held; every other byte and every other register stays. That this takes in the bytes of dequeued slots is the model's
choice (U9, log entry 3). -/
def Obligations.SubmitFrameStoresOrRejects : Prop :=
  ∀ (s : State) (len : BitVec 16) (p : List Byte), s.Inv → p.length = len.toNat →
    (len.toNat ≠ s.params.frameLen →
      exec (.submitFrame len p) s =
        .next { s with resp := 0x00000001#32, responses := s.responses ++ [0x00000001#32] }) ∧
    (len.toNat = s.params.frameLen → s.params.rbCap - s.rbCount.toNat < s.params.frameLen →
      exec (.submitFrame len p) s =
        .next { s with resp := 0x00000002#32, responses := s.responses ++ [0x00000002#32] }) ∧
    (len.toNat = s.params.frameLen → s.params.frameLen ≤ s.params.rbCap - s.rbCount.toNat →
      ∃ t, exec (.submitFrame len p) s = .next t ∧
        t = { s with
          rbMem := t.rbMem, rbHead := t.rbHead, rbCount := t.rbCount
          resp := 0x00000000#32, responses := s.responses ++ [0x00000000#32] } ∧
        t.rbCount.toNat = s.rbCount.toNat + s.params.frameLen ∧
        t.rbHead.toNat = (s.rbHead.toNat + s.params.frameLen) % s.params.rbCap ∧
        (∀ j < s.params.frameLen, t.rbMem.read ((s.rbHead.toNat + j) % s.params.rbCap) = p[j]?) ∧
        (∀ a, (∀ j < s.params.frameLen, a ≠ (s.rbHead.toNat + j) % s.params.rbCap) →
          t.rbMem.read a = s.rbMem.read a) ∧
        (∀ k < s.rbCount.toNat, ∀ j < s.params.frameLen,
          (s.rbTail.toNat + k) % s.params.rbCap ≠ (s.rbHead.toNat + j) % s.params.rbCap))

/-- R134: GET_QUEUE_CAP answers the free frames, rounded down, and changes nothing but RESP. The last clause, that the answer is 0
exactly when the next SUBMIT_FRAME of the right length gets CAPACITY_ERROR, is the sentence R134 marks as the spec's own
derivation from R130 and R134. -/
def Obligations.QueueCapIsTheFreeFrames : Prop :=
  ∀ s : State, s.Inv →
    ∃ t, exec .getQueueCap s = .next t ∧
      t = { s with resp := t.resp, responses := s.responses ++ [t.resp] } ∧
      t.resp.toNat = (s.params.rbCap - s.rbCount.toNat) / s.params.frameLen * 2 ^ 16 ∧
      (t.resp = 0#32 ↔ ∀ (len : BitVec 16) (p : List Byte), p.length = len.toNat → len.toNat = s.params.frameLen →
        ∃ u, exec (.submitFrame len p) t = .next u ∧ u.resp = 0x00000002#32)

/-- R136, the capacity law: never more frames than fit; while RB_FREE < FRAME_LEN every frame of the right length gets
CAPACITY_ERROR, and no command but TICK makes RB_COUNT smaller. -/
def Obligations.CapacityIsNeverExceeded : Prop :=
  ∀ s : State, s.Inv →
    s.rbCount.toNat / s.params.frameLen ≤ s.params.rbCap / s.params.frameLen ∧
    (s.params.rbCap - s.rbCount.toNat < s.params.frameLen →
      ∀ (len : BitVec 16) (p : List Byte), p.length = len.toNat → len.toNat = s.params.frameLen →
        ∃ u, exec (.submitFrame len p) s = .next u ∧ u.resp = 0x00000002#32 ∧ u.rbCount = s.rbCount) ∧
    (∀ (w : Word) (p : List Byte) (t : State), runCommand w p s = .next t → decode w p ≠ .ok .tick →
      s.rbCount.toNat ≤ t.rbCount.toNat)

/-- R133: the ring buffer is a first-in first-out queue of bytes. An accepted frame goes to its end, a TICK that fills from it
takes its first FRAME_LEN bytes, and nothing else changes it. -/
def Obligations.RingBufferIsFirstInFirstOut : Prop :=
  ∀ (s t : State) (i : Instr), s.Inv → exec i s = .next t →
    (∀ len p, i = .submitFrame len p →
      (t.resp = 0#32 → t.queue = s.queue ++ p.map some) ∧ (t.resp ≠ 0#32 → t.queue = s.queue)) ∧
    (i = .tick →
      (s.pobLen = 0#16 ∧ s.seqState ≠ .hang ∧ s.params.frameLen ≤ s.rbCount.toNat ∧
          ¬ (s.seqState = .idle ∧ s.sinkSample.keyed = false ∧ s.cfgPreambleLen ≠ 0#16) →
        t.queue = s.queue.drop s.params.frameLen) ∧
      (¬ (s.pobLen = 0#16 ∧ s.seqState ≠ .hang ∧ s.params.frameLen ≤ s.rbCount.toNat ∧
          ¬ (s.seqState = .idle ∧ s.sinkSample.keyed = false ∧ s.cfgPreambleLen ≠ 0#16)) →
        t.queue = s.queue)) ∧
    (i ≠ .tick → (∀ len p, i ≠ .submitFrame len p) → t.queue = s.queue)

/-- R75 (the spec's own derivation), R130, R133, R203, R204: where the bytes come from. After a step every queued byte is a value: one
that was queued before, or one of the frame of FRAME_LEN bytes this step submitted. Every byte of the POB still to be drained is
a value: one that was pending before, one that was queued before, or SYNC_BYTE. -/
def Obligations.QueuedAndPendingBytesAreWritten : Prop :=
  ∀ s t : State, s.Inv → step s = .next t →
    (∀ x ∈ t.queue, ∃ b : Byte, x = some b ∧
      (x ∈ s.queue ∨
        ∃ (w : Word) (len : BitVec 16) (p : List Byte), s.hostPort.head? = some (.command w p) ∧
          decode w p = .ok (.submitFrame len p) ∧ len.toNat = s.params.frameLen ∧ b ∈ p)) ∧
    (∀ x ∈ t.pending, ∃ b : Byte, x = some b ∧
      (x ∈ s.pending ∨ x ∈ s.queue ∨ b = s.params.syncByte))

/-! ## Configuration -/

/-- R240: SET_PREAMBLE_DELAY. -/
def Obligations.PreambleDelaySetsTheClampedLength : Prop :=
  ∀ (s : State) (delay : BitVec 8),
    ∃ t, exec (.setPreambleDelay delay) s = .next t ∧
      t.cfgPreambleLen.toNat = min (s.params.preambleOffset + s.params.preambleScale * delay.toNat) 1200 ∧
      t = { s with
        cfgPreambleLen := t.cfgPreambleLen, resp := 0#32, responses := s.responses ++ [0#32] }

/-- R242, R243: SET_DEV_HANG; the product is exact, and HANG_CNT is among what stays (R244). -/
def Obligations.DevHangSetsDeviationAndExactDuration : Prop :=
  ∀ (s : State) (lodev : Bool) (hangUnits : BitVec 8), s.params.Legal →
    ∃ t, exec (.setDevHang lodev hangUnits) s = .next t ∧
      t.cfgLodev = lodev ∧ t.cfgHangDur.toNat = hangUnits.toNat * s.params.hangScale ∧
      t = { s with
        cfgLodev := lodev, cfgHangDur := t.cfgHangDur, resp := 0#32, responses := s.responses ++ [0#32] }

/-- R245: SET_DUPLEX; HANG_CNT and SEQ_STATE are among what stays. -/
def Obligations.DuplexIsSet : Prop :=
  ∀ (s : State) (duplex : Bool),
    exec (.setDuplex duplex) s =
      .next { s with cfgDuplex := duplex, resp := 0#32, responses := s.responses ++ [0#32] }

/-- R45: each configuration register is written by exactly one command. -/
def Obligations.EachConfigurationRegisterHasOneWriter : Prop :=
  ∀ (s t : State) (i : Instr), exec i s = .next t →
    ((∀ d, i ≠ .setPreambleDelay d) → t.cfgPreambleLen = s.cfgPreambleLen) ∧
    ((∀ l h, i ≠ .setDevHang l h) → t.cfgLodev = s.cfgLodev ∧ t.cfgHangDur = s.cfgHangDur) ∧
    ((∀ d, i ≠ .setDuplex d) → t.cfgDuplex = s.cfgDuplex)

/-! ## Symbol mapper and filter -/

/-- R150, R151: MAP_BYTE by the level table, the most significant 2-bit group first, and its range. -/
def Obligations.MapByteFollowsTheLevelTable : Prop :=
  ∀ (b : Byte) (lodev : Bool) (i : Fin 4),
    (mapByte b lodev)[i].toInt =
      (if b.toNat / 4 ^ (3 - i.val) % 4 = 3 then (if lodev then 948 else 1893)
       else if b.toNat / 4 ^ (3 - i.val) % 4 = 2 then (if lodev then 316 else 631)
       else if b.toNat / 4 ^ (3 - i.val) % 4 = 0 then (if lodev then -316 else -631)
       else (if lodev then -948 else -1893)) ∧
    -1893 ≤ (mapByte b lodev)[i].toInt ∧ (mapByte b lodev)[i].toInt ≤ 1893

/-- From R174, one call on any delay line: every output sample and every entry of the delay line after the call. R174's sentence about
the inputs since reset, over many calls, is not said here but through `Obligations.PolyphaseIsTheNinetyTapFilter`. -/
def Obligations.InterpolateComputesThePolyphaseSums : Prop :=
  ∀ (coef : Vector Sample 90) (mem : Vector Sample 9) (x : Vector Sample 4),
    (∀ (i : Fin 4) (m : Fin 10),
      (interpolate coef mem x).1[i.val * 10 + m.val].toInt =
        min (max ((∑ k : Fin 9, coef[k.val * 10 + m.val].toInt * (delayEntry mem x i k).toInt) / 32768) (-32768))
          32767) ∧
    (∀ k : Fin 9, (interpolate coef mem x).2[k] = delayEntry mem x 3 k)

/-- R175, R172: the blocks of any number of INTERPOLATE calls from the reset delay line on, laid end to end, are the output of the
90-tap FIR filter on the upsampled input stream; the split into 4-sample calls has no effect. -/
def Obligations.PolyphaseIsTheNinetyTapFilter : Prop :=
  ∀ (coef : Vector Sample 90) (xs : List (Vector Sample 4)),
    (interpolateAll coef (Vector.replicate 9 0#16) xs).length = 40 * xs.length ∧
    ∀ j < 40 * xs.length,
      ((interpolateAll coef (Vector.replicate 9 0#16) xs)[j]?).map BitVec.toInt =
        some (min (max (firSum coef (xs.flatMap Vector.toList) j / 32768) (-32768)) 32767)

/-- R176: for the inputs the block can have, the exact sum stays below 2^30, the output lies in [-17037, 17037], and saturation
changes nothing. -/
def Obligations.FilterNeverSaturates : Prop :=
  ∀ (coef : Vector Sample 90) (mem : Vector Sample 9) (x : Vector Sample 4),
    (∀ k : Fin 9, LevelBounded mem[k]) → (∀ i : Fin 4, LevelBounded x[i]) →
    ∀ (i : Fin 4) (m : Fin 10),
      |∑ k : Fin 9, coef[k.val * 10 + m.val].toInt * (delayEntry mem x i k).toInt| ≤ 558268416 ∧
      (interpolate coef mem x).1[i.val * 10 + m.val].toInt =
        (∑ k : Fin 9, coef[k.val * 10 + m.val].toInt * (delayEntry mem x i k).toInt) / 32768 ∧
      -17037 ≤ (interpolate coef mem x).1[i.val * 10 + m.val].toInt ∧
      (interpolate coef mem x).1[i.val * 10 + m.val].toInt ≤ 17037

/-- R177: the division rounds toward minus infinity; and the rule's examples, a sentence the spec marks as its own derivation
from R174. -/
def Obligations.DivisionRoundsTowardMinusInfinity : Prop :=
  (∀ v : Int, floorQ15 v * 32768 ≤ v ∧ v < (floorQ15 v + 1) * 32768) ∧
  floorQ15 (-1) = -1 ∧ floorQ15 1 = 0 ∧ floorQ15 (32767 * 1893) = 1892 ∧ floorQ15 (32767 * -1893) = -1893

/-- R178: a delay line of zeros gives zeros, and from any delay line on, the third silence step and every later one is all
zeros. -/
def Obligations.SilenceDecaysToZero : Prop :=
  (∀ (coef : Vector Sample 90) (m : Fin 10), phaseOut coef (Vector.replicate 9 0#16) m = 0#16) ∧
  (∀ (s : State) (n : Nat), 2 ≤ n → ∀ j : Fin 40,
    (interpolate s.params.coef (s.emitSilences n).filtMem (Vector.replicate 4 0#16)).1[j] = 0#16)

/-- R179, R180: EMIT_BYTE and EMIT_SILENCE write one tagged block, the filter's output for the byte's four levels or for four
zeros, and change FILT_MEM besides; nothing else. -/
def Obligations.EmissionWritesOneTaggedBlock : Prop :=
  ∀ (s : State) (c : Byte),
    s.emitByte c = { s with
      filtMem := (interpolate s.params.coef s.filtMem (mapByte c s.cfgLodev)).2
      sinkWrites := s.sinkWrites ++
        [⟨s.params.channelTag, (interpolate s.params.coef s.filtMem (mapByte c s.cfgLodev)).1⟩] } ∧
    s.emitSilence = { s with
      filtMem := (interpolate s.params.coef s.filtMem (Vector.replicate 4 0#16)).2
      sinkWrites := s.sinkWrites ++
        [⟨s.params.channelTag, (interpolate s.params.coef s.filtMem (Vector.replicate 4 0#16)).1⟩] }

/-! ## The sequencer -/

/-- R200, R201: inside the invariants a TICK completes in every sequencer state, with any sink inputs, and answers OK. -/
def Obligations.TickAlwaysCompletes : Prop :=
  ∀ s : State, s.Inv →
    ∃ t, exec .tick s = .next t ∧ t.resp = 0#32 ∧ t.responses = s.responses ++ [0#32]

/-- The frame of TICK, R200 "State written": registers and memories it does not list stay, and of POB_MEM only the bytes of a
fill are written. That this takes in the bytes of dequeued slots and drained bytes is the model's choice (U9, log entry 3). -/
def Obligations.TickWritesOnlyWhatItsRuleLists : Prop :=
  ∀ s t : State, exec .tick s = .next t →
    t.params = s.params ∧ t.rbMem = s.rbMem ∧ t.rbHead = s.rbHead ∧ t.cfgLodev = s.cfgLodev ∧
    t.cfgPreambleLen = s.cfgPreambleLen ∧ t.cfgHangDur = s.cfgHangDur ∧ t.cfgDuplex = s.cfgDuplex ∧
    t.hostPort = s.hostPort ∧
    (∀ a, (if s.pobLen = 0#16 ∧ s.seqState ≠ .hang ∧ s.params.frameLen ≤ s.rbCount.toNat then
            (if s.seqState = .idle ∧ s.sinkSample.keyed = false ∧ s.cfgPreambleLen ≠ 0#16 then s.cfgPreambleLen.toNat
             else s.params.frameLen)
          else 0) ≤ a → t.pobMem.read a = s.pobMem.read a)

/-- R51: a TICK uses one sample of the sink inputs, the first; the later ones do not matter to it and stay for the later TICKs. -/
def Obligations.TickSamplesTheSinkOnce : Prop :=
  ∀ (s t : State) (x : SinkSample) (rest rest' : List SinkSample), s.sinkSamples = x :: rest →
    exec .tick s = .next t →
    t.sinkSamples = rest ∧ t.sinkDraws = s.sinkDraws ∧
    exec .tick { s with sinkSamples := x :: rest' } = .next { t with sinkSamples := rest' }

/-- R204: from IDLE with a frame queued and the sink not keyed, the preamble fill and the drain of the same tick; nothing is dequeued. With a
preamble length of 0 the tick takes the frame fill instead. The drain is R200, R208, R210; that dequeued slots of RB_MEM and the bytes of the
POB drained by this tick keep their values is the model's choice (U9, log entry 3). -/
def Obligations.ColdStartFillsThePreamble : Prop :=
  ∀ s : State, s.Inv → s.seqState = .idle → s.params.frameLen ≤ s.rbCount.toNat → s.sinkSample.keyed = false →
    (s.cfgPreambleLen ≠ 0#16 →
      ∃ t, exec .tick s = .next t ∧
        t.seqState = .preamble ∧ t.rbMem = s.rbMem ∧ t.rbHead = s.rbHead ∧ t.rbTail = s.rbTail ∧
        t.rbCount = s.rbCount ∧ t.hangCnt = s.hangCnt ∧
        (∀ j < s.cfgPreambleLen.toNat, t.pobMem.read j = some s.params.syncByte) ∧
        (∀ k, k = min s.cfgPreambleLen.toNat ((s.sinkSample.freeSpace.toNat - 1) / 40) →
          t.sinkWrites = (s.emitBytes (List.replicate k s.params.syncByte)).sinkWrites ∧
          t.filtMem = (s.emitBytes (List.replicate k s.params.syncByte)).filtMem ∧
          (k < s.cfgPreambleLen.toNat → t.pobLen = s.cfgPreambleLen ∧ t.pobPtr.toNat = k) ∧
          (k = s.cfgPreambleLen.toNat → t.pobLen = 0#16 ∧ t.pobPtr = 0#16))) ∧
    (s.cfgPreambleLen = 0#16 →
      ∃ t, exec .tick s = .next t ∧ t.seqState = .data ∧
        t.rbCount.toNat = s.rbCount.toNat - s.params.frameLen ∧
        ∀ j < s.params.frameLen, t.pobMem.read j = s.rbMem.read ((s.rbTail.toNat + j) % s.params.rbCap))

/-- R203, R133: the frame fill takes exactly the oldest FRAME_LEN bytes of the queue into the POB and goes to DATA, and the drain
of the same tick sends them in order (R200, R208, R210). That the slots just dequeued and the bytes just drained keep their values
is the model's choice (U9, log entry 3). -/
def Obligations.FrameFillTakesTheOldestFrame : Prop :=
  ∀ (s : State) (f : List Byte), s.Inv → s.pobLen = 0#16 → s.seqState ≠ .hang →
    s.params.frameLen ≤ s.rbCount.toNat →
    ¬ (s.seqState = .idle ∧ s.sinkSample.keyed = false ∧ s.cfgPreambleLen ≠ 0#16) →
    s.queue.take s.params.frameLen = f.map some →
    ∃ t, exec .tick s = .next t ∧
      t.seqState = .data ∧ t.rbMem = s.rbMem ∧ t.rbHead = s.rbHead ∧
      t.rbTail.toNat = (s.rbTail.toNat + s.params.frameLen) % s.params.rbCap ∧
      t.rbCount.toNat = s.rbCount.toNat - s.params.frameLen ∧
      (∀ j < s.params.frameLen, t.pobMem.read j = f[j]?) ∧
      (∀ k, k = min s.params.frameLen ((s.sinkSample.freeSpace.toNat - 1) / 40) →
        t.sinkWrites = (s.emitBytes (f.take k)).sinkWrites ∧
        t.filtMem = (s.emitBytes (f.take k)).filtMem ∧
        (k < s.params.frameLen → t.pobLen.toNat = s.params.frameLen ∧ t.pobPtr.toNat = k) ∧
        (k = s.params.frameLen → t.pobLen = 0#16 ∧ t.pobPtr = 0#16))

/-- R208, R210: a TICK that finds bytes in the POB sends as many of them, in POB order, as there are and as the space allows; the last one
clears the POB, and SEQ_STATE stays. That drained bytes of POB_MEM and dequeued slots of RB_MEM keep their values is the model's
choice (U9, log entry 3). -/
def Obligations.DrainSendsWhatTheSpaceAllows : Prop :=
  ∀ (s : State) (bs : List Byte), s.Inv → s.pobLen ≠ 0#16 → s.pending = bs.map some →
    ∃ t, exec .tick s = .next t ∧
      t.seqState = s.seqState ∧ t.pobMem = s.pobMem ∧ t.rbMem = s.rbMem ∧ t.rbHead = s.rbHead ∧
      t.rbTail = s.rbTail ∧ t.rbCount = s.rbCount ∧
      (∀ k, k = min bs.length ((s.sinkSample.freeSpace.toNat - 1) / 40) →
        t.sinkWrites = (s.emitBytes (bs.take k)).sinkWrites ∧
        t.filtMem = (s.emitBytes (bs.take k)).filtMem ∧
        (k < bs.length → t.pobLen = s.pobLen ∧ t.pobPtr.toNat = s.pobPtr.toNat + k) ∧
        (k = bs.length → t.pobLen = 0#16 ∧ t.pobPtr = 0#16))

/-- From R209: a TICK that sends a byte in DATA with duplex on leaves HANG_CNT at CFG_HANG_DUR; one that ends in PREAMBLE, or in DATA with duplex off
or without sending, leaves it as it was; one in HANG never makes it larger. The exact count
after a TICK in HANG is `Obligations.HangCountsItsSilenceSteps`, after one that enters HANG `Obligations.EndOfDataGoesToHangOrIdle`. -/
def Obligations.DataBytesReloadTheHangCount : Prop :=
  ∀ s t : State, s.Inv → exec .tick s = .next t →
    (t.seqState = .data → s.cfgDuplex = true → s.sinkWrites.length < t.sinkWrites.length →
      t.hangCnt = s.cfgHangDur) ∧
    (t.seqState = .data → s.cfgDuplex = false ∨ t.sinkWrites = s.sinkWrites → t.hangCnt = s.hangCnt) ∧
    (t.seqState = .preamble → t.hangCnt = s.hangCnt) ∧
    (s.seqState = .hang → t.hangCnt.toNat ≤ s.hangCnt.toNat)

/-- R205: the end-of-data decision, taken with the POB empty in PREAMBLE or DATA and no frame queued; entering HANG the same tick goes on
to hang emission (R211), and with no hang it goes to IDLE with the count cleared and writes nothing. The silence counts
are R211 and R212. That the drained bytes of POB_MEM keep their values is the model's choice (U9, log entry 3). The PREAMBLE form has
no state inside the invariants, as D20 says. -/
def Obligations.EndOfDataGoesToHangOrIdle : Prop :=
  ∀ s : State, s.Inv → s.pobLen = 0#16 → s.seqState = .preamble ∨ s.seqState = .data →
    s.rbCount.toNat < s.params.frameLen →
    ∃ t, exec .tick s = .next t ∧ t.rbTail = s.rbTail ∧ t.rbCount = s.rbCount ∧ t.pobMem = s.pobMem ∧
      (s.cfgDuplex = true ∧ s.hangCnt ≠ 0#32 →
        ∀ k, k = min s.hangCnt.toNat ((s.sinkSample.freeSpace.toNat - 1) / 40) →
          t.sinkWrites = (s.emitSilences k).sinkWrites ∧ t.filtMem = (s.emitSilences k).filtMem ∧
          t.hangCnt.toNat = s.hangCnt.toNat - k ∧
          t.seqState = (if k = s.hangCnt.toNat then .idle else .hang)) ∧
      (¬ (s.cfgDuplex = true ∧ s.hangCnt ≠ 0#32) →
        t.seqState = .idle ∧ t.hangCnt = 0#32 ∧ t.sinkWrites = s.sinkWrites ∧ t.filtMem = s.filtMem)

/-- R211, R212: a TICK in HANG emits as many silence steps as the space and the count allow, counts each, and goes to IDLE when the count
reaches 0; the count plus the steps emitted is the count before. That the
decrement never wraps is the sentence R212 marks as the spec's own derivation from R34(a). -/
def Obligations.HangCountsItsSilenceSteps : Prop :=
  ∀ s : State, s.Inv → s.seqState = .hang →
    ∃ t, exec .tick s = .next t ∧
      ∀ k, k = min s.hangCnt.toNat ((s.sinkSample.freeSpace.toNat - 1) / 40) →
        t.sinkWrites = (s.emitSilences k).sinkWrites ∧ t.filtMem = (s.emitSilences k).filtMem ∧
        t.sinkWrites.length = s.sinkWrites.length + k ∧ t.hangCnt.toNat + k = s.hangCnt.toNat ∧
        t.seqState = (if t.hangCnt = 0#32 then .idle else .hang)

/-- R218: from DATA with the bytes `bs` left in the POB and no frame queued, a TICK `x` with room for all of them and then any TICKs `xs` (one
at least), with no command between them. With duplex on the sink gets the bytes and then as many silence steps as the TICKs' space allows, up to
exactly CFG_HANG_DUR; the sequencer is in IDLE once they are out (at once, with none, where CFG_HANG_DUR = 0) and in HANG before. With duplex off
there is no hang. -/
def Obligations.HangLastsExactlyItsDuration : Prop :=
  ∀ (s : State) (bs : List Byte) (x : SinkSample) (xs : List SinkSample), s.Inv → s.seqState = .data →
    s.pobLen ≠ 0#16 → s.pending = bs.map some → s.rbCount.toNat < s.params.frameLen →
    bs.length ≤ maxBlocks x.freeSpace.toNat → xs ≠ [] →
    ∃ t, afterTicks (x :: xs) s = some t ∧ t.rbCount = s.rbCount ∧
      (s.cfgDuplex = true → ∀ k, k = min s.cfgHangDur.toNat (totalBlocks xs) →
        t.sinkWrites = ((s.emitBytes bs).emitSilences k).sinkWrites ∧
        t.filtMem = ((s.emitBytes bs).emitSilences k).filtMem ∧
        t.seqState = (if k = s.cfgHangDur.toNat then .idle else .hang)) ∧
      (s.cfgDuplex = false →
        t.sinkWrites = (s.emitBytes bs).sinkWrites ∧ t.filtMem = (s.emitBytes bs).filtMem ∧ t.seqState = .idle)

/-- From R206: in HANG a TICK fills nothing and takes nothing from the queue (that it does not look at it either is
`Obligations.HangIgnoresQueueAndConfiguration`); in IDLE with no frame queued it does nothing but respond OK (and use up its sink
sample). That dequeued slots and drained bytes keep their values is the model's choice (U9, log entry 3). -/
def Obligations.NoFillInHangOrEmptyIdle : Prop :=
  ∀ s : State,
    (s.Inv → s.seqState = .hang → ∃ t, exec .tick s = .next t ∧
      t.rbTail = s.rbTail ∧ t.rbCount = s.rbCount ∧ t.rbHead = s.rbHead ∧ t.rbMem = s.rbMem ∧
      t.pobMem = s.pobMem ∧ t.pobLen = s.pobLen ∧ t.pobPtr = s.pobPtr) ∧
    (s.seqState = .idle → s.pobLen = 0#16 → s.rbCount.toNat < s.params.frameLen →
      exec .tick s = .next { s with
        sinkSamples := s.afterSinkSample.sinkSamples, sinkDraws := s.afterSinkSample.sinkDraws
        resp := 0#32, responses := s.responses ++ [0#32] })

/-- R217, R221: a hang in progress runs whatever the queue and the configuration become: with any of them changed, a TICK in HANG does the
same to everything else. -/
def Obligations.HangIgnoresQueueAndConfiguration : Prop :=
  ∀ (s t : State) (q : Memory) (h c n : BitVec 16) (l d : Bool) (dur : BitVec 32),
    s.seqState = .hang → s.pobLen = 0#16 → exec .tick s = .next t →
    exec .tick { s with
        rbMem := q, rbHead := h, rbCount := c
        cfgLodev := l, cfgPreambleLen := n, cfgHangDur := dur, cfgDuplex := d } =
      .next { t with
        rbMem := q, rbHead := h, rbCount := c
        cfgLodev := l, cfgPreambleLen := n, cfgHangDur := dur, cfgDuplex := d }

/-- R207: one emission path per tick: what a TICK writes to the sink is a run of POB bytes or a run of silence steps, never both; bytes go
out only with the tick in PREAMBLE or DATA, silence only in HANG. -/
def Obligations.OneEmissionPathPerTick : Prop :=
  ∀ s t : State, s.Inv → exec .tick s = .next t →
    (∃ bs : List Byte, t.sinkWrites = (s.emitBytes bs).sinkWrites ∧ t.filtMem = (s.emitBytes bs).filtMem ∧
      (bs ≠ [] → t.seqState = .preamble ∨ t.seqState = .data)) ∨
    (∃ n : Nat, t.sinkWrites = (s.emitSilences n).sinkWrites ∧ t.filtMem = (s.emitSilences n).filtMem ∧
      (t.seqState = .hang ∨ t.seqState = .idle))

/-- R214: 40 times the blocks a TICK writes stays below the free space the sink showed, and a tick that was shown 40 or less writes
nothing. -/
def Obligations.TickStaysBelowTheFreeSpace : Prop :=
  ∀ s t : State, s.Inv → exec .tick s = .next t →
    s.sinkWrites <+: t.sinkWrites ∧
    t.sinkWrites.length - s.sinkWrites.length ≤ (s.sinkSample.freeSpace.toNat - 1) / 40 ∧
    (s.sinkSample.freeSpace.toNat ≠ 0 →
      40 * (t.sinkWrites.length - s.sinkWrites.length) < s.sinkSample.freeSpace.toNat) ∧
    (s.sinkSample.freeSpace.toNat ≤ 40 → t.sinkWrites = s.sinkWrites) ∧
    t.sinkWrites.length - s.sinkWrites.length ≤ 1638

/-- R216: the transition table of the sequencer, one clause a row ("queued" is RB_COUNT ≥ FRAME_LEN). -/
def Obligations.SequencerFollowsTheTransitionTable : Prop :=
  ∀ s t : State, s.Inv → exec .tick s = .next t →
    (s.seqState = .idle → s.rbCount.toNat < s.params.frameLen → t.seqState = .idle) ∧
    (s.seqState = .idle → s.params.frameLen ≤ s.rbCount.toNat →
      (s.sinkSample.keyed = false ∧ s.cfgPreambleLen ≠ 0#16) → t.seqState = .preamble) ∧
    (s.seqState = .idle → s.params.frameLen ≤ s.rbCount.toNat →
      (s.sinkSample.keyed = true ∨ s.cfgPreambleLen = 0#16) → t.seqState = .data) ∧
    (s.pobLen ≠ 0#16 → t.seqState = s.seqState) ∧
    ((s.seqState = .preamble ∨ s.seqState = .data) → s.pobLen = 0#16 → s.params.frameLen ≤ s.rbCount.toNat →
      t.seqState = .data) ∧
    ((s.seqState = .preamble ∨ s.seqState = .data) → s.pobLen = 0#16 → s.rbCount.toNat < s.params.frameLen →
      s.cfgDuplex = true → s.hangCnt ≠ 0#32 → t.seqState = (if t.hangCnt = 0#32 then .idle else .hang)) ∧
    ((s.seqState = .preamble ∨ s.seqState = .data) → s.pobLen = 0#16 → s.rbCount.toNat < s.params.frameLen →
      (s.cfgDuplex = false ∨ s.hangCnt = 0#32) → t.seqState = .idle ∧ t.hangCnt = 0#32) ∧
    (s.seqState = .hang → t.hangCnt ≠ 0#32 → t.seqState = .hang) ∧
    (s.seqState = .hang → t.hangCnt = 0#32 → t.seqState = .idle)

/-- R215: PREAMBLE is entered only from IDLE, and when a preamble is drained the next fill is a frame fill. -/
def Obligations.PreambleOncePerTransmission : Prop :=
  ∀ s t : State, s.Inv → exec .tick s = .next t →
    (t.seqState = .preamble → s.seqState = .preamble ∨ s.seqState = .idle) ∧
    (s.seqState = .preamble → s.pobLen = 0#16 → t.seqState = .data)

/-- R201: TICK is the only command that changes SEQ_STATE, reads the sink inputs or writes to the sink; no other command touches
HANG_CNT, the POB, RB_TAIL or FILT_MEM either (R33, R40, R181). -/
def Obligations.OnlyTickMovesTheTransmitter : Prop :=
  ∀ (s t : State) (i : Instr), i ≠ .tick → exec i s = .next t →
    t.seqState = s.seqState ∧ t.hangCnt = s.hangCnt ∧ t.sinkWrites = s.sinkWrites ∧
    t.sinkSamples = s.sinkSamples ∧ t.sinkDraws = s.sinkDraws ∧ t.pobMem = s.pobMem ∧ t.pobLen = s.pobLen ∧
    t.pobPtr = s.pobPtr ∧ t.rbTail = s.rbTail ∧ t.filtMem = s.filtMem

/-! ## The whole machine -/

/-- R34, R36, R41 and the other invariants of `State.Inv`: every step keeps them. -/
def Obligations.StepKeepsTheInvariants : Prop :=
  ∀ s t : State, s.Inv → step s = .next t → t.Inv

/-- The invariants hold after reset. -/
def Obligations.ResetMeetsTheInvariants : Prop := State.reset.Inv

/-- R70, R75: inside the invariants no step faults: no index leaves its array, and no byte is read that has not been written. -/
def Obligations.NoStepFaultsInsideTheInvariants : Prop :=
  ∀ s : State, s.Inv → ∀ f, step s ≠ .fault f

/-- R176: every entry of FILT_MEM stays in [-1893, 1893], the bound R176 gives its inputs, whatever a step does. -/
def Obligations.StepKeepsTheFilterBounded : Prop :=
  ∀ s t : State, s.FiltBounded → step s = .next t → t.FiltBounded

/-- The delay line is bounded after reset. -/
def Obligations.ResetFilterIsBounded : Prop := State.reset.FiltBounded

/-- R50, R176: every block a step hands to the sink carries CHANNEL_TAG, and every sample of it lies in [-17037, 17037]. -/
def Obligations.EverySampleSentIsInRange : Prop :=
  ∀ s t : State, s.FiltBounded → step s = .next t → ∀ b ∈ newBlocks s t,
    b.tag = s.params.channelTag ∧ ∀ j : Fin 40, -17037 ≤ b.samples[j].toInt ∧ b.samples[j].toInt ≤ 17037

/-- R43: no step changes the coefficient table or another parameter. -/
def Obligations.ParametersNeverChange : Prop :=
  ∀ s t : State, step s = .next t → t.params = s.params

/-- R80: the sink writes and the responses are sequences: a step only appends to them, and takes at most one event of the port, in the order the
host issued them. (That `RST` keeps the responses already delivered is the model's inference, log entry 5.) -/
def Obligations.StepAppendsToTheObservedSequences : Prop :=
  ∀ s t : State, step s = .next t →
    s.sinkWrites <+: t.sinkWrites ∧ s.responses <+: t.responses ∧ t.hostPort = s.hostPort.tail
end

