-- ==== Sys2Proof/Laws/Assembly.lean ====
section
/-! SUPPORT. What delivering assembly lines does, said once (R52, R80; log entry 4). -/

namespace Sys2Proof.Machine

/-- A line that fixes sink inputs fixes one pair, and is a TICK. -/
theorem AsmLine.inputs_cases (l : AsmLine) : l.inputs = [] ∨ ∃ x, l = .tickAt x ∧ l.inputs = [x] := by
  cases l with
  | instr i => exact .inl rfl
  | tickAt x => exact .inr ⟨x, rfl, rfl⟩
  | word w payload => exact .inl rfl

/-- One line adds its event and, if it is a TICK, one pair of sink inputs; it touches no register. -/
theorem deliverLine_eq (s : State) (l : AsmLine) :
    ∃ xs : List SinkSample, xs.length = (if l.isTick then 1 else 0) ∧
      s.deliverLine l = { s with
        hostPort := s.hostPort ++ [l.event], sinkSamples := s.sinkSamples ++ xs
        sinkDraws := (s.deliverLine l).sinkDraws } := by
  by_cases ht : l.isTick = true <;>
    rcases AsmLine.inputs_cases l with hi | ⟨x, rfl, hi⟩ <;>
    simp_all [State.deliverLine, AsmLine.isTick]

/-- The lines of a program stand at the port in order, one event a line, and each of its TICKs has a pair of sink inputs of
its own. -/
theorem deliver_eq (s : State) (lines : List AsmLine) :
    ∃ xs : List SinkSample, xs.length = lines.countP AsmLine.isTick ∧
      s.deliver lines = { s with
        hostPort := s.hostPort ++ lines.map AsmLine.event, sinkSamples := s.sinkSamples ++ xs
        sinkDraws := (s.deliver lines).sinkDraws } := by
  unfold State.deliver
  induction lines generalizing s with
  | nil => exact ⟨[], rfl, by simp⟩
  | cons l ls ih =>
    obtain ⟨xs, hx, h⟩ := deliverLine_eq s l
    obtain ⟨ys, hy, h'⟩ := ih (s.deliverLine l)
    refine ⟨xs ++ ys, ?_, ?_⟩
    · rw [List.length_append, hx, hy, List.countP_cons]; omega
    · rw [List.foldl_cons, h', h]; simp

end Sys2Proof.Machine
end

