-- ==== Sys2Proof/Laws/Config.lean ====
section
/-! SUPPORT. The parameters of `State.reset` are some legal set, and any legal set could be meant. -/

namespace Sys2Proof

theorem Params.intoRange_legal (r : Params) : r.intoRange.Legal := by
  have hcap : r.rbCap % (65536 - (r.frameLen % 65535 + 1)) < 65536 - (r.frameLen % 65535 + 1) :=
    Nat.mod_lt _ (by omega)
  simp only [Params.Legal, Params.intoRange]
  omega

theorem Params.intoRange_of_legal {p : Params} (h : p.Legal) :
    ∃ r : Params, r.intoRange = p := by
  obtain ⟨h1, h2, h3, h4, h5, h6⟩ := h
  refine ⟨{ p with frameLen := p.frameLen - 1, rbCap := p.rbCap - p.frameLen }, ?_⟩
  have e1 : (p.frameLen - 1) % 65535 + 1 = p.frameLen := by omega
  have e2 : (p.rbCap - p.frameLen) % (65536 - p.frameLen) + p.frameLen = p.rbCap := by
    rw [Nat.mod_eq_of_lt (by omega)]; omega
  have e3 : p.preambleOffset % 65536 = p.preambleOffset := by omega
  have e4 : p.preambleScale % 65536 = p.preambleScale := by omega
  have e5 : p.hangScale % (2 ^ 24 + 1) = p.hangScale := by omega
  cases p
  simp_all [Params.intoRange]

theorem Config.params_legal : Config.params.Legal := Params.intoRange_legal _

end Sys2Proof
end

