-- ==== Sys2Proof/Laws/Decode.lean ====
section
/-! SUPPORT. Fields of a command word as numbers, and what the decoder answers (R103, R115). -/

namespace Sys2Proof

theorem toNat_extract (w : Word) (lo len : Nat) :
    (w.extractLsb' lo len).toNat = w.toNat / 2 ^ lo % 2 ^ len := by
  rw [BitVec.extractLsb'_toNat, Nat.shiftRight_eq_div_pow]

theorem opcField_eq (w : Word) (v : BitVec 4) : opcField w = v ↔ w.toNat / 2 ^ 28 % 2 ^ 4 = v.toNat := by
  rw [opcField, ← BitVec.toNat_inj, toNat_extract]

theorem extract_zero (w : Word) (lo len : Nat) : w.extractLsb' lo len = 0 ↔ w.toNat / 2 ^ lo % 2 ^ len = 0 := by
  rw [← BitVec.toNat_inj, toNat_extract]; simp

/-- A row's mask keeps the bits from `k` up (every mask of the table has this form). -/
theorem and_mask (w : Word) (k : Nat) :
    (w &&& (BitVec.allOnes 32 <<< k)).toNat = w.toNat / 2 ^ k * 2 ^ k := by
  have : w &&& (BitVec.allOnes 32 <<< k) = (w >>> k) <<< k := by
    ext i hi
    simp only [BitVec.getElem_and, BitVec.getElem_shiftLeft, BitVec.getElem_allOnes]
    by_cases h : i < k
    · simp [h]
    · have e : k + (i - k) = i := by omega
      simp [h, e, BitVec.getElem_eq_testBit_toNat]
  rw [this, BitVec.toNat_shiftLeft, BitVec.toNat_ushiftRight, Nat.shiftRight_eq_div_pow, Nat.shiftLeft_eq]
  refine Nat.mod_eq_of_lt (lt_of_le_of_lt (Nat.div_mul_le_self _ _) w.isLt)

/-- Decoding with the payload of the declared length: the procedure of R115 alone. -/
theorem decode_of_length {w : Word} {p : List Byte} (h : p.length = payloadLen w) :
    decode w p =
      if opcField w = 0x1#4 ∧ w.extractLsb' 16 12 = 0 then .ok (.submitFrame (lenField w) p)
      else if opcField w = 0x2#4 ∧ w.extractLsb' 0 28 = 0 then .ok .tick
      else if opcField w = 0x3#4 ∧ w.extractLsb' 8 20 = 0 then .ok (.setPreambleDelay (imm8Field w))
      else if opcField w = 0x4#4 ∧ w.extractLsb' 9 19 = 0 then .ok (.setDevHang (w.getLsbD 8) (imm8Field w))
      else if opcField w = 0x5#4 ∧ w.extractLsb' 0 28 = 0 then .ok .getQueueCap
      else if opcField w = 0x6#4 ∧ w.extractLsb' 1 27 = 0 then .ok (.setDuplex (w.getLsbD 0))
      else .error (illegalReason w) := by
  simp [decode, h]

/-- A command that decodes came with the payload its word declares (R101). -/
theorem decode_ok_length {w : Word} {p : List Byte} {i : Instr} (h : decode w p = .ok i) :
    p.length = payloadLen w := by
  by_contra hn
  simp [decode, hn] at h

/-- The decoder's answers, one row at a time (R115). -/
theorem decode_ok_cases {w : Word} {p : List Byte} {i : Instr} (h : decode w p = .ok i) :
    (opcField w = 0x1#4 ∧ w.extractLsb' 16 12 = 0 ∧ i = .submitFrame (lenField w) p) ∨
    (opcField w = 0x2#4 ∧ w.extractLsb' 0 28 = 0 ∧ i = .tick) ∨
    (opcField w = 0x3#4 ∧ w.extractLsb' 8 20 = 0 ∧ i = .setPreambleDelay (imm8Field w)) ∨
    (opcField w = 0x4#4 ∧ w.extractLsb' 9 19 = 0 ∧ i = .setDevHang (w.getLsbD 8) (imm8Field w)) ∨
    (opcField w = 0x5#4 ∧ w.extractLsb' 0 28 = 0 ∧ i = .getQueueCap) ∨
    (opcField w = 0x6#4 ∧ w.extractLsb' 1 27 = 0 ∧ i = .setDuplex (w.getLsbD 0)) := by
  rw [decode_of_length (decode_ok_length h)] at h
  split at h
  · rename_i c; cases h; exact .inl ⟨c.1, c.2, rfl⟩
  · split at h
    · rename_i c; cases h; exact .inr (.inl ⟨c.1, c.2, rfl⟩)
    · split at h
      · rename_i c; cases h; exact .inr (.inr (.inl ⟨c.1, c.2, rfl⟩))
      · split at h
        · rename_i c; cases h; exact .inr (.inr (.inr (.inl ⟨c.1, c.2, rfl⟩)))
        · split at h
          · rename_i c; cases h; exact .inr (.inr (.inr (.inr (.inl ⟨c.1, c.2, rfl⟩))))
          · split at h
            · rename_i c; cases h; exact .inr (.inr (.inr (.inr (.inr ⟨c.1, c.2, rfl⟩))))
            · cases h

/-! ## The fields of an encoded word -/

/-- Concatenation as a number, the left part in the high bits (R11). -/
theorem toNat_concat {n m : Nat} (x : BitVec n) (y : BitVec m) : (x ++ y).toNat = x.toNat * 2 ^ m + y.toNat := by
  rw [BitVec.toNat_append, ← Nat.shiftLeft_add_eq_or_of_lt y.isLt, Nat.shiftLeft_eq]

theorem toNat_encode_submitFrame (len : BitVec 16) (p : List Byte) :
    (encodeWord (.submitFrame len p)).toNat = 0x10000000 + len.toNat := by
  exact toNat_concat (0x1#4 ++ 0#12) len

theorem toNat_encode_tick : (encodeWord .tick).toNat = 0x20000000 := rfl

theorem toNat_encode_setPreambleDelay (d : BitVec 8) :
    (encodeWord (.setPreambleDelay d)).toNat = 0x30000000 + d.toNat := by
  exact toNat_concat (0x3#4 ++ 0#20) d

theorem toNat_encode_setDevHang (l : Bool) (h : BitVec 8) :
    (encodeWord (.setDevHang l h)).toNat = 0x40000000 + l.toNat * 256 + h.toNat := by
  refine (toNat_concat (0x4#4 ++ 0#19 ++ BitVec.ofBool l) h).trans ?_
  cases l <;> rfl

theorem toNat_encode_getQueueCap : (encodeWord .getQueueCap).toNat = 0x50000000 := rfl

theorem toNat_encode_setDuplex (d : Bool) : (encodeWord (.setDuplex d)).toNat = 0x60000000 + d.toNat := by
  cases d <;> rfl

/-- A bit of a word as a number. -/
theorem getLsbD_eq_div (w : Word) (i : Nat) : w.getLsbD i = decide (w.toNat / 2 ^ i % 2 = 1) := by
  rw [← BitVec.testBit_toNat, Nat.testBit_eq_decide_div_mod_eq]

/-- The declared payload length as numbers (R101, R113). -/
theorem payloadLen_eq (w : Word) : payloadLen w = if w.toNat / 2 ^ 28 = 1 then w.toNat % 2 ^ 16 else 0 := by
  have := w.isLt
  have hop : opcField w = 1#4 ↔ w.toNat / 2 ^ 28 = 1 := by
    rw [opcField_eq]; show _ = 1 ↔ _; omega
  have hlen : (lenField w).toNat = w.toNat % 2 ^ 16 := by rw [lenField, toNat_extract]; omega
  unfold payloadLen
  by_cases hc : w.toNat / 2 ^ 28 = 1
  · rw [if_pos hc, if_pos (hop.2 hc), hlen]
  · rw [if_neg hc, if_neg (fun h => hc (hop.1 h))]

/-- A row of the opcode table whose mask keeps the bits from `k` up, as a condition on the word's number. -/
theorem row_iff (w : Word) (k : Nat) (m : Word) :
    w &&& (BitVec.allOnes 32 <<< k) = m ↔ w.toNat / 2 ^ k * 2 ^ k = m.toNat := by
  rw [← BitVec.toNat_inj, and_mask]

/-- Each row of the opcode table is the decoder's condition for its command (R115). -/
theorem rows_iff (w : Word) :
    (w &&& 0xFFFF0000#32 = 0x10000000#32 ↔ opcField w = 0x1#4 ∧ w.extractLsb' 16 12 = 0) ∧
    (w &&& 0xFFFFFFFF#32 = 0x20000000#32 ↔ opcField w = 0x2#4 ∧ w.extractLsb' 0 28 = 0) ∧
    (w &&& 0xFFFFFF00#32 = 0x30000000#32 ↔ opcField w = 0x3#4 ∧ w.extractLsb' 8 20 = 0) ∧
    (w &&& 0xFFFFFE00#32 = 0x40000000#32 ↔ opcField w = 0x4#4 ∧ w.extractLsb' 9 19 = 0) ∧
    (w &&& 0xFFFFFFFF#32 = 0x50000000#32 ↔ opcField w = 0x5#4 ∧ w.extractLsb' 0 28 = 0) ∧
    (w &&& 0xFFFFFFFE#32 = 0x60000000#32 ↔ opcField w = 0x6#4 ∧ w.extractLsb' 1 27 = 0) := by
  have := w.isLt
  refine ⟨(row_iff w 16 _).trans ?_, (row_iff w 0 _).trans ?_, (row_iff w 8 _).trans ?_, (row_iff w 9 _).trans ?_,
    (row_iff w 0 _).trans ?_, (row_iff w 1 _).trans ?_⟩ <;>
  rw [opcField_eq, extract_zero] <;> simp only [BitVec.toNat_ofNat] <;> omega

/-- The response word as a number (R110). -/
theorem respWord_toNat (status : Machine.Status) (data : BitVec 16) :
    (Machine.respWord status data).toNat = data.toNat * 2 ^ 16 + status.code.toNat := by
  rw [Machine.respWord, toNat_concat, toNat_concat]; simp; omega

end Sys2Proof
end

