-- ==== Sys2Proof/Laws/State.lean ====
section
/-! SUPPORT. One lemma per field for each named update of the state, so that no later proof unfolds the update. -/

namespace Sys2Proof.Machine

/-! ## `State.respond` (R110) -/

@[simp] theorem State.respond_params (s : State) (status : Status) (data : BitVec 16) : (s.respond status data).params = s.params := rfl
@[simp] theorem State.respond_seqState (s : State) (status : Status) (data : BitVec 16) : (s.respond status data).seqState = s.seqState := rfl
@[simp] theorem State.respond_hangCnt (s : State) (status : Status) (data : BitVec 16) : (s.respond status data).hangCnt = s.hangCnt := rfl
@[simp] theorem State.respond_rbMem (s : State) (status : Status) (data : BitVec 16) : (s.respond status data).rbMem = s.rbMem := rfl
@[simp] theorem State.respond_rbHead (s : State) (status : Status) (data : BitVec 16) : (s.respond status data).rbHead = s.rbHead := rfl
@[simp] theorem State.respond_rbTail (s : State) (status : Status) (data : BitVec 16) : (s.respond status data).rbTail = s.rbTail := rfl
@[simp] theorem State.respond_rbCount (s : State) (status : Status) (data : BitVec 16) : (s.respond status data).rbCount = s.rbCount := rfl
@[simp] theorem State.respond_pobMem (s : State) (status : Status) (data : BitVec 16) : (s.respond status data).pobMem = s.pobMem := rfl
@[simp] theorem State.respond_pobLen (s : State) (status : Status) (data : BitVec 16) : (s.respond status data).pobLen = s.pobLen := rfl
@[simp] theorem State.respond_pobPtr (s : State) (status : Status) (data : BitVec 16) : (s.respond status data).pobPtr = s.pobPtr := rfl
@[simp] theorem State.respond_filtMem (s : State) (status : Status) (data : BitVec 16) : (s.respond status data).filtMem = s.filtMem := rfl
@[simp] theorem State.respond_cfgLodev (s : State) (status : Status) (data : BitVec 16) : (s.respond status data).cfgLodev = s.cfgLodev := rfl
@[simp] theorem State.respond_cfgPreambleLen (s : State) (status : Status) (data : BitVec 16) : (s.respond status data).cfgPreambleLen = s.cfgPreambleLen := rfl
@[simp] theorem State.respond_cfgHangDur (s : State) (status : Status) (data : BitVec 16) : (s.respond status data).cfgHangDur = s.cfgHangDur := rfl
@[simp] theorem State.respond_cfgDuplex (s : State) (status : Status) (data : BitVec 16) : (s.respond status data).cfgDuplex = s.cfgDuplex := rfl
@[simp] theorem State.respond_resp (s : State) (status : Status) (data : BitVec 16) : (s.respond status data).resp = respWord status data := rfl
@[simp] theorem State.respond_sinkWrites (s : State) (status : Status) (data : BitVec 16) : (s.respond status data).sinkWrites = s.sinkWrites := rfl
@[simp] theorem State.respond_responses (s : State) (status : Status) (data : BitVec 16) : (s.respond status data).responses = s.responses ++ [respWord status data] := rfl
@[simp] theorem State.respond_hostPort (s : State) (status : Status) (data : BitVec 16) : (s.respond status data).hostPort = s.hostPort := rfl
@[simp] theorem State.respond_sinkSamples (s : State) (status : Status) (data : BitVec 16) : (s.respond status data).sinkSamples = s.sinkSamples := rfl
@[simp] theorem State.respond_sinkDraws (s : State) (status : Status) (data : BitVec 16) : (s.respond status data).sinkDraws = s.sinkDraws := rfl

/-! ## `State.sinkWrite` (R50) -/

@[simp] theorem State.sinkWrite_params (s : State) (block : Vector Sample 40) : (s.sinkWrite block).params = s.params := rfl
@[simp] theorem State.sinkWrite_seqState (s : State) (block : Vector Sample 40) : (s.sinkWrite block).seqState = s.seqState := rfl
@[simp] theorem State.sinkWrite_hangCnt (s : State) (block : Vector Sample 40) : (s.sinkWrite block).hangCnt = s.hangCnt := rfl
@[simp] theorem State.sinkWrite_rbMem (s : State) (block : Vector Sample 40) : (s.sinkWrite block).rbMem = s.rbMem := rfl
@[simp] theorem State.sinkWrite_rbHead (s : State) (block : Vector Sample 40) : (s.sinkWrite block).rbHead = s.rbHead := rfl
@[simp] theorem State.sinkWrite_rbTail (s : State) (block : Vector Sample 40) : (s.sinkWrite block).rbTail = s.rbTail := rfl
@[simp] theorem State.sinkWrite_rbCount (s : State) (block : Vector Sample 40) : (s.sinkWrite block).rbCount = s.rbCount := rfl
@[simp] theorem State.sinkWrite_pobMem (s : State) (block : Vector Sample 40) : (s.sinkWrite block).pobMem = s.pobMem := rfl
@[simp] theorem State.sinkWrite_pobLen (s : State) (block : Vector Sample 40) : (s.sinkWrite block).pobLen = s.pobLen := rfl
@[simp] theorem State.sinkWrite_pobPtr (s : State) (block : Vector Sample 40) : (s.sinkWrite block).pobPtr = s.pobPtr := rfl
@[simp] theorem State.sinkWrite_filtMem (s : State) (block : Vector Sample 40) : (s.sinkWrite block).filtMem = s.filtMem := rfl
@[simp] theorem State.sinkWrite_cfgLodev (s : State) (block : Vector Sample 40) : (s.sinkWrite block).cfgLodev = s.cfgLodev := rfl
@[simp] theorem State.sinkWrite_cfgPreambleLen (s : State) (block : Vector Sample 40) : (s.sinkWrite block).cfgPreambleLen = s.cfgPreambleLen := rfl
@[simp] theorem State.sinkWrite_cfgHangDur (s : State) (block : Vector Sample 40) : (s.sinkWrite block).cfgHangDur = s.cfgHangDur := rfl
@[simp] theorem State.sinkWrite_cfgDuplex (s : State) (block : Vector Sample 40) : (s.sinkWrite block).cfgDuplex = s.cfgDuplex := rfl
@[simp] theorem State.sinkWrite_resp (s : State) (block : Vector Sample 40) : (s.sinkWrite block).resp = s.resp := rfl
@[simp] theorem State.sinkWrite_sinkWrites (s : State) (block : Vector Sample 40) : (s.sinkWrite block).sinkWrites = s.sinkWrites ++ [⟨s.params.channelTag, block⟩] := rfl
@[simp] theorem State.sinkWrite_responses (s : State) (block : Vector Sample 40) : (s.sinkWrite block).responses = s.responses := rfl
@[simp] theorem State.sinkWrite_hostPort (s : State) (block : Vector Sample 40) : (s.sinkWrite block).hostPort = s.hostPort := rfl
@[simp] theorem State.sinkWrite_sinkSamples (s : State) (block : Vector Sample 40) : (s.sinkWrite block).sinkSamples = s.sinkSamples := rfl
@[simp] theorem State.sinkWrite_sinkDraws (s : State) (block : Vector Sample 40) : (s.sinkWrite block).sinkDraws = s.sinkDraws := rfl

/-! ## `State.takeEvent` (R52) -/

@[simp] theorem State.takeEvent_params (s : State) : (s.takeEvent).params = s.params := rfl
@[simp] theorem State.takeEvent_seqState (s : State) : (s.takeEvent).seqState = s.seqState := rfl
@[simp] theorem State.takeEvent_hangCnt (s : State) : (s.takeEvent).hangCnt = s.hangCnt := rfl
@[simp] theorem State.takeEvent_rbMem (s : State) : (s.takeEvent).rbMem = s.rbMem := rfl
@[simp] theorem State.takeEvent_rbHead (s : State) : (s.takeEvent).rbHead = s.rbHead := rfl
@[simp] theorem State.takeEvent_rbTail (s : State) : (s.takeEvent).rbTail = s.rbTail := rfl
@[simp] theorem State.takeEvent_rbCount (s : State) : (s.takeEvent).rbCount = s.rbCount := rfl
@[simp] theorem State.takeEvent_pobMem (s : State) : (s.takeEvent).pobMem = s.pobMem := rfl
@[simp] theorem State.takeEvent_pobLen (s : State) : (s.takeEvent).pobLen = s.pobLen := rfl
@[simp] theorem State.takeEvent_pobPtr (s : State) : (s.takeEvent).pobPtr = s.pobPtr := rfl
@[simp] theorem State.takeEvent_filtMem (s : State) : (s.takeEvent).filtMem = s.filtMem := rfl
@[simp] theorem State.takeEvent_cfgLodev (s : State) : (s.takeEvent).cfgLodev = s.cfgLodev := rfl
@[simp] theorem State.takeEvent_cfgPreambleLen (s : State) : (s.takeEvent).cfgPreambleLen = s.cfgPreambleLen := rfl
@[simp] theorem State.takeEvent_cfgHangDur (s : State) : (s.takeEvent).cfgHangDur = s.cfgHangDur := rfl
@[simp] theorem State.takeEvent_cfgDuplex (s : State) : (s.takeEvent).cfgDuplex = s.cfgDuplex := rfl
@[simp] theorem State.takeEvent_resp (s : State) : (s.takeEvent).resp = s.resp := rfl
@[simp] theorem State.takeEvent_sinkWrites (s : State) : (s.takeEvent).sinkWrites = s.sinkWrites := rfl
@[simp] theorem State.takeEvent_responses (s : State) : (s.takeEvent).responses = s.responses := rfl
@[simp] theorem State.takeEvent_hostPort (s : State) : (s.takeEvent).hostPort = s.hostPort.tail := rfl
@[simp] theorem State.takeEvent_sinkSamples (s : State) : (s.takeEvent).sinkSamples = s.sinkSamples := rfl
@[simp] theorem State.takeEvent_sinkDraws (s : State) : (s.takeEvent).sinkDraws = s.sinkDraws := rfl

/-! ## `State.afterSinkSample` (R51) -/

@[simp] theorem State.afterSinkSample_params (s : State) : (s.afterSinkSample).params = s.params := by
  unfold State.afterSinkSample; split <;> simp_all
@[simp] theorem State.afterSinkSample_seqState (s : State) : (s.afterSinkSample).seqState = s.seqState := by
  unfold State.afterSinkSample; split <;> simp_all
@[simp] theorem State.afterSinkSample_hangCnt (s : State) : (s.afterSinkSample).hangCnt = s.hangCnt := by
  unfold State.afterSinkSample; split <;> simp_all
@[simp] theorem State.afterSinkSample_rbMem (s : State) : (s.afterSinkSample).rbMem = s.rbMem := by
  unfold State.afterSinkSample; split <;> simp_all
@[simp] theorem State.afterSinkSample_rbHead (s : State) : (s.afterSinkSample).rbHead = s.rbHead := by
  unfold State.afterSinkSample; split <;> simp_all
@[simp] theorem State.afterSinkSample_rbTail (s : State) : (s.afterSinkSample).rbTail = s.rbTail := by
  unfold State.afterSinkSample; split <;> simp_all
@[simp] theorem State.afterSinkSample_rbCount (s : State) : (s.afterSinkSample).rbCount = s.rbCount := by
  unfold State.afterSinkSample; split <;> simp_all
@[simp] theorem State.afterSinkSample_pobMem (s : State) : (s.afterSinkSample).pobMem = s.pobMem := by
  unfold State.afterSinkSample; split <;> simp_all
@[simp] theorem State.afterSinkSample_pobLen (s : State) : (s.afterSinkSample).pobLen = s.pobLen := by
  unfold State.afterSinkSample; split <;> simp_all
@[simp] theorem State.afterSinkSample_pobPtr (s : State) : (s.afterSinkSample).pobPtr = s.pobPtr := by
  unfold State.afterSinkSample; split <;> simp_all
@[simp] theorem State.afterSinkSample_filtMem (s : State) : (s.afterSinkSample).filtMem = s.filtMem := by
  unfold State.afterSinkSample; split <;> simp_all
@[simp] theorem State.afterSinkSample_cfgLodev (s : State) : (s.afterSinkSample).cfgLodev = s.cfgLodev := by
  unfold State.afterSinkSample; split <;> simp_all
@[simp] theorem State.afterSinkSample_cfgPreambleLen (s : State) : (s.afterSinkSample).cfgPreambleLen = s.cfgPreambleLen := by
  unfold State.afterSinkSample; split <;> simp_all
@[simp] theorem State.afterSinkSample_cfgHangDur (s : State) : (s.afterSinkSample).cfgHangDur = s.cfgHangDur := by
  unfold State.afterSinkSample; split <;> simp_all
@[simp] theorem State.afterSinkSample_cfgDuplex (s : State) : (s.afterSinkSample).cfgDuplex = s.cfgDuplex := by
  unfold State.afterSinkSample; split <;> simp_all
@[simp] theorem State.afterSinkSample_resp (s : State) : (s.afterSinkSample).resp = s.resp := by
  unfold State.afterSinkSample; split <;> simp_all
@[simp] theorem State.afterSinkSample_sinkWrites (s : State) : (s.afterSinkSample).sinkWrites = s.sinkWrites := by
  unfold State.afterSinkSample; split <;> simp_all
@[simp] theorem State.afterSinkSample_responses (s : State) : (s.afterSinkSample).responses = s.responses := by
  unfold State.afterSinkSample; split <;> simp_all
@[simp] theorem State.afterSinkSample_hostPort (s : State) : (s.afterSinkSample).hostPort = s.hostPort := by
  unfold State.afterSinkSample; split <;> simp_all
@[simp] theorem State.afterSinkSample_sinkSamples (s : State) : (s.afterSinkSample).sinkSamples = s.sinkSamples.tail := by
  unfold State.afterSinkSample; split <;> simp_all

/-! ## `State.applyRst` (R53, R56) -/

@[simp] theorem State.applyRst_params (s : State) : (s.applyRst).params = s.params := rfl
@[simp] theorem State.applyRst_seqState (s : State) : (s.applyRst).seqState = (State.resetOf s.params).seqState := rfl
@[simp] theorem State.applyRst_hangCnt (s : State) : (s.applyRst).hangCnt = (State.resetOf s.params).hangCnt := rfl
@[simp] theorem State.applyRst_rbMem (s : State) : (s.applyRst).rbMem = (State.resetOf s.params).rbMem := rfl
@[simp] theorem State.applyRst_rbHead (s : State) : (s.applyRst).rbHead = (State.resetOf s.params).rbHead := rfl
@[simp] theorem State.applyRst_rbTail (s : State) : (s.applyRst).rbTail = (State.resetOf s.params).rbTail := rfl
@[simp] theorem State.applyRst_rbCount (s : State) : (s.applyRst).rbCount = (State.resetOf s.params).rbCount := rfl
@[simp] theorem State.applyRst_pobMem (s : State) : (s.applyRst).pobMem = (State.resetOf s.params).pobMem := rfl
@[simp] theorem State.applyRst_pobLen (s : State) : (s.applyRst).pobLen = (State.resetOf s.params).pobLen := rfl
@[simp] theorem State.applyRst_pobPtr (s : State) : (s.applyRst).pobPtr = (State.resetOf s.params).pobPtr := rfl
@[simp] theorem State.applyRst_filtMem (s : State) : (s.applyRst).filtMem = (State.resetOf s.params).filtMem := rfl
@[simp] theorem State.applyRst_cfgLodev (s : State) : (s.applyRst).cfgLodev = (State.resetOf s.params).cfgLodev := rfl
@[simp] theorem State.applyRst_cfgPreambleLen (s : State) : (s.applyRst).cfgPreambleLen = (State.resetOf s.params).cfgPreambleLen := rfl
@[simp] theorem State.applyRst_cfgHangDur (s : State) : (s.applyRst).cfgHangDur = (State.resetOf s.params).cfgHangDur := rfl
@[simp] theorem State.applyRst_cfgDuplex (s : State) : (s.applyRst).cfgDuplex = (State.resetOf s.params).cfgDuplex := rfl
@[simp] theorem State.applyRst_resp (s : State) : (s.applyRst).resp = (State.resetOf s.params).resp := rfl
@[simp] theorem State.applyRst_sinkWrites (s : State) : (s.applyRst).sinkWrites = s.sinkWrites := rfl
@[simp] theorem State.applyRst_responses (s : State) : (s.applyRst).responses = s.responses := rfl
@[simp] theorem State.applyRst_hostPort (s : State) : (s.applyRst).hostPort = s.hostPort := rfl
@[simp] theorem State.applyRst_sinkSamples (s : State) : (s.applyRst).sinkSamples = s.sinkSamples := rfl
@[simp] theorem State.applyRst_sinkDraws (s : State) : (s.applyRst).sinkDraws = s.sinkDraws := rfl

/-! ## `State.emitBlock` (R179, R180) -/

@[simp] theorem State.emitBlock_params (s : State) (x : Vector Sample 4) : (s.emitBlock x).params = s.params := rfl
@[simp] theorem State.emitBlock_seqState (s : State) (x : Vector Sample 4) : (s.emitBlock x).seqState = s.seqState := rfl
@[simp] theorem State.emitBlock_hangCnt (s : State) (x : Vector Sample 4) : (s.emitBlock x).hangCnt = s.hangCnt := rfl
@[simp] theorem State.emitBlock_rbMem (s : State) (x : Vector Sample 4) : (s.emitBlock x).rbMem = s.rbMem := rfl
@[simp] theorem State.emitBlock_rbHead (s : State) (x : Vector Sample 4) : (s.emitBlock x).rbHead = s.rbHead := rfl
@[simp] theorem State.emitBlock_rbTail (s : State) (x : Vector Sample 4) : (s.emitBlock x).rbTail = s.rbTail := rfl
@[simp] theorem State.emitBlock_rbCount (s : State) (x : Vector Sample 4) : (s.emitBlock x).rbCount = s.rbCount := rfl
@[simp] theorem State.emitBlock_pobMem (s : State) (x : Vector Sample 4) : (s.emitBlock x).pobMem = s.pobMem := rfl
@[simp] theorem State.emitBlock_pobLen (s : State) (x : Vector Sample 4) : (s.emitBlock x).pobLen = s.pobLen := rfl
@[simp] theorem State.emitBlock_pobPtr (s : State) (x : Vector Sample 4) : (s.emitBlock x).pobPtr = s.pobPtr := rfl
@[simp] theorem State.emitBlock_filtMem (s : State) (x : Vector Sample 4) : (s.emitBlock x).filtMem = (interpolate s.params.coef s.filtMem x).2 := rfl
@[simp] theorem State.emitBlock_cfgLodev (s : State) (x : Vector Sample 4) : (s.emitBlock x).cfgLodev = s.cfgLodev := rfl
@[simp] theorem State.emitBlock_cfgPreambleLen (s : State) (x : Vector Sample 4) : (s.emitBlock x).cfgPreambleLen = s.cfgPreambleLen := rfl
@[simp] theorem State.emitBlock_cfgHangDur (s : State) (x : Vector Sample 4) : (s.emitBlock x).cfgHangDur = s.cfgHangDur := rfl
@[simp] theorem State.emitBlock_cfgDuplex (s : State) (x : Vector Sample 4) : (s.emitBlock x).cfgDuplex = s.cfgDuplex := rfl
@[simp] theorem State.emitBlock_resp (s : State) (x : Vector Sample 4) : (s.emitBlock x).resp = s.resp := rfl
@[simp] theorem State.emitBlock_sinkWrites (s : State) (x : Vector Sample 4) : (s.emitBlock x).sinkWrites = s.sinkWrites ++ [⟨s.params.channelTag, (interpolate s.params.coef s.filtMem x).1⟩] := rfl
@[simp] theorem State.emitBlock_responses (s : State) (x : Vector Sample 4) : (s.emitBlock x).responses = s.responses := rfl
@[simp] theorem State.emitBlock_hostPort (s : State) (x : Vector Sample 4) : (s.emitBlock x).hostPort = s.hostPort := rfl
@[simp] theorem State.emitBlock_sinkSamples (s : State) (x : Vector Sample 4) : (s.emitBlock x).sinkSamples = s.sinkSamples := rfl
@[simp] theorem State.emitBlock_sinkDraws (s : State) (x : Vector Sample 4) : (s.emitBlock x).sinkDraws = s.sinkDraws := rfl

/-! ## `State.hangReload` (R209) -/

@[simp] theorem State.hangReload_params (s : State) : (s.hangReload).params = s.params := by
  unfold State.hangReload; split <;> simp_all
@[simp] theorem State.hangReload_seqState (s : State) : (s.hangReload).seqState = s.seqState := by
  unfold State.hangReload; split <;> simp_all
@[simp] theorem State.hangReload_hangCnt (s : State) : (s.hangReload).hangCnt = if s.seqState = .data ∧ s.cfgDuplex = true then s.cfgHangDur else s.hangCnt := by
  unfold State.hangReload; split <;> simp_all
@[simp] theorem State.hangReload_rbMem (s : State) : (s.hangReload).rbMem = s.rbMem := by
  unfold State.hangReload; split <;> simp_all
@[simp] theorem State.hangReload_rbHead (s : State) : (s.hangReload).rbHead = s.rbHead := by
  unfold State.hangReload; split <;> simp_all
@[simp] theorem State.hangReload_rbTail (s : State) : (s.hangReload).rbTail = s.rbTail := by
  unfold State.hangReload; split <;> simp_all
@[simp] theorem State.hangReload_rbCount (s : State) : (s.hangReload).rbCount = s.rbCount := by
  unfold State.hangReload; split <;> simp_all
@[simp] theorem State.hangReload_pobMem (s : State) : (s.hangReload).pobMem = s.pobMem := by
  unfold State.hangReload; split <;> simp_all
@[simp] theorem State.hangReload_pobLen (s : State) : (s.hangReload).pobLen = s.pobLen := by
  unfold State.hangReload; split <;> simp_all
@[simp] theorem State.hangReload_pobPtr (s : State) : (s.hangReload).pobPtr = s.pobPtr := by
  unfold State.hangReload; split <;> simp_all
@[simp] theorem State.hangReload_filtMem (s : State) : (s.hangReload).filtMem = s.filtMem := by
  unfold State.hangReload; split <;> simp_all
@[simp] theorem State.hangReload_cfgLodev (s : State) : (s.hangReload).cfgLodev = s.cfgLodev := by
  unfold State.hangReload; split <;> simp_all
@[simp] theorem State.hangReload_cfgPreambleLen (s : State) : (s.hangReload).cfgPreambleLen = s.cfgPreambleLen := by
  unfold State.hangReload; split <;> simp_all
@[simp] theorem State.hangReload_cfgHangDur (s : State) : (s.hangReload).cfgHangDur = s.cfgHangDur := by
  unfold State.hangReload; split <;> simp_all
@[simp] theorem State.hangReload_cfgDuplex (s : State) : (s.hangReload).cfgDuplex = s.cfgDuplex := by
  unfold State.hangReload; split <;> simp_all
@[simp] theorem State.hangReload_resp (s : State) : (s.hangReload).resp = s.resp := by
  unfold State.hangReload; split <;> simp_all
@[simp] theorem State.hangReload_sinkWrites (s : State) : (s.hangReload).sinkWrites = s.sinkWrites := by
  unfold State.hangReload; split <;> simp_all
@[simp] theorem State.hangReload_responses (s : State) : (s.hangReload).responses = s.responses := by
  unfold State.hangReload; split <;> simp_all
@[simp] theorem State.hangReload_hostPort (s : State) : (s.hangReload).hostPort = s.hostPort := by
  unfold State.hangReload; split <;> simp_all
@[simp] theorem State.hangReload_sinkSamples (s : State) : (s.hangReload).sinkSamples = s.sinkSamples := by
  unfold State.hangReload; split <;> simp_all
@[simp] theorem State.hangReload_sinkDraws (s : State) : (s.hangReload).sinkDraws = s.sinkDraws := by
  unfold State.hangReload; split <;> simp_all

/-! ## `State.pobClear` (R210) -/

@[simp] theorem State.pobClear_params (s : State) : (s.pobClear).params = s.params := rfl
@[simp] theorem State.pobClear_seqState (s : State) : (s.pobClear).seqState = s.seqState := rfl
@[simp] theorem State.pobClear_hangCnt (s : State) : (s.pobClear).hangCnt = s.hangCnt := rfl
@[simp] theorem State.pobClear_rbMem (s : State) : (s.pobClear).rbMem = s.rbMem := rfl
@[simp] theorem State.pobClear_rbHead (s : State) : (s.pobClear).rbHead = s.rbHead := rfl
@[simp] theorem State.pobClear_rbTail (s : State) : (s.pobClear).rbTail = s.rbTail := rfl
@[simp] theorem State.pobClear_rbCount (s : State) : (s.pobClear).rbCount = s.rbCount := rfl
@[simp] theorem State.pobClear_pobMem (s : State) : (s.pobClear).pobMem = s.pobMem := rfl
@[simp] theorem State.pobClear_pobLen (s : State) : (s.pobClear).pobLen = 0 := rfl
@[simp] theorem State.pobClear_pobPtr (s : State) : (s.pobClear).pobPtr = 0 := rfl
@[simp] theorem State.pobClear_filtMem (s : State) : (s.pobClear).filtMem = s.filtMem := rfl
@[simp] theorem State.pobClear_cfgLodev (s : State) : (s.pobClear).cfgLodev = s.cfgLodev := rfl
@[simp] theorem State.pobClear_cfgPreambleLen (s : State) : (s.pobClear).cfgPreambleLen = s.cfgPreambleLen := rfl
@[simp] theorem State.pobClear_cfgHangDur (s : State) : (s.pobClear).cfgHangDur = s.cfgHangDur := rfl
@[simp] theorem State.pobClear_cfgDuplex (s : State) : (s.pobClear).cfgDuplex = s.cfgDuplex := rfl
@[simp] theorem State.pobClear_resp (s : State) : (s.pobClear).resp = s.resp := rfl
@[simp] theorem State.pobClear_sinkWrites (s : State) : (s.pobClear).sinkWrites = s.sinkWrites := rfl
@[simp] theorem State.pobClear_responses (s : State) : (s.pobClear).responses = s.responses := rfl
@[simp] theorem State.pobClear_hostPort (s : State) : (s.pobClear).hostPort = s.hostPort := rfl
@[simp] theorem State.pobClear_sinkSamples (s : State) : (s.pobClear).sinkSamples = s.sinkSamples := rfl
@[simp] theorem State.pobClear_sinkDraws (s : State) : (s.pobClear).sinkDraws = s.sinkDraws := rfl

/-! ## `State.endOfData` (R205) -/

@[simp] theorem State.endOfData_params (s : State) : (s.endOfData).params = s.params := by
  unfold State.endOfData; split <;> rfl
@[simp] theorem State.endOfData_seqState (s : State) : (s.endOfData).seqState = if s.cfgDuplex = true ∧ s.hangCnt ≠ 0 then .hang else .idle := by
  unfold State.endOfData; split <;> rfl
@[simp] theorem State.endOfData_hangCnt (s : State) : (s.endOfData).hangCnt = if s.cfgDuplex = true ∧ s.hangCnt ≠ 0 then s.hangCnt else 0 := by
  unfold State.endOfData; split <;> rfl
@[simp] theorem State.endOfData_rbMem (s : State) : (s.endOfData).rbMem = s.rbMem := by
  unfold State.endOfData; split <;> rfl
@[simp] theorem State.endOfData_rbHead (s : State) : (s.endOfData).rbHead = s.rbHead := by
  unfold State.endOfData; split <;> rfl
@[simp] theorem State.endOfData_rbTail (s : State) : (s.endOfData).rbTail = s.rbTail := by
  unfold State.endOfData; split <;> rfl
@[simp] theorem State.endOfData_rbCount (s : State) : (s.endOfData).rbCount = s.rbCount := by
  unfold State.endOfData; split <;> rfl
@[simp] theorem State.endOfData_pobMem (s : State) : (s.endOfData).pobMem = s.pobMem := by
  unfold State.endOfData; split <;> rfl
@[simp] theorem State.endOfData_pobLen (s : State) : (s.endOfData).pobLen = s.pobLen := by
  unfold State.endOfData; split <;> rfl
@[simp] theorem State.endOfData_pobPtr (s : State) : (s.endOfData).pobPtr = s.pobPtr := by
  unfold State.endOfData; split <;> rfl
@[simp] theorem State.endOfData_filtMem (s : State) : (s.endOfData).filtMem = s.filtMem := by
  unfold State.endOfData; split <;> rfl
@[simp] theorem State.endOfData_cfgLodev (s : State) : (s.endOfData).cfgLodev = s.cfgLodev := by
  unfold State.endOfData; split <;> rfl
@[simp] theorem State.endOfData_cfgPreambleLen (s : State) : (s.endOfData).cfgPreambleLen = s.cfgPreambleLen := by
  unfold State.endOfData; split <;> rfl
@[simp] theorem State.endOfData_cfgHangDur (s : State) : (s.endOfData).cfgHangDur = s.cfgHangDur := by
  unfold State.endOfData; split <;> rfl
@[simp] theorem State.endOfData_cfgDuplex (s : State) : (s.endOfData).cfgDuplex = s.cfgDuplex := by
  unfold State.endOfData; split <;> rfl
@[simp] theorem State.endOfData_resp (s : State) : (s.endOfData).resp = s.resp := by
  unfold State.endOfData; split <;> rfl
@[simp] theorem State.endOfData_sinkWrites (s : State) : (s.endOfData).sinkWrites = s.sinkWrites := by
  unfold State.endOfData; split <;> rfl
@[simp] theorem State.endOfData_responses (s : State) : (s.endOfData).responses = s.responses := by
  unfold State.endOfData; split <;> rfl
@[simp] theorem State.endOfData_hostPort (s : State) : (s.endOfData).hostPort = s.hostPort := by
  unfold State.endOfData; split <;> rfl
@[simp] theorem State.endOfData_sinkSamples (s : State) : (s.endOfData).sinkSamples = s.sinkSamples := by
  unfold State.endOfData; split <;> rfl
@[simp] theorem State.endOfData_sinkDraws (s : State) : (s.endOfData).sinkDraws = s.sinkDraws := by
  unfold State.endOfData; split <;> rfl

/-! ## `State.drainByte` (R208, R209) -/

@[simp] theorem State.drainByte_params (s : State) (c : Byte) : (s.drainByte c).params = s.params := by
  simp [State.drainByte, State.emitByte]
@[simp] theorem State.drainByte_seqState (s : State) (c : Byte) : (s.drainByte c).seqState = s.seqState := by
  simp [State.drainByte, State.emitByte]
@[simp] theorem State.drainByte_hangCnt (s : State) (c : Byte) : (s.drainByte c).hangCnt = if s.seqState = .data ∧ s.cfgDuplex = true then s.cfgHangDur else s.hangCnt := by
  rw [State.drainByte, State.hangReload_hangCnt]; rfl
@[simp] theorem State.drainByte_rbMem (s : State) (c : Byte) : (s.drainByte c).rbMem = s.rbMem := by
  simp [State.drainByte, State.emitByte]
@[simp] theorem State.drainByte_rbHead (s : State) (c : Byte) : (s.drainByte c).rbHead = s.rbHead := by
  simp [State.drainByte, State.emitByte]
@[simp] theorem State.drainByte_rbTail (s : State) (c : Byte) : (s.drainByte c).rbTail = s.rbTail := by
  simp [State.drainByte, State.emitByte]
@[simp] theorem State.drainByte_rbCount (s : State) (c : Byte) : (s.drainByte c).rbCount = s.rbCount := by
  simp [State.drainByte, State.emitByte]
@[simp] theorem State.drainByte_pobMem (s : State) (c : Byte) : (s.drainByte c).pobMem = s.pobMem := by
  simp [State.drainByte, State.emitByte]
@[simp] theorem State.drainByte_pobLen (s : State) (c : Byte) : (s.drainByte c).pobLen = s.pobLen := by
  simp [State.drainByte, State.emitByte]
@[simp] theorem State.drainByte_pobPtr (s : State) (c : Byte) : (s.drainByte c).pobPtr = s.pobPtr + 1 := by
  simp [State.drainByte, State.emitByte]
@[simp] theorem State.drainByte_filtMem (s : State) (c : Byte) : (s.drainByte c).filtMem = (s.emitByte c).filtMem := by
  simp [State.drainByte, State.emitByte]
@[simp] theorem State.drainByte_cfgLodev (s : State) (c : Byte) : (s.drainByte c).cfgLodev = s.cfgLodev := by
  simp [State.drainByte, State.emitByte]
@[simp] theorem State.drainByte_cfgPreambleLen (s : State) (c : Byte) : (s.drainByte c).cfgPreambleLen = s.cfgPreambleLen := by
  simp [State.drainByte, State.emitByte]
@[simp] theorem State.drainByte_cfgHangDur (s : State) (c : Byte) : (s.drainByte c).cfgHangDur = s.cfgHangDur := by
  simp [State.drainByte, State.emitByte]
@[simp] theorem State.drainByte_cfgDuplex (s : State) (c : Byte) : (s.drainByte c).cfgDuplex = s.cfgDuplex := by
  simp [State.drainByte, State.emitByte]
@[simp] theorem State.drainByte_resp (s : State) (c : Byte) : (s.drainByte c).resp = s.resp := by
  simp [State.drainByte, State.emitByte]
@[simp] theorem State.drainByte_sinkWrites (s : State) (c : Byte) : (s.drainByte c).sinkWrites = (s.emitByte c).sinkWrites := by
  simp [State.drainByte, State.emitByte]
@[simp] theorem State.drainByte_responses (s : State) (c : Byte) : (s.drainByte c).responses = s.responses := by
  simp [State.drainByte, State.emitByte]
@[simp] theorem State.drainByte_hostPort (s : State) (c : Byte) : (s.drainByte c).hostPort = s.hostPort := by
  simp [State.drainByte, State.emitByte]
@[simp] theorem State.drainByte_sinkSamples (s : State) (c : Byte) : (s.drainByte c).sinkSamples = s.sinkSamples := by
  simp [State.drainByte, State.emitByte]
@[simp] theorem State.drainByte_sinkDraws (s : State) (c : Byte) : (s.drainByte c).sinkDraws = s.sinkDraws := by
  simp [State.drainByte, State.emitByte]

/-! ## `State.silenceStep` (R211, R212) -/

@[simp] theorem State.silenceStep_params (s : State) : (s.silenceStep).params = s.params := rfl
@[simp] theorem State.silenceStep_seqState (s : State) : (s.silenceStep).seqState = s.seqState := rfl
@[simp] theorem State.silenceStep_hangCnt (s : State) : (s.silenceStep).hangCnt = s.hangCnt - 1 := rfl
@[simp] theorem State.silenceStep_rbMem (s : State) : (s.silenceStep).rbMem = s.rbMem := rfl
@[simp] theorem State.silenceStep_rbHead (s : State) : (s.silenceStep).rbHead = s.rbHead := rfl
@[simp] theorem State.silenceStep_rbTail (s : State) : (s.silenceStep).rbTail = s.rbTail := rfl
@[simp] theorem State.silenceStep_rbCount (s : State) : (s.silenceStep).rbCount = s.rbCount := rfl
@[simp] theorem State.silenceStep_pobMem (s : State) : (s.silenceStep).pobMem = s.pobMem := rfl
@[simp] theorem State.silenceStep_pobLen (s : State) : (s.silenceStep).pobLen = s.pobLen := rfl
@[simp] theorem State.silenceStep_pobPtr (s : State) : (s.silenceStep).pobPtr = s.pobPtr := rfl
@[simp] theorem State.silenceStep_filtMem (s : State) : (s.silenceStep).filtMem = s.emitSilence.filtMem := rfl
@[simp] theorem State.silenceStep_cfgLodev (s : State) : (s.silenceStep).cfgLodev = s.cfgLodev := rfl
@[simp] theorem State.silenceStep_cfgPreambleLen (s : State) : (s.silenceStep).cfgPreambleLen = s.cfgPreambleLen := rfl
@[simp] theorem State.silenceStep_cfgHangDur (s : State) : (s.silenceStep).cfgHangDur = s.cfgHangDur := rfl
@[simp] theorem State.silenceStep_cfgDuplex (s : State) : (s.silenceStep).cfgDuplex = s.cfgDuplex := rfl
@[simp] theorem State.silenceStep_resp (s : State) : (s.silenceStep).resp = s.resp := rfl
@[simp] theorem State.silenceStep_sinkWrites (s : State) : (s.silenceStep).sinkWrites = s.emitSilence.sinkWrites := rfl
@[simp] theorem State.silenceStep_responses (s : State) : (s.silenceStep).responses = s.responses := rfl
@[simp] theorem State.silenceStep_hostPort (s : State) : (s.silenceStep).hostPort = s.hostPort := rfl
@[simp] theorem State.silenceStep_sinkSamples (s : State) : (s.silenceStep).sinkSamples = s.sinkSamples := rfl
@[simp] theorem State.silenceStep_sinkDraws (s : State) : (s.silenceStep).sinkDraws = s.sinkDraws := rfl

/-! ## `State.rbWriteByte` (R132) -/

@[simp] theorem State.rbWriteByte_params (s : State) (b : Byte) : (s.rbWriteByte b).params = s.params := rfl
@[simp] theorem State.rbWriteByte_seqState (s : State) (b : Byte) : (s.rbWriteByte b).seqState = s.seqState := rfl
@[simp] theorem State.rbWriteByte_hangCnt (s : State) (b : Byte) : (s.rbWriteByte b).hangCnt = s.hangCnt := rfl
@[simp] theorem State.rbWriteByte_rbMem (s : State) (b : Byte) : (s.rbWriteByte b).rbMem = s.rbMem.write s.rbHead.toNat b := rfl
@[simp] theorem State.rbWriteByte_rbHead (s : State) (b : Byte) : (s.rbWriteByte b).rbHead = Params.ringNext s.params s.rbHead := rfl
@[simp] theorem State.rbWriteByte_rbTail (s : State) (b : Byte) : (s.rbWriteByte b).rbTail = s.rbTail := rfl
@[simp] theorem State.rbWriteByte_rbCount (s : State) (b : Byte) : (s.rbWriteByte b).rbCount = s.rbCount := rfl
@[simp] theorem State.rbWriteByte_pobMem (s : State) (b : Byte) : (s.rbWriteByte b).pobMem = s.pobMem := rfl
@[simp] theorem State.rbWriteByte_pobLen (s : State) (b : Byte) : (s.rbWriteByte b).pobLen = s.pobLen := rfl
@[simp] theorem State.rbWriteByte_pobPtr (s : State) (b : Byte) : (s.rbWriteByte b).pobPtr = s.pobPtr := rfl
@[simp] theorem State.rbWriteByte_filtMem (s : State) (b : Byte) : (s.rbWriteByte b).filtMem = s.filtMem := rfl
@[simp] theorem State.rbWriteByte_cfgLodev (s : State) (b : Byte) : (s.rbWriteByte b).cfgLodev = s.cfgLodev := rfl
@[simp] theorem State.rbWriteByte_cfgPreambleLen (s : State) (b : Byte) : (s.rbWriteByte b).cfgPreambleLen = s.cfgPreambleLen := rfl
@[simp] theorem State.rbWriteByte_cfgHangDur (s : State) (b : Byte) : (s.rbWriteByte b).cfgHangDur = s.cfgHangDur := rfl
@[simp] theorem State.rbWriteByte_cfgDuplex (s : State) (b : Byte) : (s.rbWriteByte b).cfgDuplex = s.cfgDuplex := rfl
@[simp] theorem State.rbWriteByte_resp (s : State) (b : Byte) : (s.rbWriteByte b).resp = s.resp := rfl
@[simp] theorem State.rbWriteByte_sinkWrites (s : State) (b : Byte) : (s.rbWriteByte b).sinkWrites = s.sinkWrites := rfl
@[simp] theorem State.rbWriteByte_responses (s : State) (b : Byte) : (s.rbWriteByte b).responses = s.responses := rfl
@[simp] theorem State.rbWriteByte_hostPort (s : State) (b : Byte) : (s.rbWriteByte b).hostPort = s.hostPort := rfl
@[simp] theorem State.rbWriteByte_sinkSamples (s : State) (b : Byte) : (s.rbWriteByte b).sinkSamples = s.sinkSamples := rfl
@[simp] theorem State.rbWriteByte_sinkDraws (s : State) (b : Byte) : (s.rbWriteByte b).sinkDraws = s.sinkDraws := rfl

/-! ## `State.rbTailNext` (R133) -/

@[simp] theorem State.rbTailNext_params (s : State) : (s.rbTailNext).params = s.params := rfl
@[simp] theorem State.rbTailNext_seqState (s : State) : (s.rbTailNext).seqState = s.seqState := rfl
@[simp] theorem State.rbTailNext_hangCnt (s : State) : (s.rbTailNext).hangCnt = s.hangCnt := rfl
@[simp] theorem State.rbTailNext_rbMem (s : State) : (s.rbTailNext).rbMem = s.rbMem := rfl
@[simp] theorem State.rbTailNext_rbHead (s : State) : (s.rbTailNext).rbHead = s.rbHead := rfl
@[simp] theorem State.rbTailNext_rbTail (s : State) : (s.rbTailNext).rbTail = Params.ringNext s.params s.rbTail := rfl
@[simp] theorem State.rbTailNext_rbCount (s : State) : (s.rbTailNext).rbCount = s.rbCount := rfl
@[simp] theorem State.rbTailNext_pobMem (s : State) : (s.rbTailNext).pobMem = s.pobMem := rfl
@[simp] theorem State.rbTailNext_pobLen (s : State) : (s.rbTailNext).pobLen = s.pobLen := rfl
@[simp] theorem State.rbTailNext_pobPtr (s : State) : (s.rbTailNext).pobPtr = s.pobPtr := rfl
@[simp] theorem State.rbTailNext_filtMem (s : State) : (s.rbTailNext).filtMem = s.filtMem := rfl
@[simp] theorem State.rbTailNext_cfgLodev (s : State) : (s.rbTailNext).cfgLodev = s.cfgLodev := rfl
@[simp] theorem State.rbTailNext_cfgPreambleLen (s : State) : (s.rbTailNext).cfgPreambleLen = s.cfgPreambleLen := rfl
@[simp] theorem State.rbTailNext_cfgHangDur (s : State) : (s.rbTailNext).cfgHangDur = s.cfgHangDur := rfl
@[simp] theorem State.rbTailNext_cfgDuplex (s : State) : (s.rbTailNext).cfgDuplex = s.cfgDuplex := rfl
@[simp] theorem State.rbTailNext_resp (s : State) : (s.rbTailNext).resp = s.resp := rfl
@[simp] theorem State.rbTailNext_sinkWrites (s : State) : (s.rbTailNext).sinkWrites = s.sinkWrites := rfl
@[simp] theorem State.rbTailNext_responses (s : State) : (s.rbTailNext).responses = s.responses := rfl
@[simp] theorem State.rbTailNext_hostPort (s : State) : (s.rbTailNext).hostPort = s.hostPort := rfl
@[simp] theorem State.rbTailNext_sinkSamples (s : State) : (s.rbTailNext).sinkSamples = s.sinkSamples := rfl
@[simp] theorem State.rbTailNext_sinkDraws (s : State) : (s.rbTailNext).sinkDraws = s.sinkDraws := rfl

end Sys2Proof.Machine
end

