-- ==== Sys2Proof/Laws/Filter.lean ====
section
/-! SUPPORT. What INTERPOLATE, EMIT_BYTE and EMIT_SILENCE can do (R174 to R180), and the range of R176. -/

namespace Sys2Proof.Machine

theorem sat16_toInt (v : Int) : (sat16 v).toInt = min (max v (-32768)) 32767 := by
  rw [sat16, BitVec.toInt_ofInt]
  simp only [Int.bmod]
  omega

/-- R176: saturation changes no value that fits in 16 bits. -/
theorem sat16_toInt_of_range {v : Int} (h1 : -32768 ≤ v) (h2 : v ≤ 32767) : (sat16 v).toInt = v := by
  rw [sat16_toInt]; omega

theorem phaseOut_toInt (coef : Vector Sample 90) (mem : Vector Sample 9) (m : Fin 10) :
    (phaseOut coef mem m).toInt = min (max (phaseAcc coef mem m / 32768) (-32768)) 32767 := by
  rw [phaseOut, sat16_toInt, floorQ15]

theorem phaseGroup_getElem (coef : Vector Sample 90) (mem : Vector Sample 9) (m : Nat) (h : m < 10) :
    (phaseGroup coef mem)[m] = phaseOut coef mem ⟨m, h⟩ := by
  simp [phaseGroup]

/-- Indexing four ten-sample groups laid end to end. -/
theorem four_groups (a b c d : Vector Sample 10) (i : Fin 4) (m : Fin 10) :
    (a ++ b ++ c ++ d : Vector Sample 40)[i.val * 10 + m.val] =
      (match i with | 0 => a | 1 => b | 2 => c | 3 => d)[m] := by
  have := m.isLt
  simp only [Fin.getElem_fin]
  match i with
  | 0 =>
    rw [Vector.getElem_append_left, Vector.getElem_append_left, Vector.getElem_append_left]
    · congr 1; simp
    all_goals simp
    all_goals omega
  | 1 =>
    rw [Vector.getElem_append_left, Vector.getElem_append_left, Vector.getElem_append_right]
    · congr 1; simp
    all_goals simp
    all_goals omega
  | 2 =>
    rw [Vector.getElem_append_left, Vector.getElem_append_right]
    · congr 1; simp
    all_goals simp
    all_goals omega
  | 3 =>
    rw [Vector.getElem_append_right]
    · congr 1; simp
    all_goals simp

/-- The delay line after the inputs x[0..i] (R174). -/
def delayAfter (mem : Vector Sample 9) (x : Vector Sample 4) (i : Fin 4) : Vector Sample 9 :=
  match i with
  | 0 => shiftIn mem x[0]
  | 1 => shiftIn (shiftIn mem x[0]) x[1]
  | 2 => shiftIn (shiftIn (shiftIn mem x[0]) x[1]) x[2]
  | 3 => shiftIn (shiftIn (shiftIn (shiftIn mem x[0]) x[1]) x[2]) x[3]

/-- R175: sample i*10 + m of the block is phase m after input i. -/
theorem interpolate_getElem (coef : Vector Sample 90) (mem : Vector Sample 9) (x : Vector Sample 4)
    (i : Fin 4) (m : Fin 10) :
    (interpolate coef mem x).1[i.val * 10 + m.val] = phaseOut coef (delayAfter mem x i) m := by
  refine (four_groups _ _ _ _ i m).trans ?_
  match i with
  | 0 => exact phaseGroup_getElem _ _ _ m.isLt
  | 1 => exact phaseGroup_getElem _ _ _ m.isLt
  | 2 => exact phaseGroup_getElem _ _ _ m.isLt
  | 3 => exact phaseGroup_getElem _ _ _ m.isLt

theorem interpolate_snd (coef : Vector Sample 90) (mem : Vector Sample 9) (x : Vector Sample 4) :
    (interpolate coef mem x).2 = delayAfter mem x 3 := rfl

/-- Entry k of the shifted delay line (R174). -/
theorem shiftIn_getElem (mem : Vector Sample 9) (x : Sample) (k : Fin 9) :
    (shiftIn mem x)[k] = if _h : k.val = 0 then x else mem[k.val - 1] := by
  fin_cases k <;> rfl

theorem level_bounded (lodev : Bool) (s : BitVec 2) : LevelBounded (level lodev s) := by
  revert lodev s; decide

theorem mapByte_bounded (b : Byte) (lodev : Bool) (i : Fin 4) : LevelBounded (mapByte b lodev)[i] := by
  fin_cases i <;> exact level_bounded _ _

theorem mul_bounded {a b : Int} (h1 : -32768 ≤ a) (h2 : a ≤ 32768) (h3 : -1893 ≤ b) (h4 : b ≤ 1893) :
    -62029824 ≤ a * b ∧ a * b ≤ 62029824 := by
  have h : |a * b| ≤ 32768 * 1893 := by
    rw [abs_mul]
    exact mul_le_mul (abs_le.2 ⟨h1, h2⟩) (abs_le.2 ⟨h3, h4⟩) (abs_nonneg _) (by norm_num)
  have := abs_le.1 h
  omega

theorem tap_bounded {coef : Vector Sample 90} {mem : Vector Sample 9} {m : Fin 10} {k : Fin 9}
    (h : LevelBounded mem[k]) : -62029824 ≤ tap coef mem m k ∧ tap coef mem m k ≤ 62029824 := by
  have c1 := BitVec.le_toInt (coef[k.val * 10 + m.val])
  have c2 := BitVec.toInt_lt (x := coef[k.val * 10 + m.val])
  exact mul_bounded (by omega) (by omega) h.1 h.2

/-- R176: |acc| ≤ 9 * 32768 * 1893. -/
theorem phaseAcc_bounded {coef : Vector Sample 90} {mem : Vector Sample 9} {m : Fin 10}
    (h : ∀ k : Fin 9, LevelBounded mem[k]) : -558268416 ≤ phaseAcc coef mem m ∧ phaseAcc coef mem m ≤ 558268416 := by
  have t := fun k : Fin 9 => tap_bounded (coef := coef) (m := m) (h k)
  have := t 0; have := t 1; have := t 2; have := t 3; have := t 4; have := t 5; have := t 6; have := t 7; have := t 8
  simp only [phaseAcc]; omega

theorem shiftIn_bounded {mem : Vector Sample 9} {x : Sample} (h : ∀ k : Fin 9, LevelBounded mem[k])
    (hx : LevelBounded x) (k : Fin 9) : LevelBounded (shiftIn mem x)[k] := by
  rw [shiftIn_getElem]
  split
  · exact hx
  · exact h ⟨k.val - 1, by omega⟩

theorem delayAfter_bounded {mem : Vector Sample 9} {x : Vector Sample 4} (h : ∀ k : Fin 9, LevelBounded mem[k])
    (hx : ∀ i : Fin 4, LevelBounded x[i]) (i : Fin 4) (k : Fin 9) : LevelBounded (delayAfter mem x i)[k] := by
  have h0 := shiftIn_bounded h (hx 0)
  have h1 := shiftIn_bounded h0 (hx 1)
  have h2 := shiftIn_bounded h1 (hx 2)
  have h3 := shiftIn_bounded h2 (hx 3)
  fin_cases i
  · exact h0 k
  · exact h1 k
  · exact h2 k
  · exact h3 k

/-- Entry k of the delay line after the inputs x[0..i] (R174). -/
theorem delayAfter_getElem (mem : Vector Sample 9) (x : Vector Sample 4) (i : Fin 4) (k : Fin 9) :
    (delayAfter mem x i)[k] = delayEntry mem x i k := by
  fin_cases i <;> fin_cases k <;> rfl

/-- EMIT_BYTE and EMIT_SILENCE write FILT_MEM and the sink only (R179, R180). -/
theorem emitBlock_frame (s : State) (x : Vector Sample 4) :
    s.emitBlock x = { s with filtMem := (s.emitBlock x).filtMem, sinkWrites := (s.emitBlock x).sinkWrites } := rfl

end Sys2Proof.Machine
end

