-- ==== Sys2Proof/Laws/Memory.lean ====
section
/-! SUPPORT. The laws of one byte array (R70, R72): read after write, and that every operation keeps the canonical form. -/

namespace Sys2Proof.Machine

@[simp] theorem Memory.read_nil (i : Nat) : Memory.read [] i = none := rfl

theorem Memory.read_write_same (m : Memory) (i : Nat) (v : Byte) : (m.write i v).read i = some v := by
  induction m with
  | nil => simp [Memory.write, Memory.read]
  | cons cell rest ih =>
    obtain ⟨j, b⟩ := cell
    unfold Memory.write
    split
    · simp [Memory.read]
    · split
      · simp [Memory.read]
      · have : j ≠ i := by omega
        simp [Memory.read, this, ih]

theorem Memory.read_write_other (m : Memory) {i j : Nat} (v : Byte) (h : j ≠ i) :
    (m.write i v).read j = m.read j := by
  have h' : i ≠ j := fun e => h e.symm
  induction m with
  | nil => simp [Memory.write, Memory.read, h', Memory.unlisted]
  | cons cell rest ih =>
    obtain ⟨k, b⟩ := cell
    unfold Memory.write
    split
    · simp [Memory.read, h']
    · split
      · subst_vars
        simp [Memory.read, h']
      · simp [Memory.read, ih]

/-- A read after a write, in one equation. -/
theorem Memory.read_write (m : Memory) (i j : Nat) (v : Byte) :
    (m.write i v).read j = if j = i then some v else m.read j := by
  split
  · subst_vars; exact Memory.read_write_same m _ v
  · exact Memory.read_write_other m v ‹_›

theorem Memory.risingFrom_mono {m : Memory} {lo lo' : Nat} (h : lo' ≤ lo) (hm : m.risingFrom lo = true) :
    m.risingFrom lo' = true := by
  cases m with
  | nil => rfl
  | cons cell rest =>
    obtain ⟨j, b⟩ := cell
    simp only [Memory.risingFrom, Bool.and_eq_true, decide_eq_true_eq] at *
    exact ⟨by omega, hm.2⟩

theorem Memory.write_rising {m : Memory} {lo i : Nat} (v : Byte) (h : lo ≤ i) (hm : m.risingFrom lo = true) :
    (m.write i v).risingFrom lo = true := by
  induction m generalizing lo with
  | nil => simpa [Memory.write, Memory.risingFrom] using h
  | cons cell rest ih =>
    obtain ⟨j, b⟩ := cell
    simp only [Memory.risingFrom, Bool.and_eq_true, decide_eq_true_eq] at hm
    unfold Memory.write
    split
    · simp only [Memory.risingFrom, Bool.and_eq_true, decide_eq_true_eq]
      exact ⟨h, by omega, hm.2⟩
    · split
      · subst_vars
        simp only [Memory.risingFrom, Bool.and_eq_true, decide_eq_true_eq]
        exact ⟨h, hm.2⟩
      · simp only [Memory.risingFrom, Bool.and_eq_true, decide_eq_true_eq]
        exact ⟨hm.1, ih (by omega) hm.2⟩

/-- A write keeps the canonical form. -/
theorem Memory.write_wf {m : Memory} (i : Nat) (v : Byte) (hm : m.wf = true) : (m.write i v).wf = true :=
  Memory.write_rising v (Nat.zero_le i) hm

theorem Memory.write_within {m : Memory} {size i : Nat} (v : Byte) (h : i < size) (hm : m.within size = true) :
    (m.write i v).within size = true := by
  simp only [Memory.within] at *
  induction m with
  | nil => simpa [Memory.write] using h
  | cons cell rest ih =>
    obtain ⟨j, b⟩ := cell
    simp only [List.all_cons, Bool.and_eq_true, decide_eq_true_eq] at hm
    unfold Memory.write
    split
    · simp [h, hm.1]; simpa using hm.2
    · split
      · simp [h]; simpa using hm.2
      · simp [hm.1]; simpa using ih hm.2

/-- Reading after a run of writes. -/
theorem Memory.read_writeFrom (m : Memory) (i j : Nat) (bs : List Byte) :
    (m.writeFrom i bs).read j = if i ≤ j ∧ j < i + bs.length then bs[j - i]? else m.read j := by
  induction bs generalizing m i with
  | nil => simp [Memory.writeFrom]
  | cons b bs ih =>
    rw [Memory.writeFrom, ih, Memory.read_write]
    simp only [List.length_cons]
    by_cases hj : j = i
    · subst hj
      simp
    · by_cases h : i + 1 ≤ j ∧ j < i + 1 + bs.length
      · have h' : i ≤ j ∧ j < i + (bs.length + 1) := by omega
        have e : j - i = (j - (i + 1)) + 1 := by omega
        rw [if_pos h, if_pos h', e, List.getElem?_cons_succ]
      · have h' : ¬ (i ≤ j ∧ j < i + (bs.length + 1)) := by omega
        rw [if_neg h, if_neg h', if_neg hj]

theorem Memory.writeFrom_wf {m : Memory} (i : Nat) (bs : List Byte) (hm : m.wf = true) :
    (m.writeFrom i bs).wf = true := by
  induction bs generalizing m i with
  | nil => exact hm
  | cons b bs ih => exact ih (i + 1) (Memory.write_wf i b hm)

theorem Memory.writeFrom_within {m : Memory} {size i : Nat} {bs : List Byte} (h : i + bs.length ≤ size)
    (hm : m.within size = true) : (m.writeFrom i bs).within size = true := by
  induction bs generalizing m i with
  | nil => exact hm
  | cons b bs ih =>
    simp only [List.length_cons] at h
    exact ih (by omega) (Memory.write_within b (by omega) hm)

end Sys2Proof.Machine
end

