-- ==== Sys2Proof/Laws/RingBuffer.lean ====
section
/-! SUPPORT. What RB_ENQUEUE and RB_DEQUEUE can do (R132, R133), said once. -/

namespace Sys2Proof.Machine

theorem ringNext_toNat {p : Params} (h0 : 0 < p.rbCap) (h : p.rbCap ≤ 65535) (i : BitVec 16) :
    (Params.ringNext p i).toNat = (i.toNat + 1) % p.rbCap := by
  have := Nat.mod_lt (i.toNat + 1) h0
  simp only [Params.ringNext, BitVec.toNat_ofNat]
  omega

theorem ringNext_lt {p : Params} (h0 : 0 < p.rbCap) (h : p.rbCap ≤ 65535) (i : BitVec 16) :
    (Params.ringNext p i).toNat < p.rbCap := by
  rw [ringNext_toNat h0 h]; exact Nat.mod_lt _ h0

/-- RB_ENQUEUE's loop writes RB_MEM and RB_HEAD only. -/
theorem rbWriteBytes_frame (s : State) (bs : List Byte) :
    s.rbWriteBytes bs = { s with rbMem := (s.rbWriteBytes bs).rbMem, rbHead := (s.rbWriteBytes bs).rbHead } := by
  induction bs generalizing s with
  | nil => rfl
  | cons b bs ih => rw [State.rbWriteBytes, ih]; rfl

theorem rbWriteBytes_head {s : State} (bs : List Byte) (h : s.rbHead.toNat < s.params.rbCap)
    (hc : s.params.rbCap ≤ 65535) :
    (s.rbWriteBytes bs).rbHead.toNat = (s.rbHead.toNat + bs.length) % s.params.rbCap := by
  induction bs generalizing s with
  | nil => simp [State.rbWriteBytes, Nat.mod_eq_of_lt h]
  | cons b bs ih =>
    have h0 : 0 < s.params.rbCap := by omega
    rw [State.rbWriteBytes, ih (s := s.rbWriteByte b) (ringNext_lt h0 hc _) hc]
    simp only [State.rbWriteByte_rbHead, State.rbWriteByte_params, ringNext_toNat h0 hc, List.length_cons, Nat.mod_add_mod]
    congr 1; omega

/-- Two ring indices less than a whole turn apart are different slots. -/
theorem ring_slot_inj {cap h k j : Nat} (hk : k < cap) (hj : j < cap) (e : (h + k) % cap = (h + j) % cap) : k = j := by
  have e' : k % cap = j % cap := by
    have : (h + k) ≡ (h + j) [MOD cap] := e
    exact Nat.ModEq.add_left_cancel' h this
  rwa [Nat.mod_eq_of_lt hk, Nat.mod_eq_of_lt hj] at e'

theorem ring_step (cap h k : Nat) : ((h + 1) % cap + k) % cap = (h + (k + 1)) % cap := by
  rw [Nat.mod_add_mod]; congr 1; omega

/-- An index that is none of the slots (RB_HEAD + k) mod RB_CAP reads as before. -/
theorem rbWriteBytes_read_other {s : State} {bs : List Byte} (h : s.rbHead.toNat < s.params.rbCap)
    (hc : s.params.rbCap ≤ 65535) (a : Nat) (ha : ∀ k < bs.length, a ≠ (s.rbHead.toNat + k) % s.params.rbCap) :
    (s.rbWriteBytes bs).rbMem.read a = s.rbMem.read a := by
  induction bs generalizing s with
  | nil => rfl
  | cons b bs ih =>
    have h0 : 0 < s.params.rbCap := by omega
    rw [State.rbWriteBytes, ih (s := s.rbWriteByte b) (ringNext_lt h0 hc _) hc]
    · refine Memory.read_write_other _ _ ?_
      simpa [Nat.mod_eq_of_lt h] using ha 0 (by simp)
    · intro k hk
      simp only [State.rbWriteByte_rbHead, State.rbWriteByte_params, ringNext_toNat h0 hc, ring_step]
      exact ha (k + 1) (by simpa using hk)

/-- RB_ENQUEUE's loop stores byte k of the frame at index (RB_HEAD + k) mod RB_CAP. -/
theorem rbWriteBytes_read_new {s : State} {bs : List Byte} (h : s.rbHead.toNat < s.params.rbCap)
    (hc : s.params.rbCap ≤ 65535) (hl : bs.length ≤ s.params.rbCap) (k : Nat) (hk : k < bs.length) :
    (s.rbWriteBytes bs).rbMem.read ((s.rbHead.toNat + k) % s.params.rbCap) = bs[k]? := by
  induction bs generalizing s k with
  | nil => simp at hk
  | cons b bs ih =>
    have h0 : 0 < s.params.rbCap := by omega
    have hn : (s.rbWriteByte b).rbHead.toNat < (s.rbWriteByte b).params.rbCap := ringNext_lt h0 hc _
    simp only [List.length_cons] at hl hk
    rw [State.rbWriteBytes]
    cases k with
    | zero =>
      rw [rbWriteBytes_read_other hn hc]
      · simp [State.rbWriteByte, Nat.mod_eq_of_lt h, Memory.read_write_same]
      · intro k hk' e
        simp only [State.rbWriteByte_rbHead, State.rbWriteByte_params, ringNext_toNat h0 hc, ring_step] at e
        have := ring_slot_inj (by omega) (by omega) e
        omega
    | succ k =>
      have := ih hn hc (show bs.length ≤ s.params.rbCap by omega) k (by omega)
      simp only [State.rbWriteByte_rbHead, State.rbWriteByte_params, ringNext_toNat h0 hc, ring_step] at this
      simpa using this

theorem rbWriteBytes_wf {s : State} (bs : List Byte) (hm : s.rbMem.wf = true) : (s.rbWriteBytes bs).rbMem.wf = true := by
  induction bs generalizing s with
  | nil => exact hm
  | cons b bs ih => exact ih (s := s.rbWriteByte b) (Memory.write_wf _ b hm)

theorem rbWriteBytes_within {s : State} (bs : List Byte) (h : s.rbHead.toNat < s.params.rbCap)
    (hc : s.params.rbCap ≤ 65535) (hm : s.rbMem.within s.params.rbCap = true) :
    (s.rbWriteBytes bs).rbMem.within s.params.rbCap = true := by
  induction bs generalizing s with
  | nil => exact hm
  | cons b bs ih =>
    have h0 : 0 < s.params.rbCap := by omega
    exact ih (s := s.rbWriteByte b) (ringNext_lt h0 hc _) hc (Memory.write_within b h hm)

/-- RB_DEQUEUE's loop writes RB_TAIL only. -/
theorem rbReadBytes_frame {s t : State} {n : Nat} {bs : List Byte} (e : s.rbReadBytes n = .ok (bs, t)) :
    t = { s with rbTail := t.rbTail } ∧ bs.length = n := by
  induction n generalizing s bs with
  | zero => simp only [State.rbReadBytes, Except.ok.injEq, Prod.mk.injEq] at e; simp [← e.1, ← e.2]
  | succ n ih =>
    rw [State.rbReadBytes] at e
    split at e
    · cases e
    · split at e
      · cases e
      · rename_i b _ _ bs' t' e'
        simp only [Except.ok.injEq, Prod.mk.injEq] at e
        obtain ⟨rfl, rfl⟩ := e
        obtain ⟨h1, h2⟩ := ih e'
        refine ⟨?_, by simp [h2]⟩
        rw [h1]; rfl

/-- RB_DEQUEUE's loop returns the `n` bytes from RB_TAIL on and moves RB_TAIL past them, when they are in range and
written. -/
theorem rbReadBytes_ok {s : State} {n : Nat} (h : s.rbTail.toNat < s.params.rbCap) (hc : s.params.rbCap ≤ 65535)
    (hw : ∀ k < n, (s.rbMem.read ((s.rbTail.toNat + k) % s.params.rbCap)).isSome = true) :
    ∃ bs t, s.rbReadBytes n = .ok (bs, t) ∧ t = { s with rbTail := t.rbTail } ∧ bs.length = n ∧
      t.rbTail.toNat = (s.rbTail.toNat + n) % s.params.rbCap ∧
      ∀ k < n, bs[k]? = s.rbMem.read ((s.rbTail.toNat + k) % s.params.rbCap) := by
  induction n generalizing s with
  | zero => exact ⟨[], s, rfl, rfl, rfl, by simp [Nat.mod_eq_of_lt h], by simp⟩
  | succ n ih =>
    have h0 : 0 < s.params.rbCap := by omega
    have hr := hw 0 (by omega)
    rw [Nat.add_zero, Nat.mod_eq_of_lt h] at hr
    obtain ⟨b, hb⟩ := Option.isSome_iff_exists.1 hr
    have hread : s.rbRead s.rbTail.toNat = .ok b := by simp [State.rbRead, h, hb]
    obtain ⟨bs, t, e, ht, hl, htail, hbs⟩ := ih (s := s.rbTailNext) (ringNext_lt h0 hc _) hc
      (by
        intro k hk
        simp only [State.rbTailNext_rbTail, State.rbTailNext_params, State.rbTailNext_rbMem, ringNext_toNat h0 hc, ring_step]
        exact hw (k + 1) (by omega))
    simp only [State.rbTailNext_rbTail, State.rbTailNext_params, State.rbTailNext_rbMem, ringNext_toNat h0 hc, ring_step] at htail hbs
    refine ⟨b :: bs, t, by rw [State.rbReadBytes, hread]; simp only [e], by rw [ht]; rfl, by simp [hl], htail, ?_⟩
    intro k hk
    cases k with
    | zero => simp [Nat.mod_eq_of_lt h, hb]
    | succ k => simpa using hbs k (by omega)

/-- RB_DEQUEUE writes RB_TAIL and RB_COUNT only, and returns FRAME_LEN bytes (R133). -/
theorem rbDequeue_frame {s t : State} {frame : List Byte} (e : s.rbDequeue = .ok (frame, t)) :
    t = { s with rbTail := t.rbTail, rbCount := BitVec.ofNat 16 (s.rbCount.toNat - s.params.frameLen) } ∧
      frame.length = s.params.frameLen := by
  unfold State.rbDequeue at e
  split at e
  · cases e
  · rename_i frame' t' e'
    simp only [Except.ok.injEq, Prod.mk.injEq] at e
    obtain ⟨rfl, rfl⟩ := e
    obtain ⟨h1, h2⟩ := rbReadBytes_frame e'
    refine ⟨?_, h2⟩
    rw [h1]

/-- RB_DEQUEUE as R133 gives it, when a frame is held. -/
theorem rbDequeue_ok {s : State} (h : s.rbTail.toNat < s.params.rbCap) (hc : s.params.rbCap ≤ 65535)
    (hw : ∀ k < s.params.frameLen, (s.rbMem.read ((s.rbTail.toNat + k) % s.params.rbCap)).isSome = true) :
    ∃ frame t, s.rbDequeue = .ok (frame, t) ∧
      t = { s with rbTail := t.rbTail, rbCount := BitVec.ofNat 16 (s.rbCount.toNat - s.params.frameLen) } ∧
      frame.length = s.params.frameLen ∧
      t.rbTail.toNat = (s.rbTail.toNat + s.params.frameLen) % s.params.rbCap ∧
      ∀ k < s.params.frameLen, frame[k]? = s.rbMem.read ((s.rbTail.toNat + k) % s.params.rbCap) := by
  obtain ⟨bs, t, e, ht, hl, htail, hbs⟩ := rbReadBytes_ok h hc hw
  refine ⟨bs, { t with rbCount := BitVec.ofNat 16 (t.rbCount.toNat - t.params.frameLen) }, ?_, ?_, hl, htail, hbs⟩
  · simp only [State.rbDequeue, e]
  · rw [ht]

/-- RB_ENQUEUE writes RB_MEM, RB_HEAD and RB_COUNT only (R132). -/
theorem rbEnqueue_frame (s : State) (f : List Byte) :
    s.rbEnqueue f = { s with
      rbMem := (s.rbEnqueue f).rbMem
      rbHead := (s.rbEnqueue f).rbHead
      rbCount := BitVec.ofNat 16 (s.rbCount.toNat + s.params.frameLen) } := by
  simp only [State.rbEnqueue]
  conv_lhs => rw [rbWriteBytes_frame]

/-- The POB fill succeeds exactly when the bytes fit (R70), and then sets POB_MEM, POB_LEN and POB_PTR only. -/
theorem pobFill_ok {s t : State} {bytes : List Byte} :
    s.pobFill bytes = .ok t ↔ bytes.length ≤ s.params.pobCap ∧
      t = { s with pobMem := s.pobMem.writeFrom 0 bytes, pobLen := BitVec.ofNat 16 bytes.length, pobPtr := 0 } := by
  unfold State.pobFill
  split <;> simp_all [eq_comm]

end Sys2Proof.Machine
end

