-- ==== Sys2Proof/Laws/Sequencer.lean ====
section
/-! SUPPORT. What the steps of a TICK can do (R200 to R212), said once. -/

namespace Sys2Proof.Machine

/-! ## The phase step -/

/-- The phase step does one of five things (R203 to R206). -/
theorem phaseStep_cases {s t : State} {keyed : Bool} (e : s.phaseStep keyed = .ok t) :
    ((s.pobLen ≠ 0 ∨ s.seqState = .hang) ∧ t = s) ∨
    (s.pobLen = 0 ∧ s.seqState = .idle ∧ s.queued = true ∧ keyed = false ∧ s.cfgPreambleLen ≠ 0 ∧
      s.preambleFill = .ok t) ∨
    (s.pobLen = 0 ∧ s.seqState ≠ .hang ∧ s.queued = true ∧ s.coldStart keyed = false ∧ s.frameFill = .ok t) ∨
    (s.pobLen = 0 ∧ (s.seqState = .preamble ∨ s.seqState = .data) ∧ s.queued = false ∧ t = s.endOfData) ∨
    (s.pobLen = 0 ∧ s.seqState = .idle ∧ s.queued = false ∧ t = s) := by
  unfold State.phaseStep at e
  split at e
  · rename_i h
    split at e
    · rename_i hq
      split at e
      · rename_i hc
        simp only [State.coldStart, Bool.and_eq_true, decide_eq_true_eq, Bool.not_eq_true'] at hc
        exact .inr (.inl ⟨h.1, hc.1.1, hq, hc.1.2, hc.2, e⟩)
      · rename_i hc
        exact .inr (.inr (.inl ⟨h.1, h.2, hq, by simpa using hc, e⟩))
    · rename_i hq
      have hq : s.queued = false := by simpa using hq
      split at e
      · rename_i hp
        exact .inr (.inr (.inr (.inl ⟨h.1, hp, hq, by simpa [eq_comm] using e⟩)))
      · rename_i hp
        refine .inr (.inr (.inr (.inr ⟨h.1, ?_, hq, by simpa [eq_comm] using e⟩)))
        cases hs : s.seqState <;> simp_all
  · rename_i h
    refine .inl ⟨?_, by simpa [eq_comm] using e⟩
    by_cases hp : s.pobLen = 0
    · exact .inr (by simpa [hp] using h)
    · exact .inl hp

/-- A preamble fill writes POB_MEM, POB_LEN, POB_PTR and SEQ_STATE only (R204). -/
theorem preambleFill_ok {s t : State} : s.preambleFill = .ok t ↔
    s.cfgPreambleLen.toNat ≤ s.params.pobCap ∧
    t = { s with
      pobMem := s.pobMem.writeFrom 0 (List.replicate s.cfgPreambleLen.toNat s.params.syncByte)
      pobLen := s.cfgPreambleLen
      pobPtr := 0
      seqState := .preamble } := by
  unfold State.preambleFill State.pobFill
  rw [List.length_replicate]
  split
  · rename_i h
    split at h
    · cases h
    · rename_i h'
      simp [h']
  · rename_i h
    split at h
    · rename_i h'
      simp only [Except.ok.injEq] at h
      subst h
      simp [h', eq_comm]
    · cases h

/-- A frame fill dequeues one frame into the POB (R203). -/
theorem frameFill_ok {s t : State} : s.frameFill = .ok t ↔
    ∃ frame u, s.rbDequeue = .ok (frame, u) ∧ frame.length ≤ s.params.pobCap ∧
    t = { u with
      pobMem := s.pobMem.writeFrom 0 frame
      pobLen := BitVec.ofNat 16 frame.length
      pobPtr := 0
      seqState := .data } := by
  unfold State.frameFill
  constructor
  · intro e
    split at e
    · cases e
    · rename_i frame u hu
      split at e
      · cases e
      · rename_i v hv
        obtain ⟨h1, h2⟩ := pobFill_ok.1 hv
        have hf := (rbDequeue_frame hu).1
        refine ⟨frame, u, hu, ?_, ?_⟩
        · rw [hf] at h1; exact h1
        · simp only [Except.ok.injEq] at e
          have hm : u.pobMem = s.pobMem := by rw [hf]
          rw [← e, h2, hm]
  · rintro ⟨frame, u, hu, h1, h2⟩
    have hf := (rbDequeue_frame hu).1
    have hp : u.params = s.params := by rw [hf]
    have hm : u.pobMem = s.pobMem := by rw [hf]
    rw [hu]
    have hv := pobFill_ok (s := u) (bytes := frame)
      (t := { u with pobMem := u.pobMem.writeFrom 0 frame, pobLen := BitVec.ofNat 16 frame.length, pobPtr := 0 })
    have hv := hv.2 ⟨by rw [hp]; exact h1, rfl⟩
    simp only [hv, h2, hm]

/-! ## Emission -/

@[simp] theorem emitBytes_nil (s : State) : s.emitBytes [] = s := rfl
@[simp] theorem emitBytes_cons (s : State) (b : Byte) (bs : List Byte) :
    s.emitBytes (b :: bs) = (s.emitByte b).emitBytes bs := rfl

theorem emitBytes_frame (s : State) (bs : List Byte) :
    s.emitBytes bs = { s with
      filtMem := (s.emitBytes bs).filtMem, sinkWrites := (s.emitBytes bs).sinkWrites } := by
  induction bs generalizing s with
  | nil => rfl
  | cons b bs ih => rw [emitBytes_cons, ih]; rfl

theorem emitSilences_frame (s : State) (n : Nat) :
    s.emitSilences n = { s with
      filtMem := (s.emitSilences n).filtMem, sinkWrites := (s.emitSilences n).sinkWrites } := by
  induction n generalizing s with
  | zero => rfl
  | succ n ih => rw [State.emitSilences, ih]; rfl

/-- What goes out depends on the parameters, the delay line, the deviation flag and the writes so far, on nothing else. -/
theorem emitBytes_congr {s u : State} (bs : List Byte) (hp : s.params = u.params) (hf : s.filtMem = u.filtMem)
    (hl : s.cfgLodev = u.cfgLodev) (hw : s.sinkWrites = u.sinkWrites) :
    (s.emitBytes bs).filtMem = (u.emitBytes bs).filtMem ∧
      (s.emitBytes bs).sinkWrites = (u.emitBytes bs).sinkWrites := by
  induction bs generalizing s u with
  | nil => exact ⟨hf, hw⟩
  | cons b bs ih =>
    exact ih (s := s.emitByte b) (u := u.emitByte b) (by simpa [State.emitByte] using hp)
      (by simp [State.emitByte, hp, hf, hl]) (by simpa [State.emitByte] using hl)
      (by simp [State.emitByte, hp, hf, hl, hw])

theorem emitSilences_congr {s u : State} (n : Nat) (hp : s.params = u.params) (hf : s.filtMem = u.filtMem)
    (hw : s.sinkWrites = u.sinkWrites) :
    (s.emitSilences n).filtMem = (u.emitSilences n).filtMem ∧
      (s.emitSilences n).sinkWrites = (u.emitSilences n).sinkWrites := by
  induction n generalizing s u with
  | zero => exact ⟨hf, hw⟩
  | succ n ih =>
    exact ih (s := s.emitSilence) (u := u.emitSilence) (by simpa [State.emitSilence] using hp)
      (by simp [State.emitSilence, hp, hf]) (by simp [State.emitSilence, hp, hf, hw])

theorem emitBytes_length (s : State) (bs : List Byte) :
    (s.emitBytes bs).sinkWrites.length = s.sinkWrites.length + bs.length := by
  induction bs generalizing s with
  | nil => rfl
  | cons b bs ih => rw [emitBytes_cons, ih]; simp [State.emitByte]; omega

theorem emitSilences_length (s : State) (n : Nat) :
    (s.emitSilences n).sinkWrites.length = s.sinkWrites.length + n := by
  induction n generalizing s with
  | zero => rfl
  | succ n ih => rw [State.emitSilences, ih]; simp [State.emitSilence]; omega

theorem emitBytes_prefix (s : State) (bs : List Byte) : s.sinkWrites <+: (s.emitBytes bs).sinkWrites := by
  induction bs generalizing s with
  | nil => exact List.prefix_refl _
  | cons b bs ih =>
    refine List.IsPrefix.trans ?_ (ih (s.emitByte b))
    simp [State.emitByte]

theorem emitSilences_prefix (s : State) (n : Nat) : s.sinkWrites <+: (s.emitSilences n).sinkWrites := by
  induction n generalizing s with
  | zero => exact List.prefix_refl _
  | succ n ih =>
    refine List.IsPrefix.trans ?_ (ih s.emitSilence)
    simp [State.emitSilence]

/-! ## The drain loop -/

/-- A drain writes FILT_MEM, POB_LEN, POB_PTR, HANG_CNT and the sink only (R208 to R210). -/
theorem drain_frame {fuel space : Nat} {s t : State} (e : State.drain fuel space s = .ok t) :
    t = { s with
      filtMem := t.filtMem, sinkWrites := t.sinkWrites
      pobLen := t.pobLen, pobPtr := t.pobPtr, hangCnt := t.hangCnt } := by
  induction fuel generalizing space s with
  | zero => simp only [State.drain, Except.ok.injEq] at e; rw [← e]
  | succ fuel ih =>
    rw [State.drain] at e
    split at e
    · split at e
      · cases e
      · rename_i c _
        have hd : s.drainByte c = { s with
            filtMem := (s.drainByte c).filtMem, sinkWrites := (s.drainByte c).sinkWrites
            pobPtr := (s.drainByte c).pobPtr, hangCnt := (s.drainByte c).hangCnt } := by
          rw [State.drainByte, State.hangReload]; split <;> rfl
        split at e
        · simp only [Except.ok.injEq] at e
          rw [← e, State.pobClear, hd]
        · have := ih e
          rw [this, hd]
    · simp only [Except.ok.injEq] at e; rw [← e]

/-- The state after the bytes `bs` of the POB have gone out in one TICK (R208, R209, R210). -/
def drained (s : State) (bs : List Byte) : State :=
  { s with
    filtMem := (s.emitBytes bs).filtMem
    sinkWrites := (s.emitBytes bs).sinkWrites
    pobLen := if s.pobPtr.toNat + bs.length < s.pobLen.toNat then s.pobLen else 0
    pobPtr := if s.pobPtr.toNat + bs.length < s.pobLen.toNat then s.pobPtr + BitVec.ofNat 16 bs.length else 0
    hangCnt := if bs ≠ [] ∧ s.seqState = .data ∧ s.cfgDuplex = true then s.cfgHangDur else s.hangCnt }

theorem bv16_succ_toNat {x : BitVec 16} (h : x.toNat < 65535) : (x + 1).toNat = x.toNat + 1 := by
  have h1 : (1 : BitVec 16).toNat = 1 := rfl
  rw [BitVec.toNat_add, h1]; omega

/-- Draining byte by byte. -/
theorem drained_cons {s : State} {c : Byte} {bs : List Byte} (h : s.pobPtr.toNat < 65535) :
    drained s (c :: bs) = drained (s.drainByte c) bs := by
  obtain ⟨e1, e2⟩ := emitBytes_congr (s := s.drainByte c) (u := s.emitByte c) bs
    (by simp [State.emitByte]) (by simp) (by simp [State.emitByte]) (by simp)
  have hn : (s.pobPtr + 1).toNat = s.pobPtr.toNat + 1 := bv16_succ_toNat h
  have hp : s.pobPtr + BitVec.ofNat 16 (bs.length + 1) = s.pobPtr + 1 + BitVec.ofNat 16 bs.length := by
    rw [BitVec.ofNat_add, BitVec.add_comm (BitVec.ofNat 16 bs.length), ← BitVec.add_assoc]; rfl
  have hl : s.pobPtr.toNat + (bs.length + 1) = s.pobPtr.toNat + 1 + bs.length := by omega
  simp only [drained, State.mk.injEq, emitBytes_cons, e1, e2, State.drainByte_params, State.drainByte_seqState,
    State.drainByte_rbMem, State.drainByte_rbHead, State.drainByte_rbTail, State.drainByte_rbCount,
    State.drainByte_pobMem, State.drainByte_pobLen, State.drainByte_pobPtr, State.drainByte_cfgLodev,
    State.drainByte_cfgPreambleLen, State.drainByte_cfgHangDur, State.drainByte_cfgDuplex, State.drainByte_resp,
    State.drainByte_responses, State.drainByte_hostPort, State.drainByte_sinkSamples, State.drainByte_sinkDraws,
    State.drainByte_hangCnt, List.length_cons, hn, hp, hl, true_and, and_true]
  by_cases hd : s.seqState = .data ∧ s.cfgDuplex = true <;> simp [hd]

/-- Draining the last byte clears the POB (R210). -/
theorem drained_last {s : State} {c : Byte} (h : s.pobLen.toNat ≤ s.pobPtr.toNat + 1) :
    drained s [c] = (s.drainByte c).pobClear := by
  have hn : ¬ (s.pobPtr.toNat + 1 < s.pobLen.toNat) := by omega
  simp only [drained, List.length_singleton, hn, if_false, State.pobClear, State.drainByte, State.hangReload]
  by_cases hd : s.seqState = .data ∧ s.cfgDuplex = true <;>
    simp [hd, State.emitByte, State.emitBlock, State.sinkWrite]

theorem maxBlocks_of_le {space : Nat} (h : space ≤ 40) : maxBlocks space = 0 := by
  simp only [maxBlocks]; omega

theorem maxBlocks_step {space : Nat} (h : 40 < space) : maxBlocks space = maxBlocks (space - 40) + 1 := by
  simp only [maxBlocks]; omega

theorem drained_nil {s : State} (hp : s.pobPtr.toNat < s.pobLen.toNat) : drained s [] = s := by
  simp [drained, hp]

/-- R208 to R210: with written bytes, the drain takes as many bytes as the space and the buffer allow. -/
theorem drain_eq {fuel space : Nat} {s : State} {bs : List Byte} (hf : space ≤ 40 * fuel + 40)
    (hp : s.pobPtr.toNat < s.pobLen.toNat) (hl : bs.length = s.pobLen.toNat - s.pobPtr.toNat)
    (hc : s.pobLen.toNat ≤ s.params.pobCap)
    (hb : ∀ j < bs.length, s.pobMem.read (s.pobPtr.toNat + j) = bs[j]?) :
    State.drain fuel space s = .ok (drained s (bs.take (maxBlocks space))) := by
  induction fuel generalizing space s bs with
  | zero => rw [maxBlocks_of_le (show space ≤ 40 by omega), List.take_zero, drained_nil hp]; rfl
  | succ fuel ih =>
    rw [State.drain]
    split
    · rename_i hs
      rw [maxBlocks_step hs]
      cases bs with
      | nil => simp at hl; omega
      | cons c bs =>
        have hlen := s.pobLen.isLt
        have hread : s.pobRead s.pobPtr.toNat = .ok c := by
          have := hb 0 (by simp)
          rw [Nat.add_zero] at this
          simp [State.pobRead, show s.pobPtr.toNat < s.params.pobCap by omega, this]
        have hnext : (s.drainByte c).pobPtr.toNat = s.pobPtr.toNat + 1 := by
          rw [State.drainByte_pobPtr]; exact bv16_succ_toNat (by omega)
        simp only [List.length_cons] at hl
        simp only [hread]
        split
        · rename_i hle
          rw [BitVec.le_def, hnext, State.drainByte_pobLen] at hle
          have hbs : bs = [] := List.eq_nil_of_length_eq_zero (by omega)
          subst hbs
          rw [List.take_succ_cons, List.take_nil, drained_last hle]
        · rename_i hle
          rw [BitVec.le_def, hnext, State.drainByte_pobLen] at hle
          rw [ih (space := space - 40) (s := s.drainByte c) (bs := bs) (by omega)
            (by rw [hnext, State.drainByte_pobLen]; omega)
            (by rw [hnext, State.drainByte_pobLen]; omega) (by simpa using hc)
            (by
              intro j hj
              have := hb (j + 1) (by simpa using hj)
              rw [hnext]
              simpa [Nat.add_assoc, Nat.add_comm 1 j] using this),
            List.take_succ_cons, drained_cons (by omega)]
    · rename_i hs
      rw [maxBlocks_of_le (show space ≤ 40 by omega), List.take_zero, drained_nil hp]

/-- Any two bounds on the number of turns that are large enough give the same drain. -/
theorem drain_fuel {f g space : Nat} {s : State} (hf : space ≤ 40 * f + 40) (hg : space ≤ 40 * g + 40) :
    State.drain f space s = State.drain g space s := by
  induction f generalizing g space s with
  | zero =>
    cases g with
    | zero => rfl
    | succ g => rw [State.drain, State.drain, if_neg (by omega)]
  | succ f ih =>
    cases g with
    | zero => rw [State.drain, State.drain, if_neg (by omega)]
    | succ g =>
      rw [State.drain, State.drain]
      split
      · split
        · rfl
        · split
          · rfl
          · exact ih (by omega) (by omega)
      · rfl

/-- What a drained state has sent is what its bytes send, from any state with the same parameters, delay line, deviation and
writes so far. -/
theorem drained_emits (s u : State) (bs : List Byte) (hp : u.params = s.params) (hf : u.filtMem = s.filtMem)
    (hl : u.cfgLodev = s.cfgLodev) (hw : u.sinkWrites = s.sinkWrites) :
    (drained u bs).sinkWrites = (s.emitBytes bs).sinkWrites ∧ (drained u bs).filtMem = (s.emitBytes bs).filtMem :=
  ⟨(emitBytes_congr bs hp hf hl hw).2, (emitBytes_congr bs hp hf hl hw).1⟩

/-! ## The hang loop -/

/-- The state after `k` silence steps of one TICK (R211, R212). -/
def silenced (s : State) (k : Nat) : State :=
  { s with
    filtMem := (s.emitSilences k).filtMem
    sinkWrites := (s.emitSilences k).sinkWrites
    hangCnt := s.hangCnt - BitVec.ofNat 32 k
    seqState := if k = s.hangCnt.toNat then .idle else s.seqState }

theorem bv32_pred_toNat {x : BitVec 32} (h : x ≠ 0) : (x - 1).toNat = x.toNat - 1 := by
  have h1 : (1 : BitVec 32).toNat = 1 := rfl
  have h0 : x.toNat ≠ 0 := fun e => h (BitVec.eq_of_toNat_eq e)
  have := x.isLt
  rw [BitVec.toNat_sub, h1]; omega

theorem silenced_zero {s : State} (h : s.hangCnt ≠ 0) : silenced s 0 = s := by
  have h0 : ¬ (0 = s.hangCnt.toNat) := fun e => h (BitVec.eq_of_toNat_eq e.symm)
  simp [silenced, State.emitSilences, h0]

/-- Silence step by silence step. -/
theorem silenced_succ {s : State} {k : Nat} (h : s.hangCnt ≠ 0) : silenced s (k + 1) = silenced s.silenceStep k := by
  have h0 : s.hangCnt.toNat ≠ 0 := fun e => h (BitVec.eq_of_toNat_eq e)
  obtain ⟨e1, e2⟩ := emitSilences_congr (s := s.silenceStep) (u := s.emitSilence) k
    (by simp [State.emitSilence]) (by simp) (by simp)
  have hn := bv32_pred_toNat h
  have hk : (k + 1 = s.hangCnt.toNat) = (k = (s.hangCnt - 1).toNat) := by rw [hn]; apply propext; omega
  have hs : s.hangCnt - BitVec.ofNat 32 (k + 1) = s.hangCnt - 1 - BitVec.ofNat 32 k := by
    have : BitVec.ofNat 32 (k + 1) = 1 + BitVec.ofNat 32 k := by
      rw [BitVec.ofNat_add, BitVec.add_comm]; rfl
    rw [this]; ring
  simp [silenced, State.emitSilences, e1, e2, hk, hs]

/-- Spending the whole count ends the hang (R212). -/
theorem silenced_last {s : State} (h : s.silenceStep.hangCnt = 0) (h' : s.hangCnt ≠ 0) :
    silenced s 1 = { s.silenceStep with seqState := .idle } := by
  rw [State.silenceStep_hangCnt] at h
  have h1 : s.hangCnt.toNat = 1 := by
    have := bv32_pred_toNat h'
    rw [h] at this
    have h0 : s.hangCnt.toNat ≠ 0 := fun e => h' (BitVec.eq_of_toNat_eq e)
    have hz : (0 : BitVec 32).toNat = 0 := rfl
    omega
  simp [silenced, State.emitSilences, h1, State.silenceStep, State.emitSilence, State.emitBlock, State.sinkWrite]

/-- R211, R212: the hang loop takes as many silence steps as the space and the count allow. -/
theorem hangLoop_eq {fuel space : Nat} {s : State} (hf : space ≤ 40 * fuel + 40) (h : s.hangCnt ≠ 0) :
    State.hangLoop fuel space s = silenced s (min (maxBlocks space) s.hangCnt.toNat) := by
  induction fuel generalizing space s with
  | zero =>
    rw [maxBlocks_of_le (show space ≤ 40 by omega), Nat.zero_min, silenced_zero h]; rfl
  | succ fuel ih =>
    have h0 : s.hangCnt.toNat ≠ 0 := fun e => h (BitVec.eq_of_toNat_eq e)
    have hn := bv32_pred_toNat h
    rw [State.hangLoop]
    split
    · rename_i hs
      rw [maxBlocks_step hs]
      split
      · rename_i hz
        rw [← silenced_last hz h]
        have : s.hangCnt.toNat = 1 := by
          rw [State.silenceStep_hangCnt] at hz
          rw [hz] at hn
          have hz : (0 : BitVec 32).toNat = 0 := rfl
          omega
        rw [this]; congr 1; omega
      · rename_i hz
        rw [ih (by omega) hz, ← silenced_succ h, State.silenceStep_hangCnt, hn]
        congr 1; omega
    · rw [maxBlocks_of_le (show space ≤ 40 by omega), Nat.zero_min, silenced_zero h]

/-- What a silenced state has sent is what its silence steps send. -/
theorem silenced_emits (s u : State) (n : Nat) (hp : u.params = s.params) (hf : u.filtMem = s.filtMem)
    (hw : u.sinkWrites = s.sinkWrites) :
    (silenced u n).sinkWrites = (s.emitSilences n).sinkWrites ∧ (silenced u n).filtMem = (s.emitSilences n).filtMem :=
  ⟨(emitSilences_congr n hp hf hw).2, (emitSilences_congr n hp hf hw).1⟩

theorem hangLoop_fuel {f g space : Nat} {s : State} (hf : space ≤ 40 * f + 40) (hg : space ≤ 40 * g + 40) :
    State.hangLoop f space s = State.hangLoop g space s := by
  induction f generalizing g space s with
  | zero =>
    cases g with
    | zero => rfl
    | succ g => rw [State.hangLoop, State.hangLoop, if_neg (by omega)]
  | succ f ih =>
    cases g with
    | zero => rw [State.hangLoop, State.hangLoop, if_neg (by omega)]
    | succ g =>
      rw [State.hangLoop, State.hangLoop]
      split
      · split
        · rfl
        · exact ih (by omega) (by omega)
      · rfl

/-- The hang loop writes FILT_MEM, HANG_CNT, SEQ_STATE and the sink only (R211, R212). -/
theorem hangLoop_frame {fuel space : Nat} (s : State) :
    State.hangLoop fuel space s = { s with
      filtMem := (State.hangLoop fuel space s).filtMem
      sinkWrites := (State.hangLoop fuel space s).sinkWrites
      hangCnt := (State.hangLoop fuel space s).hangCnt
      seqState := (State.hangLoop fuel space s).seqState } := by
  induction fuel generalizing space s with
  | zero => rfl
  | succ fuel ih =>
    rw [State.hangLoop]
    split
    · split
      · rfl
      · rw [ih]; rfl
    · rfl

end Sys2Proof.Machine
end

