-- ==== Sys2Proof/Laws/Invariant.lean ====
section
/-! SUPPORT. Each part of a step keeps the invariants of Safety.lean, and inside them no part faults. -/

namespace Sys2Proof.Machine

/-- A run of written bytes is a list of bytes. -/
theorem bytes_of_written {m : Memory} {i n : Nat} (h : ∀ j < n, (m.read (i + j)).isSome = true) :
    ∃ bs : List Byte, bs.length = n ∧ ∀ j < bs.length, m.read (i + j) = bs[j]? := by
  refine ⟨(List.range n).map fun j => (m.read (i + j)).getD 0, by simp, ?_⟩
  intro j hj
  simp only [List.length_map, List.length_range] at hj
  obtain ⟨b, hb⟩ := Option.isSome_iff_exists.1 (h j hj)
  simp [hj, hb]

theorem State.Inv.cap_pos {s : State} (h : s.Inv) : 0 < s.params.rbCap := by
  have := h.head_lt; omega

theorem State.Inv.cap_le {s : State} (h : s.Inv) : s.params.rbCap ≤ 65535 := h.legal.2.2.1

theorem State.Inv.frame_pos {s : State} (h : s.Inv) : 1 ≤ s.params.frameLen := h.legal.1

theorem State.Inv.frame_le_pobCap (s : State) : s.params.frameLen ≤ s.params.pobCap := by
  simp only [Params.pobCap]; omega

/-- The state after construction with legal parameters meets the invariants. -/
theorem resetOf_inv {p : Params} (h : p.Legal) : (State.resetOf p).Inv := by
  obtain ⟨h1, h2, h3, h4, h5, h6⟩ := h
  have z : (0 : BitVec 16).toNat = 0 := rfl
  have z' : (0 : BitVec 32).toNat = 0 := rfl
  constructor <;> simp [State.resetOf, Memory.wf, Memory.risingFrom, Memory.within, Params.Legal] <;> omega

/-- The invariants do not speak of RESP, the two recorded sequences, the ports or the filter. -/
theorem State.Inv.congr {s t : State} (h : s.Inv)
    (e : t = { s with
      filtMem := t.filtMem, cfgLodev := t.cfgLodev, cfgDuplex := t.cfgDuplex, resp := t.resp
      sinkWrites := t.sinkWrites, responses := t.responses, hostPort := t.hostPort
      sinkSamples := t.sinkSamples, sinkDraws := t.sinkDraws }) : t.Inv := by
  rw [e]
  exact ⟨h.legal, h.head_lt, h.tail_lt, h.count_le, h.head_eq, h.count_mod, h.rb_wf, h.rb_within, h.rb_written,
    h.pob_wf, h.pob_within, h.pob_written, h.pob_le, h.ptr_zero, h.ptr_lt, h.hang, h.idle, h.preamble_queued,
    h.preamble_le, h.hang_dur_le⟩

theorem respond_inv {s : State} (h : s.Inv) (status : Status) (data : BitVec 16) : (s.respond status data).Inv :=
  h.congr rfl

theorem takeEvent_inv {s : State} (h : s.Inv) : s.takeEvent.Inv := h.congr rfl

theorem afterSinkSample_inv {s : State} (h : s.Inv) : s.afterSinkSample.Inv := by
  refine h.congr ?_
  unfold State.afterSinkSample; split <;> rfl

theorem applyRst_inv {s : State} (h : s.params.Legal) : s.applyRst.Inv := (resetOf_inv h).congr rfl

/-- An accepted frame keeps the invariants (R36, R132). -/
theorem rbEnqueue_inv {s : State} (h : s.Inv) {f : List Byte} (hl : f.length = s.params.frameLen)
    (hr : s.params.frameLen ≤ s.rbFree) : (s.rbEnqueue f).Inv := by
  have hc := h.cap_le
  have h0 := h.cap_pos
  have hcl := h.count_le
  simp only [State.rbFree] at hr
  have hn : (BitVec.ofNat 16 (s.rbCount.toNat + s.params.frameLen)).toNat = s.rbCount.toNat + s.params.frameLen := by
    rw [BitVec.toNat_ofNat]; omega
  have hhead := rbWriteBytes_head f h.head_lt hc
  have hcm := h.count_mod
  rw [rbEnqueue_frame]
  constructor <;> dsimp only
  · exact h.legal
  · show (s.rbWriteBytes f).rbHead.toNat < _
    rw [hhead]; exact Nat.mod_lt _ h0
  · exact h.tail_lt
  · rw [hn]; omega
  · show (s.rbWriteBytes f).rbHead.toNat = _
    rw [hhead, hn, h.head_eq, hl, Nat.mod_add_mod]; congr 1; omega
  · rw [hn, Nat.add_mod_right, hcm]
  · exact rbWriteBytes_wf f h.rb_wf
  · exact rbWriteBytes_within f h.head_lt hc h.rb_within
  · intro k hk
    rw [hn] at hk
    show ((s.rbWriteBytes f).rbMem.read _).isSome = true
    by_cases hk' : k < s.rbCount.toNat
    · rw [rbWriteBytes_read_other h.head_lt hc]
      · exact h.rb_written k hk'
      · intro j hj e
        rw [h.head_eq, Nat.mod_add_mod, Nat.add_assoc] at e
        have := ring_slot_inj (by omega) (by omega) e
        omega
    · have e : (s.rbTail.toNat + k) % s.params.rbCap =
          (s.rbHead.toNat + (k - s.rbCount.toNat)) % s.params.rbCap := by
        rw [h.head_eq, Nat.mod_add_mod]; congr 1; omega
      rw [e, rbWriteBytes_read_new h.head_lt hc (by omega) _ (by omega)]
      simp; omega
  · exact h.pob_wf
  · exact h.pob_within
  · exact h.pob_written
  · exact h.pob_le
  · exact h.ptr_zero
  · exact h.ptr_lt
  · exact h.hang
  · exact h.idle
  · intro hp
    have := h.preamble_queued hp
    simp only [State.queued, decide_eq_true_eq] at this ⊢
    rw [hn]; omega
  · exact h.preamble_le
  · exact h.hang_dur_le

/-- SUBMIT_FRAME keeps the invariants. -/
theorem submitFrame_inv {s : State} (h : s.Inv) {len : BitVec 16} {f : List Byte} (hl : payloadMatches len f = true) :
    (s.submitFrame len f).Inv := by
  unfold State.submitFrame
  split
  · exact respond_inv h _ _
  · rename_i e
    refine respond_inv (rbEnqueue_inv h ?_ ?_) _ _
    · simp only [State.submitError] at e
      simp only [payloadMatches, beq_iff_eq] at hl
      split at e
      · cases e
      · rename_i hn
        rw [hl]; exact not_not.1 hn
    · simp only [State.submitError] at e
      split at e
      · cases e
      · split at e
        · cases e
        · omega

/-- The preamble fill keeps the invariants (R204). -/
theorem preambleFill_inv {s : State} (h : s.Inv) (hq : s.queued = true) (hn : s.cfgPreambleLen ≠ 0) :
    ∃ t, s.preambleFill = .ok t ∧ t.Inv := by
  have hp := h.preamble_le
  have hfit : s.cfgPreambleLen.toNat ≤ s.params.pobCap := by simp only [Params.pobCap]; omega
  have hpos : s.cfgPreambleLen.toNat ≠ 0 := fun e => hn (BitVec.eq_of_toNat_eq e)
  have z : (0 : BitVec 16).toNat = 0 := rfl
  refine ⟨_, preambleFill_ok.2 ⟨hfit, rfl⟩, ?_⟩
  constructor <;> dsimp only
  · exact h.legal
  · exact h.head_lt
  · exact h.tail_lt
  · exact h.count_le
  · exact h.head_eq
  · exact h.count_mod
  · exact h.rb_wf
  · exact h.rb_within
  · exact h.rb_written
  · exact Memory.writeFrom_wf _ _ h.pob_wf
  · exact Memory.writeFrom_within (by simpa using hfit) h.pob_within
  · intro j hj
    rw [Memory.read_writeFrom]
    simp [hj]
  · exact hfit
  · intro e; exact absurd e hn
  · intro _; rw [z]; omega
  · intro e; cases e
  · intro e; cases e
  · intro _; exact hq
  · exact hp
  · exact h.hang_dur_le

/-- The frame fill keeps the invariants (R203). -/
theorem frameFill_inv {s : State} (h : s.Inv) (hq : s.queued = true) : ∃ t, s.frameFill = .ok t ∧ t.Inv := by
  have hc := h.cap_le
  have h0 := h.cap_pos
  have hf1 := h.frame_pos
  have hcl := h.count_le
  have hcm := h.count_mod
  have hfit := State.Inv.frame_le_pobCap s
  have hcap : s.params.frameLen ≤ s.params.rbCap := h.legal.2.1
  have z : (0 : BitVec 16).toNat = 0 := rfl
  simp only [State.queued, decide_eq_true_eq] at hq
  obtain ⟨frame, u, e, hu, hl, htail, hbs⟩ := rbDequeue_ok h.tail_lt hc
    (fun k hk => h.rb_written k (by omega))
  have hn : (BitVec.ofNat 16 (s.rbCount.toNat - s.params.frameLen)).toNat = s.rbCount.toNat - s.params.frameLen := by
    rw [BitVec.toNat_ofNat]; omega
  have hln : (BitVec.ofNat 16 frame.length).toNat = s.params.frameLen := by
    rw [BitVec.toNat_ofNat, hl]; omega
  refine ⟨_, frameFill_ok.2 ⟨frame, u, e, by omega, rfl⟩, ?_⟩
  rw [hu]
  constructor <;> dsimp only
  · exact h.legal
  · exact h.head_lt
  · rw [htail]; exact Nat.mod_lt _ h0
  · rw [hn]; omega
  · rw [h.head_eq, htail, hn, Nat.mod_add_mod]; congr 1; omega
  · rw [hn]; exact Nat.mod_eq_zero_of_dvd (Nat.dvd_sub (Nat.dvd_of_mod_eq_zero hcm) (Nat.dvd_refl _))
  · exact h.rb_wf
  · exact h.rb_within
  · intro k hk
    rw [hn] at hk
    rw [htail, Nat.mod_add_mod, Nat.add_assoc]
    exact h.rb_written _ (by omega)
  · exact Memory.writeFrom_wf _ _ h.pob_wf
  · exact Memory.writeFrom_within (by omega) h.pob_within
  · intro j hj
    rw [hln] at hj
    rw [Memory.read_writeFrom]
    simp [hl, hj]
  · rw [hln]; exact hfit
  · intro _; rfl
  · intro _; rw [hln, z]; exact hf1
  · intro e'; cases e'
  · intro e'; cases e'
  · intro e'; cases e'
  · exact h.preamble_le
  · exact h.hang_dur_le

/-- The end-of-data decision keeps the invariants (R205). -/
theorem endOfData_inv {s : State} (h : s.Inv) (hp : s.pobLen = 0) : s.endOfData.Inv := by
  constructor <;> simp only [State.endOfData_params, State.endOfData_rbHead, State.endOfData_rbTail,
    State.endOfData_rbCount, State.endOfData_rbMem, State.endOfData_pobMem, State.endOfData_pobLen,
    State.endOfData_pobPtr, State.endOfData_seqState, State.endOfData_hangCnt, State.endOfData_cfgPreambleLen,
    State.endOfData_cfgHangDur]
  · exact h.legal
  · exact h.head_lt
  · exact h.tail_lt
  · exact h.count_le
  · exact h.head_eq
  · exact h.count_mod
  · exact h.rb_wf
  · exact h.rb_within
  · exact h.rb_written
  · exact h.pob_wf
  · exact h.pob_within
  · exact h.pob_written
  · exact h.pob_le
  · exact h.ptr_zero
  · exact h.ptr_lt
  · split
    · rename_i hd; exact fun _ => ⟨hd.2, hp⟩
    · intro e; cases e
  · split
    · intro e; cases e
    · exact fun _ => ⟨rfl, hp⟩
  · split <;> intro e <;> cases e
  · exact h.preamble_le
  · exact h.hang_dur_le

/-- Inside the invariants the phase step does not fault, and it keeps them. -/
theorem phaseStep_inv {s : State} (h : s.Inv) (keyed : Bool) : ∃ t, s.phaseStep keyed = .ok t ∧ t.Inv := by
  unfold State.phaseStep
  split
  · rename_i hc
    split
    · rename_i hq
      split
      · rename_i hcold
        simp only [State.coldStart, Bool.and_eq_true, decide_eq_true_eq] at hcold
        exact preambleFill_inv h hq hcold.2
      · exact frameFill_inv h hq
    · split
      · exact ⟨_, rfl, endOfData_inv h hc.1⟩
      · exact ⟨_, rfl, h⟩
  · exact ⟨_, rfl, h⟩

/-- The drained state keeps the invariants (R208 to R210). -/
theorem drained_inv {s : State} (h : s.Inv) (hp : s.pobLen ≠ 0) {bs : List Byte}
    (hl : bs.length ≤ s.pobLen.toNat - s.pobPtr.toNat) : (drained s bs).Inv := by
  have hptr := h.ptr_lt hp
  have hlen := s.pobLen.isLt
  have z : (0 : BitVec 16).toNat = 0 := rfl
  have hne : ∀ x : SeqState, s.seqState = x → x ≠ .hang ∧ x ≠ .idle := by
    intro x hx
    constructor <;> intro e <;> subst e
    · exact hp (h.hang hx).2
    · exact hp (h.idle hx).2
  have hadd : (s.pobPtr + BitVec.ofNat 16 bs.length).toNat = s.pobPtr.toNat + bs.length := by
    rw [BitVec.toNat_add, BitVec.toNat_ofNat]; omega
  constructor <;> dsimp only [drained]
  · exact h.legal
  · exact h.head_lt
  · exact h.tail_lt
  · exact h.count_le
  · exact h.head_eq
  · exact h.count_mod
  · exact h.rb_wf
  · exact h.rb_within
  · exact h.rb_written
  · exact h.pob_wf
  · exact h.pob_within
  · split
    · exact h.pob_written
    · intro j hj; rw [z] at hj; omega
  · split
    · exact h.pob_le
    · rw [z]; omega
  · split
    · intro e; exact absurd e hp
    · intro _; rfl
  · split
    · intro _; rw [hadd]; assumption
    · intro e; exact absurd rfl e
  · intro e; exact absurd rfl (hne _ e).1
  · intro e; exact absurd rfl (hne _ e).2
  · exact h.preamble_queued
  · exact h.preamble_le
  · exact h.hang_dur_le

/-- The silenced state keeps the invariants (R211, R212). -/
theorem silenced_inv {s : State} (h : s.Inv) (hh : s.seqState = .hang) {k : Nat} (hk : k ≤ s.hangCnt.toNat) :
    (silenced s k).Inv := by
  obtain ⟨hc, hp⟩ := h.hang hh
  have hlt := s.hangCnt.isLt
  have hsub : (s.hangCnt - BitVec.ofNat 32 k).toNat = s.hangCnt.toNat - k := by
    rw [BitVec.toNat_sub, BitVec.toNat_ofNat]; omega
  have z : (0 : BitVec 32).toNat = 0 := rfl
  constructor <;> dsimp only [silenced]
  · exact h.legal
  · exact h.head_lt
  · exact h.tail_lt
  · exact h.count_le
  · exact h.head_eq
  · exact h.count_mod
  · exact h.rb_wf
  · exact h.rb_within
  · exact h.rb_written
  · exact h.pob_wf
  · exact h.pob_within
  · exact h.pob_written
  · exact h.pob_le
  · exact h.ptr_zero
  · exact h.ptr_lt
  · split
    · intro e; cases e
    · intro _
      refine ⟨?_, hp⟩
      rw [ne_eq, ← BitVec.toNat_inj, hsub, z]; omega
  · split
    · intro _
      refine ⟨?_, hp⟩
      rw [← BitVec.toNat_inj, hsub, z]; omega
    · rw [hh]; intro e; cases e
  · split
    · intro e; cases e
    · rw [hh]; intro e; cases e
  · exact h.preamble_le
  · exact h.hang_dur_le

/-- The emission step inside the invariants: the bytes or the silence steps that the space allows, or nothing. -/
theorem emissionStep_eq {s : State} (h : s.Inv) (space : Nat) :
    (s.pobLen ≠ 0 ∧ ∃ bs : List Byte, bs.length = s.pobLen.toNat - s.pobPtr.toNat ∧
      (∀ j < bs.length, s.pobMem.read (s.pobPtr.toNat + j) = bs[j]?) ∧
      s.emissionStep space = .ok (drained s (bs.take (maxBlocks space)))) ∨
    (s.pobLen = 0 ∧ s.seqState = .hang ∧
      s.emissionStep space = .ok (silenced s (min (maxBlocks space) s.hangCnt.toNat))) ∨
    (s.pobLen = 0 ∧ s.seqState ≠ .hang ∧ s.emissionStep space = .ok s) := by
  unfold State.emissionStep
  split
  · rename_i hp
    have hptr := h.ptr_lt hp
    obtain ⟨bs, hl, hb⟩ := bytes_of_written (m := s.pobMem) (i := s.pobPtr.toNat)
      (n := s.pobLen.toNat - s.pobPtr.toNat) (fun j hj => h.pob_written _ (by omega))
    exact .inl ⟨hp, bs, hl, hb, drain_eq (by omega) hptr hl h.pob_le hb⟩
  · rename_i hp
    have hp : s.pobLen = 0 := not_not.1 hp
    split
    · rename_i hh
      exact .inr (.inl ⟨hp, hh, by rw [hangLoop_eq (by omega) (h.hang hh).1]⟩)
    · rename_i hh
      exact .inr (.inr ⟨hp, hh, rfl⟩)

/-- Inside the invariants the emission step does not fault, and it keeps them. -/
theorem emissionStep_inv {s : State} (h : s.Inv) (space : Nat) : ∃ t, s.emissionStep space = .ok t ∧ t.Inv := by
  rcases emissionStep_eq h space with ⟨hp, bs, hl, -, e⟩ | ⟨-, hh, e⟩ | ⟨-, -, e⟩
  · exact ⟨_, e, drained_inv h hp (by rw [List.length_take]; omega)⟩
  · exact ⟨_, e, silenced_inv h hh (Nat.min_le_right _ _)⟩
  · exact ⟨_, e, h⟩

/-- Inside the invariants a TICK's body does not fault, and it keeps them. -/
theorem tickBody_inv {s : State} (h : s.Inv) : ∃ t, s.tickBody = .ok t ∧ t.Inv := by
  obtain ⟨t, e, ht⟩ := phaseStep_inv (afterSinkSample_inv h) s.sinkSample.keyed
  obtain ⟨u, e', hu⟩ := emissionStep_inv ht (operand s.sinkSample.freeSpace)
  exact ⟨u, by simp only [State.tickBody, e, e'], hu⟩

end Sys2Proof.Machine
end

