-- ==== Sys2Proof/Laws/PerInstr.lean ====
section
/-! SUPPORT. Families of statements made per instruction (LAWS.json). -/

namespace Sys2Proof.Laws

open Sys2Proof.Machine

/-- The command word of every instruction, whatever its operands, is a word of its row of spec/opcode_table.json. -/
def EncodesAsRow.Statement (i : Instr) : Prop := encodeWord i &&& (tableRow i).mask = (tableRow i).matchBits

theorem EncodesAsRow.submitFrame (len : BitVec 16) (payload : List Byte) :
    EncodesAsRow.Statement (.submitFrame len payload) := by
  have := len.isLt
  show encodeWord _ &&& (BitVec.allOnes 32 <<< 16) = 0x10000000#32
  rw [← BitVec.toNat_inj, and_mask, toNat_encode_submitFrame, BitVec.toNat_ofNat]
  omega

theorem EncodesAsRow.tick : EncodesAsRow.Statement .tick := by
  unfold EncodesAsRow.Statement; decide

theorem EncodesAsRow.setPreambleDelay (delay : BitVec 8) : EncodesAsRow.Statement (.setPreambleDelay delay) := by
  have := delay.isLt
  show encodeWord _ &&& (BitVec.allOnes 32 <<< 8) = 0x30000000#32
  rw [← BitVec.toNat_inj, and_mask, toNat_encode_setPreambleDelay, BitVec.toNat_ofNat]
  omega

theorem EncodesAsRow.setDevHang (lodev : Bool) (hangUnits : BitVec 8) :
    EncodesAsRow.Statement (.setDevHang lodev hangUnits) := by
  have := hangUnits.isLt
  have := Bool.toNat_le lodev
  show encodeWord _ &&& (BitVec.allOnes 32 <<< 9) = 0x40000000#32
  rw [← BitVec.toNat_inj, and_mask, toNat_encode_setDevHang, BitVec.toNat_ofNat]
  omega

theorem EncodesAsRow.getQueueCap : EncodesAsRow.Statement .getQueueCap := by
  unfold EncodesAsRow.Statement; decide

theorem EncodesAsRow.setDuplex (duplex : Bool) : EncodesAsRow.Statement (.setDuplex duplex) := by
  unfold EncodesAsRow.Statement; revert duplex; decide

end Sys2Proof.Laws
end

