-- ==== Sys2Proof/Laws/Step.lean ====
section
/-! SUPPORT. What a step can do, said once: the inversion of `step`, of a command, and of TICK. -/

namespace Sys2Proof.Machine

/-- The phase step writes SEQ_STATE, HANG_CNT, RB_TAIL, RB_COUNT and the POB only (R200). -/
theorem phaseStep_frame {s t : State} {keyed : Bool} (e : s.phaseStep keyed = .ok t) :
    t = { s with
      seqState := t.seqState, hangCnt := t.hangCnt, rbTail := t.rbTail, rbCount := t.rbCount
      pobMem := t.pobMem, pobLen := t.pobLen, pobPtr := t.pobPtr } := by
  rcases phaseStep_cases e with ⟨-, h⟩ | ⟨-, -, -, -, -, h⟩ | ⟨-, -, -, -, h⟩ | ⟨-, -, -, h⟩ | ⟨-, -, -, h⟩
  · rw [h]
  · rw [(preambleFill_ok.1 h).2]
  · obtain ⟨frame, u, hu, -, ht⟩ := frameFill_ok.1 h
    rw [ht, (rbDequeue_frame hu).1]
  · rw [h, State.endOfData]; split <;> rfl
  · rw [h]

/-- The emission step writes FILT_MEM, the sink, POB_LEN, POB_PTR, HANG_CNT and SEQ_STATE only (R200). -/
theorem emissionStep_frame {s t : State} {space : Nat} (e : s.emissionStep space = .ok t) :
    t = { s with
      filtMem := t.filtMem, sinkWrites := t.sinkWrites, pobLen := t.pobLen, pobPtr := t.pobPtr
      hangCnt := t.hangCnt, seqState := t.seqState } := by
  unfold State.emissionStep at e
  split at e
  · rw [drain_frame e]
  · split at e
    · simp only [Except.ok.injEq] at e
      rw [← e, hangLoop_frame]
    · simp only [Except.ok.injEq] at e
      rw [← e]

/-- A TICK that completes is its two steps and an OK response (R200). -/
theorem execTick_next {s t : State} (e : execTick s = .next t) :
    ∃ u v, s.afterSinkSample.phaseStep s.sinkSample.keyed = .ok u ∧
      u.emissionStep (operand s.sinkSample.freeSpace) = .ok v ∧ t = v.respond .ok 0 := by
  unfold execTick State.tickBody at e
  split at e
  · cases e
  · rename_i v hv
    split at hv
    · cases hv
    · rename_i u hu
      exact ⟨u, v, hu, hv, by cases e; rfl⟩

/-- TICK writes what R200 lists and nothing else; the sink sample is used up (R51). -/
theorem execTick_frame {s t : State} (e : execTick s = .next t) :
    t = { s with
      seqState := t.seqState, hangCnt := t.hangCnt, rbTail := t.rbTail, rbCount := t.rbCount
      pobMem := t.pobMem, pobLen := t.pobLen, pobPtr := t.pobPtr, filtMem := t.filtMem
      resp := respWord .ok 0, sinkWrites := t.sinkWrites, responses := s.responses ++ [respWord .ok 0]
      sinkSamples := s.afterSinkSample.sinkSamples, sinkDraws := s.afterSinkSample.sinkDraws } := by
  obtain ⟨u, v, hu, hv, ht⟩ := execTick_next e
  have h0 : s.afterSinkSample = { s with
      sinkSamples := s.afterSinkSample.sinkSamples, sinkDraws := s.afterSinkSample.sinkDraws } := by
    unfold State.afterSinkSample; split <;> rfl
  rw [ht, emissionStep_frame hv, phaseStep_frame hu, h0]
  rfl

/-! ## A TICK inside the invariants -/

/-- The frame fill inside the invariants: the oldest FRAME_LEN bytes of the queue go to the POB (R203, R133). -/
theorem frameFill_eq {s : State} (h : s.Inv) (hq : s.queued = true) :
    ∃ (frame : List Byte) (tail count len : BitVec 16), frame.length = s.params.frameLen ∧
      (∀ k < s.params.frameLen, frame[k]? = s.rbMem.read ((s.rbTail.toNat + k) % s.params.rbCap)) ∧
      tail.toNat = (s.rbTail.toNat + s.params.frameLen) % s.params.rbCap ∧
      count.toNat = s.rbCount.toNat - s.params.frameLen ∧ len.toNat = s.params.frameLen ∧
      s.frameFill = .ok { s with
        rbTail := tail, rbCount := count, pobMem := s.pobMem.writeFrom 0 frame, pobLen := len, pobPtr := 0
        seqState := .data } := by
  have hc := h.cap_le
  have hcl := h.count_le
  have hcap : s.params.frameLen ≤ s.params.rbCap := h.legal.2.1
  simp only [State.queued, decide_eq_true_eq] at hq
  obtain ⟨frame, u, e, hu, hl, htail, hbs⟩ := rbDequeue_ok h.tail_lt hc (fun k hk => h.rb_written k (by omega))
  refine ⟨frame, u.rbTail, BitVec.ofNat 16 (s.rbCount.toNat - s.params.frameLen), BitVec.ofNat 16 frame.length, hl, hbs, htail, ?_, ?_,
    frameFill_ok.2 ⟨frame, u, e, ?_, ?_⟩⟩
  · rw [BitVec.toNat_ofNat]; omega
  · rw [BitVec.toNat_ofNat]; omega
  · have := State.Inv.frame_le_pobCap s; omega
  · rw [hu]

/-- What the phase step of a TICK does inside the invariants, one case a row of R200's first half. -/
inductive PhaseCase (s : State) (keyed : Bool) : State → Prop where
  /-- The POB still holds bytes, or a hang runs: nothing is filled (R206, R208). -/
  | busy : s.pobLen ≠ 0 ∨ s.seqState = .hang → PhaseCase s keyed s
  /-- Nothing to do (R206). -/
  | quiet : s.pobLen = 0 → s.seqState = .idle → s.rbCount.toNat < s.params.frameLen → PhaseCase s keyed s
  /-- The preamble fill (R204). -/
  | preamble : s.pobLen = 0 → s.seqState = .idle → s.params.frameLen ≤ s.rbCount.toNat → keyed = false →
      s.cfgPreambleLen ≠ 0 →
      PhaseCase s keyed { s with
        pobMem := s.pobMem.writeFrom 0 (List.replicate s.cfgPreambleLen.toNat s.params.syncByte)
        pobLen := s.cfgPreambleLen, pobPtr := 0, seqState := .preamble }
  /-- The frame fill (R203). -/
  | frame (f : List Byte) (tail count len : BitVec 16) : s.pobLen = 0 → s.seqState ≠ .hang →
      s.params.frameLen ≤ s.rbCount.toNat →
      ¬ (s.seqState = .idle ∧ keyed = false ∧ s.cfgPreambleLen ≠ 0) → f.length = s.params.frameLen →
      (∀ k < s.params.frameLen, f[k]? = s.rbMem.read ((s.rbTail.toNat + k) % s.params.rbCap)) →
      tail.toNat = (s.rbTail.toNat + s.params.frameLen) % s.params.rbCap →
      count.toNat = s.rbCount.toNat - s.params.frameLen → len.toNat = s.params.frameLen →
      PhaseCase s keyed { s with
        rbTail := tail, rbCount := count, pobMem := s.pobMem.writeFrom 0 f, pobLen := len, pobPtr := 0
        seqState := .data }
  /-- End of data, to HANG (R205). -/
  | hang : s.pobLen = 0 → s.seqState = .preamble ∨ s.seqState = .data → s.rbCount.toNat < s.params.frameLen →
      s.cfgDuplex = true → s.hangCnt ≠ 0 → PhaseCase s keyed { s with seqState := .hang }
  /-- End of data, to IDLE (R205). -/
  | idle : s.pobLen = 0 → s.seqState = .preamble ∨ s.seqState = .data → s.rbCount.toNat < s.params.frameLen →
      ¬ (s.cfgDuplex = true ∧ s.hangCnt ≠ 0) → PhaseCase s keyed { s with seqState := .idle, hangCnt := 0 }

theorem phaseStep_eq {s : State} (h : s.Inv) (keyed : Bool) :
    ∃ t, s.phaseStep keyed = .ok t ∧ t.Inv ∧ PhaseCase s keyed t := by
  obtain ⟨t, e, ht⟩ := phaseStep_inv h keyed
  refine ⟨t, e, ht, ?_⟩
  rcases phaseStep_cases e with ⟨hb, rfl⟩ | ⟨hp, hi, hq, hk, hn, e⟩ | ⟨hp, hh, hq, hc, e⟩ | ⟨hp, hs, hq, rfl⟩ |
    ⟨hp, hi, hq, rfl⟩
  · exact .busy hb
  · rw [(preambleFill_ok.1 e).2]
    exact .preamble hp hi (by simpa [State.queued] using hq) hk hn
  · obtain ⟨f, tail, count, len, h1, h2, h3, h4, h5, e'⟩ := frameFill_eq h hq
    rw [e] at e'
    cases e'
    refine .frame f tail count len hp hh (by simpa [State.queued] using hq) ?_ h1 h2 h3 h4 h5
    simpa [State.coldStart] using hc
  · have hq' : s.rbCount.toNat < s.params.frameLen := by simpa [State.queued] using hq
    unfold State.endOfData
    split
    · rename_i hd; exact .hang hp hs hq' hd.1 hd.2
    · rename_i hd; exact .idle hp hs hq' hd
  · exact .quiet hp hi (by simpa [State.queued] using hq)

/-- What the emission step of a TICK does inside the invariants (R207): a run of POB bytes, a run of silence steps, or
nothing. -/
inductive EmissionCase (u : State) (space : Nat) : State → Prop where
  | drain (bs : List Byte) : u.pobLen ≠ 0 → bs.length = u.pobLen.toNat - u.pobPtr.toNat →
      (∀ j < bs.length, u.pobMem.read (u.pobPtr.toNat + j) = bs[j]?) →
      EmissionCase u space (drained u (bs.take (maxBlocks space)))
  | silence : u.pobLen = 0 → u.seqState = .hang →
      EmissionCase u space (silenced u (min (maxBlocks space) u.hangCnt.toNat))
  | none : u.pobLen = 0 → u.seqState ≠ .hang → EmissionCase u space u

/-- Sampling the sink inputs changes the model's list and counter of them only (R51). -/
theorem afterSinkSample_eq (s : State) : s.afterSinkSample = { s with
    sinkSamples := s.afterSinkSample.sinkSamples, sinkDraws := s.afterSinkSample.sinkDraws } := by
  unfold State.afterSinkSample; split <;> rfl

/-- A TICK inside the invariants, said once (R200): it completes, its two steps do what `PhaseCase` and `EmissionCase` say,
and it answers OK. -/
theorem execTick_eq {s : State} (h : s.Inv) :
    ∃ u v, PhaseCase { s with
        sinkSamples := s.afterSinkSample.sinkSamples, sinkDraws := s.afterSinkSample.sinkDraws }
        s.sinkSample.keyed u ∧ u.Inv ∧
      EmissionCase u s.sinkSample.freeSpace.toNat v ∧ v.Inv ∧ execTick s = .next (v.respond .ok 0) := by
  obtain ⟨u, e, hu, hc⟩ := phaseStep_eq (afterSinkSample_inv h) s.sinkSample.keyed
  obtain ⟨v, e', hv⟩ := emissionStep_inv hu (operand s.sinkSample.freeSpace)
  rw [afterSinkSample_eq] at hc
  refine ⟨u, v, hc, hu, ?_, hv, by simp only [execTick, State.tickBody, e, e']⟩
  rcases emissionStep_eq hu (operand s.sinkSample.freeSpace) with ⟨hp, bs, hl, hb, e''⟩ | ⟨hp, hh, e''⟩ | ⟨hp, hh, e''⟩ <;>
    rw [e'] at e'' <;> cases e''
  · exact .drain bs hp hl hb
  · exact .silence hp hh
  · exact .none hp hh

/-! ## The other commands -/

/-- SUBMIT_FRAME that completes leaves `submitFrame`'s state (R130). -/
theorem execSubmitFrame_next {len : BitVec 16} {p : List Byte} {s t : State}
    (e : execSubmitFrame len p s = .next t) : payloadMatches len p = true ∧ t = s.submitFrame len p := by
  unfold execSubmitFrame at e
  split at e
  · rename_i h
    refine ⟨h, ?_⟩
    split at e
    · cases e; rfl
    · split at e
      · cases e; rfl
      · cases e
  · cases e

/-- With RB_HEAD in range, SUBMIT_FRAME completes (R130). -/
theorem execSubmitFrame_ok {len : BitVec 16} {p : List Byte} {s : State} (hp : payloadMatches len p = true)
    (hh : s.rbHead.toNat < s.params.rbCap) : execSubmitFrame len p s = .next (s.submitFrame len p) := by
  simp [execSubmitFrame, hp, hh]

/-- What a completed command other than TICK leaves (R201, R262). -/
theorem exec_next_cases {i : Instr} {s t : State} (e : exec i s = .next t) :
    (∃ len p, i = .submitFrame len p ∧ payloadMatches len p = true ∧ t = s.submitFrame len p) ∨
    (i = .tick ∧ execTick s = .next t) ∨
    (∃ d, i = .setPreambleDelay d ∧
      t = { s with cfgPreambleLen := BitVec.ofNat 16 (Params.preambleLen s.params d) }.respond .ok 0) ∨
    (∃ l h, i = .setDevHang l h ∧
      t = { s with cfgLodev := l, cfgHangDur := BitVec.ofNat 32 (Params.hangDur s.params h) }.respond .ok 0) ∨
    (i = .getQueueCap ∧ t = s.respond .ok (BitVec.ofNat 16 s.rbFreeFrames)) ∨
    (∃ d, i = .setDuplex d ∧ t = { s with cfgDuplex := d }.respond .ok 0) := by
  cases i with
  | submitFrame len p => exact .inl ⟨len, p, rfl, execSubmitFrame_next e⟩
  | tick => exact .inr (.inl ⟨rfl, e⟩)
  | setPreambleDelay d => exact .inr (.inr (.inl ⟨d, rfl, by cases e; rfl⟩))
  | setDevHang l h => exact .inr (.inr (.inr (.inl ⟨l, h, rfl, by cases e; rfl⟩)))
  | getQueueCap => exact .inr (.inr (.inr (.inr (.inl ⟨rfl, by cases e; rfl⟩))))
  | setDuplex d => exact .inr (.inr (.inr (.inr (.inr ⟨d, rfl, by cases e; rfl⟩))))

/-- What an accepted or rejected SUBMIT_FRAME leaves (R130, R131, R262). -/
theorem submitFrame_cases (s : State) (len : BitVec 16) (p : List Byte) :
    (operand len ≠ s.params.frameLen ∧ s.submitFrame len p = s.respond .lengthError 0) ∨
    (operand len = s.params.frameLen ∧ s.rbFree < s.params.frameLen ∧
      s.submitFrame len p = s.respond .capacityError 0) ∨
    (operand len = s.params.frameLen ∧ s.params.frameLen ≤ s.rbFree ∧
      s.submitFrame len p = (s.rbEnqueue p).respond .ok 0) := by
  unfold State.submitFrame State.submitError
  by_cases h1 : operand len = s.params.frameLen
  · by_cases h2 : s.rbFree < s.params.frameLen
    · exact .inr (.inl ⟨h1, h2, by simp [h1, h2]⟩)
    · exact .inr (.inr ⟨h1, by omega, by simp [h1, h2]⟩)
  · exact .inl ⟨h1, by simp [h1]⟩

/-- One delivered command either runs as decoded or is answered as illegal (R112, R113, R115). -/
theorem runCommand_next {w : Word} {p : List Byte} {s t : State} (e : runCommand w p s = .next t) :
    (∃ i, decode w p = .ok i ∧ exec i s = .next t) ∨
    ((∃ r, decode w p = .error r) ∧ t = s.respond .illegalCommand 0) := by
  unfold runCommand at e
  split at e
  · rename_i i hi; exact .inl ⟨i, hi, e⟩
  · rename_i r hr
    refine .inr ⟨⟨r, hr⟩, ?_⟩
    cases r <;> cases e <;> rfl

/-- A step that completes: nothing at the port, a command, or one of the two resets (R52, R53, R274, R291). -/
theorem step_next {s t : State} (e : step s = .next t) :
    (s.hostPort = [] ∧ t = s) ∨
    (∃ w p rest, s.hostPort = .command w p :: rest ∧ runCommand w p s.takeEvent = .next t) ∨
    (∃ rest, s.hostPort = .reset :: rest ∧ t = s.takeEvent.applyRst) ∨
    (∃ w p n rest u, s.hostPort = .resetDuring w p n :: rest ∧ runCommand w p s.takeEvent = .next u ∧
      t = s.takeEvent.applyRstDuring u n) := by
  unfold step at e
  split at e
  · rename_i h; exact .inl ⟨h, by cases e; rfl⟩
  · rename_i w p rest h; exact .inr (.inl ⟨w, p, rest, h, e⟩)
  · rename_i rest h; exact .inr (.inr (.inl ⟨rest, h, by cases e; rfl⟩))
  · rename_i w p n rest h
    split at e
    · rename_i u hu; exact .inr (.inr (.inr ⟨w, p, n, rest, u, h, hu, by cases e; rfl⟩))
    · cases e
    · cases e

/-- No command changes the parameters (R43). -/
theorem exec_params {i : Instr} {s t : State} (e : exec i s = .next t) : t.params = s.params := by
  rcases exec_next_cases e with ⟨len, p, -, -, h⟩ | ⟨-, h⟩ | ⟨d, -, h⟩ | ⟨l, d, -, h⟩ | ⟨-, h⟩ | ⟨d, -, h⟩
  · rcases submitFrame_cases s len p with ⟨-, e⟩ | ⟨-, -, e⟩ | ⟨-, -, e⟩ <;> rw [h, e]
    · rfl
    · rfl
    · rw [rbEnqueue_frame]; rfl
  · rw [execTick_frame h]
  all_goals rw [h]; rfl

theorem runCommand_params {w : Word} {p : List Byte} {s t : State} (e : runCommand w p s = .next t) :
    t.params = s.params := by
  rcases runCommand_next e with ⟨i, -, h⟩ | ⟨-, h⟩
  · exact exec_params h
  · rw [h]; rfl

end Sys2Proof.Machine
end

