-- ==== Sys2Proof/Tests/Slice0.lean ====
section
/-! SUPPORT. Tests with expected results taken from the spec (spec/95_test_vectors.md, the examples inside its rules, and the bit patterns
of spec/30_encoding.md R103), and for every obligation with hypotheses a concrete case that meets them (`meets_…`). -/

namespace Sys2Proof.Tests

open Sys2Proof Sys2Proof.Machine

/-! ## Small states -/

/-- TC1 of spec/95_test_vectors.md: COEF[m] = 32767 for m = 0..9, all others 0. -/
def tc1 : Vector Sample 90 := ⟨(List.replicate 10 32767#16 ++ List.replicate 80 0#16).toArray, by decide⟩

/-- TC2: COEF[10..19] = 16384, all others 0. -/
def tc2 : Vector Sample 90 :=
  ⟨(List.replicate 10 0#16 ++ List.replicate 10 16384#16 ++ List.replicate 70 0#16).toArray, by decide⟩

/-- TC3: all 90 coefficients 32767. -/
def tc3 : Vector Sample 90 := Vector.replicate 90 32767#16

/-- The test parameters of program P1's kind: FRAME_LEN = 2, RB_CAP = 5, SYNC_BYTE = 0x77, PREAMBLE_OFFSET = 2, the scales 1, TC1. -/
def params : Params := ⟨2, 5, 0x77#8, 2, 1, 1, 0#8, tc1⟩

theorem params_legal : params.Legal := by decide

/-- Reset with the test parameters. -/
def fresh : State := State.resetOf params

theorem fresh_inv : fresh.Inv := resetOf_inv params_legal

/-- One frame [0xAA, 0x55] queued, duplex on with a hang of three steps; the sink shows `x` at the next TICK. -/
def queued (x : SinkSample) : State :=
  { fresh with
    rbMem := [(0, 0xAA#8), (1, 0x55#8)], rbHead := 2, rbCount := 2, cfgDuplex := true, cfgHangDur := 3
    sinkSamples := [x] }

theorem queued_inv (x : SinkSample) : (queued x).Inv := by
  have h : (queued ⟨0, false⟩).Inv := by constructor <;> first | exact params_legal | decide
  exact h.congr rfl

/-- The ring buffer full: two frames queued, one byte free (V35). -/
def full : State :=
  { fresh with rbMem := [(0, 0xAA#8), (1, 0x55#8), (2, 0x00#8), (3, 0xFF#8)], rbHead := 4, rbCount := 4 }

theorem full_inv : full.Inv := by
  constructor <;> first | exact params_legal | decide

/-- One frame [0x00, 0xFF] queued at the end of the ring, the next one wraps (before V38). -/
def wrapping : State :=
  { fresh with rbMem := [(0, 0xAA#8), (1, 0x55#8), (2, 0x00#8), (3, 0xFF#8)], rbHead := 4, rbTail := 2, rbCount := 2 }

theorem wrapping_inv : wrapping.Inv := by
  constructor <;> first | exact params_legal | decide

/-- In DATA with the frame [0x1B, 0xE4] in the POB, `ptr` bytes of it drained, no frame queued. -/
def sending (ptr : BitVec 16) (duplex : Bool) (x : SinkSample) : State :=
  { fresh with
    seqState := .data, pobMem := [(0, 0x1B#8), (1, 0xE4#8)], pobLen := 2, pobPtr := ptr, cfgDuplex := duplex
    cfgHangDur := 3, sinkSamples := [x] }

theorem sending_inv (duplex : Bool) (x : SinkSample) : (sending 0 duplex x).Inv := by
  have h : (sending 0 true ⟨0, false⟩).Inv := by constructor <;> first | exact params_legal | decide
  exact h.congr rfl

/-- In `phase` with the POB drained, no frame queued (end of data when `phase` is DATA). -/
def drainedState (phase : SeqState) (duplex : Bool) (count : BitVec 32) (x : SinkSample) : State :=
  { fresh with
    seqState := phase, pobMem := [(0, 0x1B#8), (1, 0xE4#8)], hangCnt := count, cfgDuplex := duplex, cfgHangDur := 3
    sinkSamples := [x] }

theorem ended_inv (duplex : Bool) (x : SinkSample) :
    (drainedState .data duplex 3 x).Inv ∧ (drainedState .data duplex 0 x).Inv := by
  have h3 : (drainedState .data true 3 ⟨0, false⟩).Inv := by constructor <;> first | exact params_legal | decide
  have h0 : (drainedState .data true 0 ⟨0, false⟩).Inv := by constructor <;> first | exact params_legal | decide
  exact ⟨h3.congr rfl, h0.congr rfl⟩

theorem hanging_inv (duplex : Bool) (x : SinkSample) :
    (drainedState .hang duplex 3 x).Inv ∧ (drainedState .hang duplex 1 x).Inv := by
  have h3 : (drainedState .hang true 3 ⟨0, false⟩).Inv := by constructor <;> first | exact params_legal | decide
  have h1 : (drainedState .hang true 1 ⟨0, false⟩).Inv := by constructor <;> first | exact params_legal | decide
  exact ⟨h3.congr rfl, h1.congr rfl⟩

/-- In PREAMBLE with its two sync bytes in the POB and the frame still queued. -/
def preambleState (x : SinkSample) : State :=
  { queued x with seqState := .preamble, pobMem := [(0, 0x77#8), (1, 0x77#8)], pobLen := 2 }

theorem preambleState_inv (x : SinkSample) : (preambleState x).Inv := by
  have h : (preambleState ⟨0, false⟩).Inv := by constructor <;> first | exact params_legal | decide
  exact h.congr rfl

/-- In PREAMBLE with the preamble drained and the frame still queued (V57). -/
def preambleDone (x : SinkSample) : State :=
  { queued x with seqState := .preamble, pobMem := [(0, 0x77#8), (1, 0x77#8)] }

theorem preambleDone_inv (x : SinkSample) : (preambleDone x).Inv := by
  have h : (preambleDone ⟨0, false⟩).Inv := by constructor <;> first | exact params_legal | decide
  exact h.congr rfl

/-- Inside the invariants TICK answers a next state. -/
theorem tick_next {s : State} (h : s.Inv) : ∃ t, exec .tick s = .next t := by
  obtain ⟨_, v, -, -, -, -, e⟩ := execTick_eq h
  exact ⟨v.respond .ok 0, e⟩

/-- Four groups of ten equal samples, as spec/95_test_vectors.md writes a block. -/
def groups (a b c d : Int) : List Int :=
  List.replicate 10 a ++ List.replicate 10 b ++ List.replicate 10 c ++ List.replicate 10 d

/-- The blocks of a state's sink writes as integers. -/
def blocks (s : State) : List (List Int) := s.sinkWrites.map fun b => b.samples.toList.map BitVec.toInt

/-- One field of the next state of a command, if there is one. -/
def after {α : Type} (i : Instr) (s : State) (f : State → α) : Option α :=
  match exec i s with
  | .next t => some (f t)
  | .fault _ => none
  | .refused _ => none

/-! ## Well-formedness -/

theorem test_wf_refuses_short_payload : (Instr.submitFrame 3#16 [1#8, 2#8]).wf = false := by decide
theorem test_wf_accepts_declared_length : (Instr.submitFrame 2#16 [1#8, 2#8]).wf = true := by decide
theorem test_exec_refuses_short_payload :
    exec (.submitFrame 3#16 [1#8, 2#8]) fresh = .refused (.payloadLength 3 2) := rfl

/-! ## Decoding: words written out from the patterns of R103 -/

theorem test_decode_submitFrame :
    decode 0b0001_0000_0000_0000_0000_0000_0000_0010#32 [0xAA#8, 0x55#8] = .ok (.submitFrame 2#16 [0xAA#8, 0x55#8]) := by
  decide
theorem test_decode_tick : decode 0b0010_0000_0000_0000_0000_0000_0000_0000#32 [] = .ok .tick := by decide
theorem test_decode_setPreambleDelay :
    decode 0b0011_0000_0000_0000_0000_0000_1010_0101#32 [] = .ok (.setPreambleDelay 0xA5#8) := by decide
theorem test_decode_setDevHang :
    decode 0b0100_0000_0000_0000_0000_0001_0000_0011#32 [] = .ok (.setDevHang true 3#8) := by decide
theorem test_decode_setDevHang_normal :
    decode 0b0100_0000_0000_0000_0000_0000_1100_1000#32 [] = .ok (.setDevHang false 200#8) := by decide
theorem test_decode_getQueueCap :
    decode 0b0101_0000_0000_0000_0000_0000_0000_0000#32 [] = .ok .getQueueCap := by decide
theorem test_decode_setDuplex :
    decode 0b0110_0000_0000_0000_0000_0000_0000_0001#32 [] = .ok (.setDuplex true) := by decide
/-- V70 to V78: each illegal word, one reserved bit or a reserved opcode. -/
theorem test_decode_illegal :
    (∀ w ∈ [0x00000000#32, 0x70000000#32, 0x80000000#32, 0xF0000000#32, 0x20000001#32, 0x30000100#32,
        0x40000200#32, 0x50000001#32, 0x60000002#32], ∃ r, decode w [] = .error r ∧
          execReject r fresh = .next (fresh.respond .illegalCommand 0)) ∧
      decode 0x10010002#32 [0#8, 0#8] = .error (.reservedBits 0x10010002#32) := by
  refine ⟨?_, by decide⟩
  intro w hw
  simp only [List.mem_cons, List.not_mem_nil, or_false] at hw
  rcases hw with rfl | rfl | rfl | rfl | rfl | rfl | rfl | rfl | rfl
  · exact ⟨.reservedOpcode 0#4, by decide, rfl⟩
  · exact ⟨.reservedOpcode 7#4, by decide, rfl⟩
  · exact ⟨.reservedOpcode 8#4, by decide, rfl⟩
  · exact ⟨.reservedOpcode 15#4, by decide, rfl⟩
  · exact ⟨.reservedBits 0x20000001#32, by decide, rfl⟩
  · exact ⟨.reservedBits 0x30000100#32, by decide, rfl⟩
  · exact ⟨.reservedBits 0x40000200#32, by decide, rfl⟩
  · exact ⟨.reservedBits 0x50000001#32, by decide, rfl⟩
  · exact ⟨.reservedBits 0x60000002#32, by decide, rfl⟩
/-- R116: the assembly text of two lines. -/
theorem test_text : (AsmLine.instr (.setDevHang true 3#8)).text = "SET_DEV_HANG 1, 3" ∧
    (AsmLine.instr (.submitFrame 2#16 [0xAA#8, 0x05#8])).text = "SUBMIT_FRAME 2, [AA, 05]" := by decide +kernel
/-- R116: the inputs written behind the second TICK are those of the second TICK; an illegal word has none. -/
theorem test_deliver :
    (fresh.deliver [.instr .tick, .word 0x20000001#32 [], .tickAt ⟨41#16, true⟩]).sinkSamples =
      [Config.freeSinkSample 0, ⟨41#16, true⟩] ∧
    (fresh.deliver [.instr .tick, .word 0x20000001#32 [], .tickAt ⟨41#16, true⟩]).hostPort =
      [.command 0x20000000#32 [], .command 0x20000001#32 [], .command 0x20000000#32 []] := ⟨rfl, rfl⟩

/-! ## One step of each command -/

/-- V33, and the next bytes' index. -/
theorem test_submitFrame : after (.submitFrame 2#16 [0xAA#8, 0x55#8]) fresh
    (fun t => (t.rbMem, t.rbHead, t.rbTail, t.rbCount, t.resp)) =
    some ([(0, 0xAA#8), (1, 0x55#8)], 2#16, 0#16, 2#16, 0x00000000#32) := by decide +kernel
/-- V38: the index wraps in the middle of the frame. -/
theorem test_submitFrame_wraps : after (.submitFrame 2#16 [0x11#8, 0x22#8]) wrapping
    (fun t => (t.rbMem.read 4, t.rbMem.read 0, t.rbHead, t.rbCount)) =
    some (some 0x11#8, some 0x22#8, 1#16, 4#16) := by decide +kernel
/-- V32, V37. -/
theorem test_getQueueCap : after .getQueueCap fresh (·.resp) = some 0x00020000#32 ∧
    after .getQueueCap full (·.resp) = some 0x00000000#32 := by decide +kernel
/-- V43, V44: exactly the cap, and clamped. -/
theorem test_setPreambleDelay :
    (let s := State.resetOf { params with preambleOffset := 1000, preambleScale := 10 }
     after (.setPreambleDelay 20#8) s (·.cfgPreambleLen) = some 1200#16 ∧
     after (.setPreambleDelay 30#8) s (·.cfgPreambleLen) = some 1200#16 ∧
     after (.setPreambleDelay 19#8) s (·.cfgPreambleLen) = some 1190#16) := by decide +kernel
/-- V48: the largest product fits in 32 bits. -/
theorem test_setDevHang :
    after (.setDevHang false 255#8) (State.resetOf { params with hangScale := 2 ^ 24 })
      (fun t => t.cfgHangDur.toNat) = some 4278190080 := by decide +kernel
/-- V50. -/
theorem test_setDuplex : after (.setDuplex true) fresh (fun t => (t.cfgDuplex, t.resp)) = some (true, 0#32) := by decide +kernel
/-- R200's example: a preamble fill and two sync blocks at space 100, the frame still queued. -/
theorem test_tick_preamble : after .tick (queued ⟨100#16, false⟩)
    (fun t => (t.seqState, t.pobLen, t.rbCount, blocks t)) =
    some (.preamble, 0#16, 2#16, [groups (-1893) 1892 (-1893) 1892, groups (-1893) 1892 (-1893) 1892]) := by
  decide +kernel
/-- V54's kind: a keyed sink, no preamble; one block (0xAA) at space 80, the hang count reloaded (R209). -/
theorem test_tick_data : after .tick (queued ⟨80#16, true⟩) (fun t => (t.seqState, t.pobLen, t.pobPtr, t.rbCount)) =
      some (.data, 2#16, 1#16, 0#16) ∧
    after .tick (queued ⟨80#16, true⟩) (fun t => (t.hangCnt, blocks t)) = some (3#32, [groups 630 630 630 630]) := by
  decide +kernel

/-! ## The filter and the mapper (V9 to V12, V20, V24, V27) -/

theorem test_mapByte : (mapByte 0x1B#8 false).toList.map BitVec.toInt = [-631, -1893, 631, 1893] ∧
    (mapByte 0xE4#8 true).toList.map BitVec.toInt = [948, 316, -948, -316] := by decide
theorem test_emitByte : blocks (fresh.emitByte 0x1B#8) = [groups (-631) (-1893) 630 1892] := by decide +kernel
theorem test_continuity :
    blocks ((State.resetOf { params with coef := tc2 }).emitBytes [0x1B#8, 0xE4#8] |>.emitSilences 2) =
      [groups 0 (-316) (-947) 315, groups 946 946 315 (-947), groups (-316) 0 0 0, groups 0 0 0 0] := by decide +kernel
theorem test_extreme : (blocks ((State.resetOf { params with coef := tc3 }).emitBytes [0x55#8, 0x55#8, 0x55#8])).getLast? =
    some (groups (-17037) (-17037) (-17037) (-17037)) := by decide +kernel

/-! ## The host's entry points -/

theorem test_decodeTableWord : decodeTableWord 32 0x40000103 = some (.setDevHang true 3#8) := by decide
theorem test_fetch_runs_it : ∃ t, step (State.reset.withFetchWord 32 0x60000001) = .next t ∧ t.cfgDuplex = true :=
  ⟨_, rfl, rfl⟩

/-! ## Concrete cases that meet the hypotheses of the obligations -/

/-- The test block with one event at its port. -/
def port (e : HostEvent) : State := { fresh with hostPort := [e] }

theorem meets_RstSetsEveryRegister : (port .reset).hostPort = .reset :: [] := rfl

theorem meets_RstDuringACommandKeepsOnlyItsSinkWrites :
    ∃ u, { queued ⟨100#16, false⟩ with hostPort := [.resetDuring 0x20000000#32 [] 1] }.hostPort =
        .resetDuring 0x20000000#32 [] 1 :: [] ∧
      runCommand 0x20000000#32 []
        { queued ⟨100#16, false⟩ with hostPort := [.resetDuring 0x20000000#32 [] 1] }.takeEvent = .next u := by
  obtain ⟨u, h⟩ := tick_next (s := { queued ⟨100#16, false⟩ with
    hostPort := [.resetDuring 0x20000000#32 [] 1] }.takeEvent) ((queued_inv ⟨100#16, false⟩).congr rfl)
  exact ⟨u, rfl, h⟩

theorem meets_NothingAtThePortChangesNothing : fresh.hostPort = [] := rfl

theorem meets_StepRunsTheDecodedCommand :
    (port (.command 0x60000001#32 [])).hostPort = .command 0x60000001#32 [] :: [] ∧
      decode 0x60000001#32 [] = .ok (.setDuplex true) := ⟨rfl, by decide⟩

/-- Both clauses, at the ends of their ranges. -/
theorem meets_ReservedOpcodeChangesOnlyResp :
    (port (.command 0x0FFFFFFF#32 [])).hostPort = .command 0x0FFFFFFF#32 [] :: [] ∧
      (0x00000000#32).toNat / 2 ^ 28 = 0 ∧ (0x0FFFFFFF#32).toNat / 2 ^ 28 = 0 ∧
      7 ≤ (0x70000000#32).toNat / 2 ^ 28 ∧ 7 ≤ (0xFFFFFFFF#32).toNat / 2 ^ 28 := ⟨rfl, by decide⟩

/-- Each clause, the lowest reserved bit alone and (SUBMIT_FRAME) with its two payload bytes. -/
theorem meets_ReservedBitChangesOnlyResp :
    (port (.command 0x10010002#32 [1#8, 2#8])).hostPort = .command 0x10010002#32 [1#8, 2#8] :: [] ∧
      (0x10010002#32).toNat / 2 ^ 28 = 1 ∧ (0x10010002#32).toNat / 2 ^ 16 % 2 ^ 12 ≠ 0 ∧
      (0x10010002#32).toNat % 2 ^ 16 = 2 ∧
      (0x20000001#32).toNat / 2 ^ 28 = 2 ∧ (0x20000001#32).toNat % 2 ^ 28 ≠ 0 ∧
      (0x30000100#32).toNat / 2 ^ 28 = 3 ∧ (0x30000100#32).toNat / 2 ^ 8 % 2 ^ 20 ≠ 0 ∧
      (0x40000200#32).toNat / 2 ^ 28 = 4 ∧ (0x40000200#32).toNat / 2 ^ 9 % 2 ^ 19 ≠ 0 ∧
      (0x50000001#32).toNat / 2 ^ 28 = 5 ∧ (0x50000001#32).toNat % 2 ^ 28 ≠ 0 ∧
      (0x60000002#32).toNat / 2 ^ 28 = 6 ∧ (0x60000002#32).toNat / 2 % 2 ^ 27 ≠ 0 := ⟨rfl, by decide⟩

/-- Each clause: one byte too few, one too many, and a payload where none is declared. -/
theorem meets_PayloadOfAnotherLengthIsRefused :
    (port (.command 0x10000001#32 [])).hostPort = .command 0x10000001#32 [] :: [] ∧
      (0x10000001#32).toNat / 2 ^ 28 = 1 ∧ ([] : List Byte).length ≠ (0x10000001#32).toNat % 2 ^ 16 ∧
      ([1#8, 2#8] : List Byte).length ≠ (0x10000001#32).toNat % 2 ^ 16 ∧
      (0x20000000#32).toNat / 2 ^ 28 ≠ 1 ∧ [1#8] ≠ [] ∧ [1#8].length ≠ (0#16).toNat := ⟨rfl, by decide⟩

theorem meets_EncodingExamplesDecode : (List.replicate 120 0#8).length = 120 := by decide

/-- At both ends of the operands' ranges. -/
theorem meets_DecodeOfEncodeIsTheInstruction :
    (Instr.submitFrame 0#16 []).wf = true ∧ (Instr.submitFrame 2#16 [0#8, 255#8]).wf = true ∧ Instr.tick.wf = true ∧
      (Instr.setPreambleDelay 255#8).wf = true ∧ (Instr.setDevHang true 255#8).wf = true ∧
      Instr.getQueueCap.wf = true ∧ (Instr.setDuplex true).wf = true := by decide

theorem meets_EncodeOfDecodeIsTheDelivery : decode 0x400001FF#32 [] = .ok (.setDevHang true 255#8) := by decide

theorem meets_DecodesExactlyTheTableRows :
    ([] : List Byte).length = (if (0x20000000#32).toNat / 2 ^ 28 = 1 then (0x20000000#32).toNat % 2 ^ 16 else 0) ∧
      decode 0x20000000#32 [] = .ok .tick ∧ tableRow .tick ∈ opcodeTable ∧
      0x20000000#32 &&& (tableRow .tick).mask = (tableRow .tick).matchBits := by decide +kernel

theorem meets_PseudoInstructionsExpand : params.Legal ∧ [0xAA#8, 0x55#8].length = params.frameLen :=
  ⟨params_legal, rfl⟩

/-- A command with DATA, one without, and an illegal word. -/
theorem meets_EveryCommandAnswersOneResponseWord :
    (∃ t, runCommand 0x50000000#32 [] fresh = .next t ∧ t.resp.toNat / 2 ^ 16 ≠ 0) ∧ fresh.params.Legal ∧
      decode 0x50000000#32 [] = .ok .getQueueCap ∧ (∃ t, runCommand 0x60000001#32 [] fresh = .next t) ∧ ∃ t, runCommand 0#32 [] fresh = .next t :=
  ⟨⟨_, rfl, by decide +kernel⟩, params_legal, by decide, ⟨_, rfl⟩, ⟨_, rfl⟩⟩

/-- Each status (V30, V33, V35, V71). -/
theorem meets_EveryStatusHasItsCause :
    (∃ t, runCommand 0x10000003#32 [1#8, 2#8, 3#8] fresh = .next t ∧ t.resp.toNat % 2 ^ 4 = 1) ∧
      (∃ t, runCommand 0x10000002#32 [0x11#8, 0x22#8] full = .next t ∧ t.resp.toNat % 2 ^ 4 = 2) ∧
      (∃ t, runCommand 0x10000002#32 [0xAA#8, 0x55#8] fresh = .next t ∧ t.resp.toNat % 2 ^ 4 = 0) ∧
      ∃ t, runCommand 0x70000000#32 [] fresh = .next t ∧ t.resp.toNat % 2 ^ 4 = 15 :=
  ⟨⟨_, rfl, by decide +kernel⟩, ⟨_, rfl, by decide +kernel⟩, ⟨_, rfl, by decide +kernel⟩, ⟨_, rfl, by decide +kernel⟩⟩

theorem meets_ResponseRevealsOnlyTheQueueCount :
    (queued ⟨0, false⟩).params = wrapping.params ∧ (queued ⟨0, false⟩).rbCount = wrapping.rbCount ∧
      (∃ t, runCommand 0x50000000#32 [] (queued ⟨0, false⟩) = .next t) ∧
      ∃ t, runCommand 0x50000000#32 [] wrapping = .next t := ⟨rfl, rfl, ⟨_, rfl⟩, ⟨_, rfl⟩⟩

/-- LEN 0, one less and one more than FRAME_LEN; one byte free; and exactly FRAME_LEN bytes free with RB_CAP = 2. -/
theorem meets_SubmitFrameStoresOrRejects :
    (full.Inv ∧ ([] : List Byte).length = (0#16).toNat ∧ (0#16).toNat ≠ full.params.frameLen ∧
      [9#8].length = (1#16).toNat ∧ (1#16).toNat ≠ full.params.frameLen ∧
      [1#8, 2#8, 3#8].length = (3#16).toNat ∧ (3#16).toNat ≠ full.params.frameLen) ∧
    ([1#8, 2#8].length = (2#16).toNat ∧ (2#16).toNat = full.params.frameLen ∧
      full.params.rbCap - full.rbCount.toNat < full.params.frameLen) ∧
    (wrapping.Inv ∧ (2#16).toNat = wrapping.params.frameLen ∧
      wrapping.params.frameLen ≤ wrapping.params.rbCap - wrapping.rbCount.toNat) ∧
    (State.resetOf { params with rbCap := 2 }).Inv ∧
      (State.resetOf { params with rbCap := 2 }).params.frameLen =
        (State.resetOf { params with rbCap := 2 }).params.rbCap - (State.resetOf { params with rbCap := 2 }).rbCount.toNat :=
  ⟨⟨full_inv, by decide⟩, by decide, ⟨wrapping_inv, by decide⟩, resetOf_inv (by decide), by decide⟩

theorem meets_QueueCapIsTheFreeFrames : full.Inv ∧ fresh.Inv := ⟨full_inv, fresh_inv⟩

theorem meets_CapacityIsNeverExceeded :
    full.Inv ∧ full.params.rbCap - full.rbCount.toNat < full.params.frameLen ∧
      [1#8, 2#8].length = (2#16).toNat ∧ (2#16).toNat = full.params.frameLen ∧
      (∃ t, runCommand 0x50000000#32 [] full = .next t) ∧ decode 0x50000000#32 [] ≠ .ok .tick :=
  ⟨full_inv, by decide, by decide, by decide, ⟨_, rfl⟩, by decide⟩

/-- The clauses of TICK: one that fills with a frame, one with the preamble, one in HANG; the other clauses by commands. -/
theorem meets_RingBufferIsFirstInFirstOut :
    (∃ t, exec .tick (queued ⟨0#16, true⟩) = .next t) ∧
      ((queued ⟨0#16, true⟩).pobLen = 0#16 ∧ (queued ⟨0#16, true⟩).seqState ≠ .hang ∧
        (queued ⟨0#16, true⟩).params.frameLen ≤ (queued ⟨0#16, true⟩).rbCount.toNat ∧
        ¬ ((queued ⟨0#16, true⟩).seqState = .idle ∧ (queued ⟨0#16, true⟩).sinkSample.keyed = false ∧
          (queued ⟨0#16, true⟩).cfgPreambleLen ≠ 0#16)) ∧
      (∃ t, exec .tick (queued ⟨0#16, false⟩) = .next t) ∧
      ((queued ⟨0#16, false⟩).seqState = .idle ∧ (queued ⟨0#16, false⟩).sinkSample.keyed = false ∧
        (queued ⟨0#16, false⟩).cfgPreambleLen ≠ 0#16) ∧
      (∃ t, exec (.submitFrame 2#16 [1#8, 2#8]) wrapping = .next t ∧ t.resp = 0#32) ∧
      (∃ t, exec (.submitFrame 2#16 [1#8, 2#8]) full = .next t ∧ t.resp ≠ 0#32) ∧
      ∃ t, exec .getQueueCap full = .next t :=
  ⟨tick_next (queued_inv _), by decide, tick_next (queued_inv _), by decide, ⟨_, rfl, by decide +kernel⟩,
    ⟨_, rfl, by decide +kernel⟩, ⟨_, rfl⟩⟩

/-- The part `f` of the state after one step. -/
def afterStep {α : Type} (s : State) (f : State → α) : Option α :=
  match step s with
  | .next t => some (f t)
  | .fault _ => none
  | .refused _ => none

/-- A submitted frame, a frame fill, a preamble fill, and bytes that stay pending. -/
theorem meets_QueuedAndPendingBytesAreWritten :
    (port (.command 0x10000002#32 [0xAA#8, 0x55#8])).Inv ∧
    afterStep (port (.command 0x10000002#32 [0xAA#8, 0x55#8])) State.queue = some [some 0xAA#8, some 0x55#8] ∧
    State.Inv { queued ⟨40#16, true⟩ with hostPort := [.command 0x20000000#32 []] } ∧
    afterStep { queued ⟨40#16, true⟩ with hostPort := [.command 0x20000000#32 []] } State.pending =
      some [some 0xAA#8, some 0x55#8] ∧
    State.Inv { queued ⟨40#16, false⟩ with hostPort := [.command 0x20000000#32 []] } ∧
    afterStep { queued ⟨40#16, false⟩ with hostPort := [.command 0x20000000#32 []] } State.pending =
      some [some 0x77#8, some 0x77#8] ∧
    State.Inv { sending 0#16 true ⟨41#16, true⟩ with hostPort := [.command 0x20000000#32 []] } ∧
    afterStep { sending 0#16 true ⟨41#16, true⟩ with hostPort := [.command 0x20000000#32 []] } State.pending =
      some [some 0xE4#8] :=
  ⟨fresh_inv.congr rfl, by decide +kernel, (queued_inv _).congr rfl, by decide +kernel, (queued_inv _).congr rfl,
    by decide +kernel, (sending_inv _ _).congr rfl, by decide +kernel⟩

theorem meets_DevHangSetsDeviationAndExactDuration : fresh.params.Legal := params_legal

theorem meets_EachConfigurationRegisterHasOneWriter :
    (∃ t, exec .getQueueCap fresh = .next t) ∧ (∃ t, exec (.setDuplex true) fresh = .next t) ∧
      (∃ t, exec (.setDevHang true 3#8) fresh = .next t) ∧ ∃ t, exec (.setPreambleDelay 9#8) fresh = .next t :=
  ⟨⟨_, rfl⟩, ⟨_, rfl⟩, ⟨_, rfl⟩, ⟨_, rfl⟩⟩

theorem meets_PolyphaseIsTheNinetyTapFilter : 39 < 40 * [mapByte 0x1B#8 false].length := by decide

/-- The largest level everywhere (V25). -/
theorem meets_FilterNeverSaturates :
    (∀ k : Fin 9, LevelBounded (Vector.replicate 9 1893#16)[k]) ∧ ∀ i : Fin 4, LevelBounded (mapByte 0x55#8 false)[i] := by
  decide

theorem meets_SilenceDecaysToZero : 2 ≤ 2 := le_refl 2

/-- One state in each sequencer state. -/
theorem meets_TickAlwaysCompletes :
    fresh.Inv ∧ (preambleState ⟨0, false⟩).Inv ∧ (sending 0 true ⟨0, false⟩).Inv ∧
      (drainedState .hang true 3 ⟨0, false⟩).Inv :=
  ⟨fresh_inv, preambleState_inv _, sending_inv _ _, (hanging_inv _ _).1⟩

theorem meets_TickWritesOnlyWhatItsRuleLists : ∃ t, exec .tick (queued ⟨100#16, false⟩) = .next t :=
  tick_next (queued_inv _)

theorem meets_TickSamplesTheSinkOnce :
    (queued ⟨100#16, true⟩).sinkSamples = ⟨100#16, true⟩ :: [] ∧ ∃ t, exec .tick (queued ⟨100#16, true⟩) = .next t :=
  ⟨rfl, tick_next (queued_inv _)⟩

/-- The queued frame with no preamble. -/
def noPreamble (x : SinkSample) : State := { queued x with cfgPreambleLen := 0 }

theorem noPreamble_inv (x : SinkSample) : (noPreamble x).Inv := by
  have h : (noPreamble ⟨0, false⟩).Inv := by constructor <;> first | exact params_legal | decide
  exact h.congr rfl

/-- Space for none, for one, and for more than the two bytes of the preamble; and no preamble (V55). -/
theorem meets_ColdStartFillsThePreamble :
    (∀ x ∈ [(⟨40#16, false⟩ : SinkSample), ⟨41#16, false⟩, ⟨65535#16, false⟩],
      (queued x).Inv ∧ (queued x).seqState = .idle ∧ (queued x).params.frameLen ≤ (queued x).rbCount.toNat ∧
        (queued x).sinkSample.keyed = false ∧ (queued x).cfgPreambleLen ≠ 0#16) ∧
    (noPreamble ⟨41#16, false⟩).Inv ∧ (noPreamble ⟨41#16, false⟩).seqState = .idle ∧
      (noPreamble ⟨41#16, false⟩).params.frameLen ≤ (noPreamble ⟨41#16, false⟩).rbCount.toNat ∧
      (noPreamble ⟨41#16, false⟩).sinkSample.keyed = false ∧ (noPreamble ⟨41#16, false⟩).cfgPreambleLen = 0#16 := by
  refine ⟨?_, noPreamble_inv _, rfl, by decide, rfl, rfl⟩
  intro x hx
  refine ⟨queued_inv x, rfl, by decide +revert, ?_, by decide +revert⟩
  simp only [List.mem_cons, List.not_mem_nil, or_false] at hx
  rcases hx with rfl | rfl | rfl <;> rfl

/-- From IDLE with the sink keyed, from IDLE with no preamble, and from PREAMBLE whatever the sink shows (V54, V55, V57). -/
theorem meets_FrameFillTakesTheOldestFrame :
    ((queued ⟨81#16, true⟩).Inv ∧ (queued ⟨81#16, true⟩).pobLen = 0#16 ∧ (queued ⟨81#16, true⟩).seqState ≠ .hang ∧
      (queued ⟨81#16, true⟩).params.frameLen ≤ (queued ⟨81#16, true⟩).rbCount.toNat ∧
      ¬ ((queued ⟨81#16, true⟩).seqState = .idle ∧ (queued ⟨81#16, true⟩).sinkSample.keyed = false ∧
        (queued ⟨81#16, true⟩).cfgPreambleLen ≠ 0#16) ∧
      (queued ⟨81#16, true⟩).queue.take (queued ⟨81#16, true⟩).params.frameLen = [0xAA#8, 0x55#8].map some) ∧
    ((preambleDone ⟨40#16, false⟩).Inv ∧ (preambleDone ⟨40#16, false⟩).pobLen = 0#16 ∧
      (preambleDone ⟨40#16, false⟩).seqState ≠ .hang ∧
      (preambleDone ⟨40#16, false⟩).params.frameLen ≤ (preambleDone ⟨40#16, false⟩).rbCount.toNat ∧
      ¬ ((preambleDone ⟨40#16, false⟩).seqState = .idle ∧ (preambleDone ⟨40#16, false⟩).sinkSample.keyed = false ∧
        (preambleDone ⟨40#16, false⟩).cfgPreambleLen ≠ 0#16) ∧
      (preambleDone ⟨40#16, false⟩).queue.take (preambleDone ⟨40#16, false⟩).params.frameLen =
        [0xAA#8, 0x55#8].map some) ∧
    (noPreamble ⟨41#16, false⟩).Inv ∧ ¬ ((noPreamble ⟨41#16, false⟩).cfgPreambleLen ≠ 0#16) ∧
      (noPreamble ⟨41#16, false⟩).queue.take (noPreamble ⟨41#16, false⟩).params.frameLen = [0xAA#8, 0x55#8].map some := by
  refine ⟨⟨queued_inv _, by decide, by decide, by decide, by decide, by decide⟩,
    ⟨preambleDone_inv _, by decide, by decide, by decide, by decide, by decide⟩, noPreamble_inv _, by decide, by decide⟩

/-- All the bytes fit, one of two fits, none fits. -/
theorem meets_DrainSendsWhatTheSpaceAllows : ∀ x ∈ [(⟨81#16, false⟩ : SinkSample), ⟨80#16, false⟩, ⟨0#16, true⟩],
    (sending 0 true x).Inv ∧ (sending 0 true x).pobLen ≠ 0#16 ∧ (sending 0 true x).pending = [0x1B#8, 0xE4#8].map some := by
  intro x _
  exact ⟨sending_inv _ _, by decide +revert, by decide +revert⟩

/-- A TICK in DATA with duplex on that sends both bytes, one with duplex off, one in DATA with no space, one in PREAMBLE, one in HANG. -/
theorem meets_DataBytesReloadTheHangCount :
    (drainedState .hang true 3 ⟨81#16, false⟩).Inv ∧ (drainedState .hang true 3 ⟨81#16, false⟩).seqState = .hang ∧
    (∃ t, exec .tick (drainedState .hang true 3 ⟨81#16, false⟩) = .next t) ∧
    (sending 0 true ⟨81#16, false⟩).Inv ∧
    (∃ t, exec .tick (sending 0 true ⟨81#16, false⟩) = .next t) ∧
      after .tick (sending 0 true ⟨81#16, false⟩)
        (fun t => (t.seqState, decide ((sending 0 true ⟨81#16, false⟩).sinkWrites.length < t.sinkWrites.length))) =
        some (.data, true) ∧
      (∃ t, exec .tick (sending 0 false ⟨81#16, false⟩) = .next t) ∧ (sending 0 false ⟨81#16, false⟩).cfgDuplex = false ∧
      after .tick (sending 0 true ⟨40#16, false⟩) (fun t => (t.seqState, t.sinkWrites)) = some (.data, []) ∧
      after .tick (preambleState ⟨81#16, false⟩) (·.seqState) = some .preamble :=
  ⟨(hanging_inv _ _).1, rfl, tick_next (hanging_inv _ _).1, sending_inv _ _, tick_next (sending_inv _ _), by decide +kernel,
    tick_next (sending_inv _ _), rfl, by decide +kernel, by decide +kernel⟩

/-- Both clauses: a hang of three steps; duplex off; duplex on with a count of 0. -/
theorem meets_EndOfDataGoesToHangOrIdle :
    ((drainedState .data true 3 ⟨41#16, false⟩).Inv ∧ (drainedState .data true 3 ⟨41#16, false⟩).pobLen = 0#16 ∧
      (drainedState .data true 3 ⟨41#16, false⟩).seqState = .data ∧
      (drainedState .data true 3 ⟨41#16, false⟩).rbCount.toNat < (drainedState .data true 3 ⟨41#16, false⟩).params.frameLen ∧
      (drainedState .data true 3 ⟨41#16, false⟩).cfgDuplex = true ∧
      (drainedState .data true 3 ⟨41#16, false⟩).hangCnt ≠ 0#32) ∧
    ((drainedState .data false 3 ⟨41#16, false⟩).Inv ∧ (drainedState .data false 3 ⟨41#16, false⟩).cfgDuplex = false) ∧
    ((drainedState .data true 0 ⟨41#16, false⟩).Inv ∧ (drainedState .data true 0 ⟨41#16, false⟩).hangCnt = 0#32) :=
  ⟨⟨(ended_inv _ _).1, by decide, by decide, by decide, by decide, by decide⟩, ⟨(ended_inv _ _).1, rfl⟩, (ended_inv _ _).2, rfl⟩

/-- Space for less than the count, for exactly the count, and for more. -/
theorem meets_HangCountsItsSilenceSteps : ∀ x ∈ [(⟨81#16, false⟩ : SinkSample), ⟨121#16, false⟩, ⟨65535#16, true⟩],
    (drainedState .hang true 3 x).Inv ∧ (drainedState .hang true 3 x).seqState = .hang := by
  intro x _
  exact ⟨(hanging_inv _ _).1, rfl⟩

/-- Both clauses (duplex on and off), with one TICK after the draining one. -/
theorem meets_HangLastsExactlyItsDuration : ∀ d : Bool,
    (sending 0 d ⟨0, false⟩).Inv ∧ (sending 0 d ⟨0, false⟩).seqState = .data ∧ (sending 0 d ⟨0, false⟩).pobLen ≠ 0#16 ∧
      (sending 0 d ⟨0, false⟩).pending = [0x1B#8, 0xE4#8].map some ∧
      (sending 0 d ⟨0, false⟩).rbCount.toNat < (sending 0 d ⟨0, false⟩).params.frameLen ∧
      [0x1B#8, 0xE4#8].length ≤ maxBlocks (81#16).toNat ∧ [(⟨121#16, false⟩ : SinkSample)] ≠ [] ∧
      (sending 0 d ⟨0, false⟩).cfgDuplex = d := by
  intro d
  exact ⟨sending_inv _ _, by decide +revert, by decide +revert, by decide +revert, by decide +revert, by decide, by decide, rfl⟩

theorem meets_NoFillInHangOrEmptyIdle :
    (drainedState .hang true 3 ⟨41#16, false⟩).Inv ∧ (drainedState .hang true 3 ⟨41#16, false⟩).seqState = .hang ∧
      fresh.seqState = .idle ∧ fresh.pobLen = 0#16 ∧ fresh.rbCount.toNat < fresh.params.frameLen :=
  ⟨(hanging_inv _ _).1, rfl, rfl, rfl, by decide⟩

theorem meets_HangIgnoresQueueAndConfiguration :
    (drainedState .hang true 3 ⟨41#16, false⟩).seqState = .hang ∧ (drainedState .hang true 3 ⟨41#16, false⟩).pobLen = 0#16 ∧
      ∃ t, exec .tick (drainedState .hang true 3 ⟨41#16, false⟩) = .next t :=
  ⟨rfl, rfl, tick_next (hanging_inv _ _).1⟩

theorem meets_OneEmissionPathPerTick :
    (sending 0 true ⟨81#16, false⟩).Inv ∧ (∃ t, exec .tick (sending 0 true ⟨81#16, false⟩) = .next t) ∧
      (drainedState .hang true 3 ⟨81#16, false⟩).Inv ∧
      ∃ t, exec .tick (drainedState .hang true 3 ⟨81#16, false⟩) = .next t :=
  ⟨sending_inv _ _, tick_next (sending_inv _ _), (hanging_inv _ _).1, tick_next (hanging_inv _ _).1⟩

/-- Free space 0, 40, 41 and 65535 (V52). -/
theorem meets_TickStaysBelowTheFreeSpace :
    ∀ x ∈ [(⟨0#16, false⟩ : SinkSample), ⟨40#16, false⟩, ⟨41#16, false⟩, ⟨65535#16, false⟩],
      (drainedState .hang true 3 x).Inv ∧ ∃ t, exec .tick (drainedState .hang true 3 x) = .next t := by
  intro x _
  exact ⟨(hanging_inv _ _).1, tick_next (hanging_inv _ _).1⟩

/-- One case for each row: what holds before the TICK, and for the rows about the count after it, that count. -/
theorem meets_SequencerFollowsTheTransitionTable :
    (fresh.Inv ∧ fresh.seqState = .idle ∧ fresh.rbCount.toNat < fresh.params.frameLen) ∧
    ((queued ⟨100#16, false⟩).Inv ∧ (queued ⟨100#16, false⟩).sinkSample.keyed = false) ∧
    ((queued ⟨100#16, true⟩).Inv ∧ (queued ⟨100#16, true⟩).sinkSample.keyed = true) ∧
    ((preambleState ⟨0, false⟩).Inv ∧ (preambleState ⟨0, false⟩).pobLen ≠ 0#16) ∧
    ((preambleDone ⟨0, false⟩).Inv ∧ (preambleDone ⟨0, false⟩).seqState = .preamble) ∧
    ((sending 0 true ⟨0, false⟩).Inv ∧ (sending 0 true ⟨0, false⟩).pobLen ≠ 0#16) ∧
    ((drainedState .data true 3 ⟨121#16, false⟩).Inv ∧ (drainedState .data true 3 ⟨121#16, false⟩).hangCnt ≠ 0#32) ∧
    ((drainedState .data true 0 ⟨121#16, false⟩).Inv ∧ (drainedState .data true 0 ⟨121#16, false⟩).hangCnt = 0#32) ∧
    after .tick (drainedState .hang true 3 ⟨81#16, false⟩) (·.hangCnt) = some 1#32 ∧
    after .tick (drainedState .hang true 3 ⟨121#16, false⟩) (·.hangCnt) = some 0#32 :=
  ⟨⟨fresh_inv, by decide, by decide⟩, ⟨queued_inv _, rfl⟩, ⟨queued_inv _, rfl⟩, ⟨preambleState_inv _, by decide⟩,
    ⟨preambleDone_inv _, rfl⟩, ⟨sending_inv _ _, by decide⟩, ⟨(ended_inv _ _).1, by decide⟩, ⟨(ended_inv _ _).2, rfl⟩,
    by decide +kernel, by decide +kernel⟩

theorem meets_PreambleOncePerTransmission :
    after .tick (queued ⟨100#16, false⟩) (·.seqState) = some .preamble ∧ (queued ⟨100#16, false⟩).Inv ∧
      (preambleDone ⟨0, false⟩).Inv ∧ (preambleDone ⟨0, false⟩).seqState = .preamble ∧
      (preambleDone ⟨0, false⟩).pobLen = 0#16 ∧ ∃ t, exec .tick (preambleDone ⟨0, false⟩) = .next t :=
  ⟨by decide +kernel, queued_inv _, preambleDone_inv _, rfl, rfl, tick_next (preambleDone_inv _)⟩

theorem meets_OnlyTickMovesTheTransmitter :
    Instr.submitFrame 2#16 [1#8, 2#8] ≠ .tick ∧ ∃ t, exec (.submitFrame 2#16 [1#8, 2#8]) fresh = .next t :=
  ⟨by decide, ⟨_, rfl⟩⟩

/-- A command, a reset and an idle port. -/
theorem meets_StepKeepsTheInvariants :
    (port (.command 0x60000001#32 [])).Inv ∧ (∃ t, step (port (.command 0x60000001#32 [])) = .next t) ∧
      (port .reset).Inv ∧ (∃ t, step (port .reset) = .next t) ∧ fresh.Inv ∧ ∃ t, step fresh = .next t :=
  ⟨fresh_inv.congr rfl, ⟨_, rfl⟩, fresh_inv.congr rfl, ⟨_, rfl⟩, fresh_inv, ⟨_, rfl⟩⟩

theorem meets_NoStepFaultsInsideTheInvariants : (port (.command 0x20000000#32 [])).Inv := fresh_inv.congr rfl

theorem meets_StepKeepsTheFilterBounded : fresh.FiltBounded ∧ ∃ t, step fresh = .next t := by
  refine ⟨?_, ⟨_, rfl⟩⟩
  intro k
  have h : fresh.filtMem[k] = 0#16 := by simp [fresh, State.resetOf]
  rw [h]
  decide

/-- A step that sends two blocks. -/
theorem meets_EverySampleSentIsInRange :
    fresh.FiltBounded ∧ (sending 0 true ⟨81#16, false⟩).filtMem = fresh.filtMem ∧
      (∃ t, exec .tick (sending 0 true ⟨81#16, false⟩) = .next t) ∧
      after .tick (sending 0 true ⟨81#16, false⟩) (fun t => (newBlocks (sending 0 true ⟨81#16, false⟩) t).length) = some 2 :=
  ⟨meets_StepKeepsTheFilterBounded.1, rfl, tick_next (sending_inv _ _), by decide +kernel⟩

theorem meets_ParametersNeverChange : ∃ t, step (port .reset) = .next t := ⟨_, rfl⟩

theorem meets_StepAppendsToTheObservedSequences : ∃ t, step (port (.command 0x50000000#32 [])) = .next t := ⟨_, rfl⟩

end Sys2Proof.Tests
end

section
/-! Reset, the invariants over a step, and what the commands of the block do not touch (spec/10_state.md). -/

namespace Sys2Proof.Machine

/-! ## Frames and answers of the commands -/

/-- SUBMIT_FRAME, accepted or rejected, writes RB_MEM, RB_HEAD, RB_COUNT and the response only (R130, R262). -/
theorem submitFrame_frame (s : State) (len : BitVec 16) (p : List Byte) :
    s.submitFrame len p = { s with
      rbMem := (s.submitFrame len p).rbMem, rbHead := (s.submitFrame len p).rbHead
      rbCount := (s.submitFrame len p).rbCount, resp := (s.submitFrame len p).resp
      responses := (s.submitFrame len p).responses } := by
  rcases submitFrame_cases s len p with ⟨-, e⟩ | ⟨-, -, e⟩ | ⟨-, -, e⟩ <;> rw [e]
  · rfl
  · rfl
  · rw [rbEnqueue_frame]; rfl

/-- The word a completing command is answered with, as a function of the state before it (R110, R130, R134). -/
def State.answer (s : State) : Instr → Word
  | .submitFrame len _ => respWord ((s.submitError len).getD .ok) 0
  | .getQueueCap => respWord .ok (BitVec.ofNat 16 s.rbFreeFrames)
  | _ => respWord .ok 0

theorem submitFrame_resp (s : State) (len : BitVec 16) (p : List Byte) :
    (s.submitFrame len p).resp = s.answer (.submitFrame len p) := by
  simp only [State.submitFrame, State.answer]
  cases s.submitError len <;> rfl

theorem exec_resp {i : Instr} {s t : State} (e : exec i s = .next t) : t.resp = s.answer i := by
  rcases exec_next_cases e with ⟨len, p, rfl, -, rfl⟩ | ⟨rfl, h⟩ | ⟨d, rfl, rfl⟩ | ⟨l, d, rfl, rfl⟩ | ⟨rfl, rfl⟩ |
    ⟨d, rfl, rfl⟩
  · exact submitFrame_resp s len p
  · exact congrArg State.resp (execTick_frame h)
  all_goals rfl

/-- The answer is computed from the parameters and `RB_COUNT` alone (R37, R54). -/
theorem answer_congr {s u : State} (hp : s.params = u.params) (hc : s.rbCount = u.rbCount) (i : Instr) :
    s.answer i = u.answer i := by
  have hfree : s.rbFree = u.rbFree := by simp only [State.rbFree, hp, hc]
  cases i with
  | submitFrame len p => simp only [State.answer, State.submitError, hfree, hp]
  | getQueueCap => simp only [State.answer, State.rbFreeFrames, hfree, hp]
  | tick => rfl
  | setPreambleDelay d => rfl
  | setDevHang l h => rfl
  | setDuplex d => rfl

/-! ## Every step keeps the invariants -/

theorem State.Inv.with_cfgPreambleLen {s : State} (h : s.Inv) {n : BitVec 16} (hn : n.toNat ≤ 1200) :
    State.Inv { s with cfgPreambleLen := n } :=
  { h with preamble_le := hn }

theorem State.Inv.with_cfgHangDur {s : State} (h : s.Inv) {n : BitVec 32} (hn : n.toNat ≤ 255 * s.params.hangScale) :
    State.Inv { s with cfgHangDur := n } :=
  { h with hang_dur_le := hn }

/-- R240: the clamp bounds the preamble length. -/
theorem preambleLen_le (p : Params) (delay : BitVec 8) :
    (BitVec.ofNat 16 (Params.preambleLen p delay)).toNat ≤ 1200 := by
  rw [BitVec.toNat_ofNat]
  exact (Nat.mod_le _ _).trans (Nat.min_le_right _ _)

/-- R243: an 8-bit number of units bounds the hang duration. -/
theorem hangDur_le (p : Params) (units : BitVec 8) :
    (BitVec.ofNat 32 (Params.hangDur p units)).toNat ≤ 255 * p.hangScale := by
  have hu : operand units ≤ 255 := Nat.le_of_lt_succ units.isLt
  rw [BitVec.toNat_ofNat]
  exact (Nat.mod_le _ _).trans (Nat.mul_le_mul_right _ hu)

theorem execTick_inv {s t : State} (h : s.Inv) (e : execTick s = .next t) : t.Inv := by
  obtain ⟨u, v, -, -, -, hv, e'⟩ := execTick_eq h
  rw [e] at e'
  cases e'
  exact respond_inv hv _ _

/-- Every command keeps the invariants. -/
theorem exec_inv {i : Instr} {s t : State} (h : s.Inv) (e : exec i s = .next t) : t.Inv := by
  rcases exec_next_cases e with ⟨len, p, -, hp, rfl⟩ | ⟨-, ht⟩ | ⟨d, -, rfl⟩ | ⟨l, u, -, rfl⟩ | ⟨-, rfl⟩ | ⟨d, -, rfl⟩
  · exact submitFrame_inv h hp
  · exact execTick_inv h ht
  · exact respond_inv (h.with_cfgPreambleLen (preambleLen_le _ d)) _ _
  · exact (h.with_cfgHangDur (hangDur_le _ u)).congr rfl
  · exact respond_inv h _ _
  · exact h.congr rfl

/-- Every delivery that completes keeps the invariants, an illegal word among them (R112, R262). -/
theorem runCommand_inv {w : Word} {p : List Byte} {s t : State} (h : s.Inv) (e : runCommand w p s = .next t) : t.Inv := by
  rcases runCommand_next e with ⟨i, -, hi⟩ | ⟨-, rfl⟩
  · exact exec_inv h hi
  · exact respond_inv h _ _

/-- `RST` during a command leaves the reset values, so legal parameters are all it needs (R291). -/
theorem applyRstDuring_inv {s t : State} (h : t.params.Legal) (n : Nat) : (s.applyRstDuring t n).Inv :=
  (applyRst_inv h).congr rfl

theorem step_inv {s t : State} (h : s.Inv) (e : step s = .next t) : t.Inv := by
  have htake := takeEvent_inv h
  rcases step_next e with ⟨-, rfl⟩ | ⟨w, p, rest, -, hr⟩ | ⟨rest, -, rfl⟩ | ⟨w, p, n, rest, u, -, hr, rfl⟩
  · exact h
  · exact runCommand_inv htake hr
  · exact applyRst_inv htake.legal
  · exact applyRstDuring_inv (runCommand_inv htake hr).legal n

/-- Settles O50: each kind of step (none, a command, the two resets) keeps the invariants. -/
theorem stepKeepsTheInvariants : Obligations.StepKeepsTheInvariants :=
  fun _ _ => step_inv

/-! ## Noninterference of the commands -/

/-- Settles O16: both runs decode to the same command, and its answer is a function of the parameters and `RB_COUNT`. -/
theorem responseRevealsOnlyTheQueueCount : Obligations.ResponseRevealsOnlyTheQueueCount := by
  intro s₁ s₂ t₁ t₂ w p hp hc e₁ e₂
  rcases runCommand_next e₁ with ⟨i, hi, h₁⟩ | ⟨⟨r, hr⟩, h₁⟩ <;>
    rcases runCommand_next e₂ with ⟨j, hj, h₂⟩ | ⟨⟨r', hr'⟩, h₂⟩
  · obtain rfl : i = j := by simpa [hi] using hj
    rw [exec_resp h₁, exec_resp h₂, answer_congr hp hc]
  · simp [hi] at hr'
  · simp [hr] at hj
  · rw [h₁, h₂]; rfl

/-- Settles O25, command by command: each leaves the configuration registers that are not its own. -/
theorem eachConfigurationRegisterHasOneWriter : Obligations.EachConfigurationRegisterHasOneWriter := by
  intro s t i e
  rcases exec_next_cases e with ⟨len, p, -, -, rfl⟩ | ⟨-, h⟩ | ⟨d, rfl, rfl⟩ | ⟨l, u, rfl, rfl⟩ | ⟨-, rfl⟩ | ⟨d, rfl, rfl⟩
  · rw [submitFrame_frame]
    exact ⟨fun _ => rfl, fun _ => ⟨rfl, rfl⟩, fun _ => rfl⟩
  · rw [execTick_frame h]
    exact ⟨fun _ => rfl, fun _ => ⟨rfl, rfl⟩, fun _ => rfl⟩
  · exact ⟨fun hn => absurd rfl (hn d), fun _ => ⟨rfl, rfl⟩, fun _ => rfl⟩
  · exact ⟨fun _ => rfl, fun hn => absurd rfl (hn l u), fun _ => rfl⟩
  · exact ⟨fun _ => rfl, fun _ => ⟨rfl, rfl⟩, fun _ => rfl⟩
  · exact ⟨fun _ => rfl, fun _ => ⟨rfl, rfl⟩, fun hn => absurd rfl (hn d)⟩

/-! ## A TICK does not look at the sink inputs of later TICKs -/

/-- The state with another list of sink inputs to come. -/
def State.withSinkSamples (xs : List SinkSample) (s : State) : State := { s with sinkSamples := xs }

section
variable (s : State) (xs : List SinkSample)

@[simp] theorem State.withSinkSamples_params : (s.withSinkSamples xs).params = s.params := rfl
@[simp] theorem State.withSinkSamples_seqState : (s.withSinkSamples xs).seqState = s.seqState := rfl
@[simp] theorem State.withSinkSamples_hangCnt : (s.withSinkSamples xs).hangCnt = s.hangCnt := rfl
@[simp] theorem State.withSinkSamples_rbTail : (s.withSinkSamples xs).rbTail = s.rbTail := rfl
@[simp] theorem State.withSinkSamples_pobLen : (s.withSinkSamples xs).pobLen = s.pobLen := rfl
@[simp] theorem State.withSinkSamples_pobPtr : (s.withSinkSamples xs).pobPtr = s.pobPtr := rfl
@[simp] theorem State.withSinkSamples_cfgPreambleLen : (s.withSinkSamples xs).cfgPreambleLen = s.cfgPreambleLen := rfl
@[simp] theorem State.withSinkSamples_queued : (s.withSinkSamples xs).queued = s.queued := rfl
@[simp] theorem State.withSinkSamples_coldStart (keyed : Bool) :
    (s.withSinkSamples xs).coldStart keyed = s.coldStart keyed := rfl
@[simp] theorem State.withSinkSamples_rbRead (i : Nat) : (s.withSinkSamples xs).rbRead i = s.rbRead i := rfl
@[simp] theorem State.withSinkSamples_pobRead (i : Nat) : (s.withSinkSamples xs).pobRead i = s.pobRead i := rfl

@[simp] theorem rbTailNext_withSinkSamples :
    (s.withSinkSamples xs).rbTailNext = s.rbTailNext.withSinkSamples xs := rfl
@[simp] theorem pobClear_withSinkSamples : (s.withSinkSamples xs).pobClear = s.pobClear.withSinkSamples xs := rfl
@[simp] theorem silenceStep_withSinkSamples :
    (s.withSinkSamples xs).silenceStep = s.silenceStep.withSinkSamples xs := rfl

@[simp] theorem endOfData_withSinkSamples : (s.withSinkSamples xs).endOfData = s.endOfData.withSinkSamples xs := by
  simp only [State.endOfData, apply_ite (State.withSinkSamples xs)]
  rfl

@[simp] theorem drainByte_withSinkSamples (c : Byte) :
    (s.withSinkSamples xs).drainByte c = (s.drainByte c).withSinkSamples xs := by
  simp only [State.drainByte, State.hangReload, apply_ite (State.withSinkSamples xs)]
  rfl

@[simp] theorem rbReadBytes_withSinkSamples (n : Nat) :
    (s.withSinkSamples xs).rbReadBytes n = (s.rbReadBytes n).map (Prod.map id (State.withSinkSamples xs)) := by
  induction n generalizing s with
  | zero => rfl
  | succ n ih =>
    simp only [State.rbReadBytes, State.withSinkSamples_rbTail, State.withSinkSamples_rbRead,
      rbTailNext_withSinkSamples, ih]
    cases s.rbRead s.rbTail.toNat with
    | error f => rfl
    | ok b => cases s.rbTailNext.rbReadBytes n <;> rfl

@[simp] theorem rbDequeue_withSinkSamples :
    (s.withSinkSamples xs).rbDequeue = s.rbDequeue.map (Prod.map id (State.withSinkSamples xs)) := by
  simp only [State.rbDequeue, State.withSinkSamples_params, rbReadBytes_withSinkSamples]
  cases s.rbReadBytes s.params.frameLen <;> rfl

@[simp] theorem pobFill_withSinkSamples (bytes : List Byte) :
    (s.withSinkSamples xs).pobFill bytes = (s.pobFill bytes).map (State.withSinkSamples xs) := by
  simp only [State.pobFill, apply_ite (Except.map (State.withSinkSamples xs))]
  rfl

@[simp] theorem preambleFill_withSinkSamples :
    (s.withSinkSamples xs).preambleFill = s.preambleFill.map (State.withSinkSamples xs) := by
  simp only [State.preambleFill, State.withSinkSamples_params, State.withSinkSamples_cfgPreambleLen,
    pobFill_withSinkSamples]
  cases s.pobFill (List.replicate s.cfgPreambleLen.toNat s.params.syncByte) <;> rfl

@[simp] theorem frameFill_withSinkSamples :
    (s.withSinkSamples xs).frameFill = s.frameFill.map (State.withSinkSamples xs) := by
  simp only [State.frameFill, rbDequeue_withSinkSamples]
  cases s.rbDequeue with
  | error f => rfl
  | ok r =>
    simp only [Except.map, Prod.map, id, pobFill_withSinkSamples]
    cases r.2.pobFill r.1 <;> rfl

theorem phaseStep_withSinkSamples (keyed : Bool) :
    (s.withSinkSamples xs).phaseStep keyed = (s.phaseStep keyed).map (State.withSinkSamples xs) := by
  simp only [State.phaseStep, State.withSinkSamples_pobLen, State.withSinkSamples_seqState,
    State.withSinkSamples_queued, State.withSinkSamples_coldStart, preambleFill_withSinkSamples,
    frameFill_withSinkSamples, endOfData_withSinkSamples, apply_ite (Except.map (State.withSinkSamples xs))]
  rfl

theorem drain_withSinkSamples (fuel space : Nat) :
    State.drain fuel space (s.withSinkSamples xs) = (State.drain fuel space s).map (State.withSinkSamples xs) := by
  induction fuel generalizing s space with
  | zero => rfl
  | succ fuel ih =>
    simp only [State.drain, State.withSinkSamples_pobPtr, State.withSinkSamples_pobRead]
    split
    · cases s.pobRead s.pobPtr.toNat with
      | error f => rfl
      | ok c =>
        simp only [drainByte_withSinkSamples, State.withSinkSamples_pobLen, State.withSinkSamples_pobPtr, ih,
          pobClear_withSinkSamples]
        split <;> rfl
    · rfl

theorem hangLoop_withSinkSamples (fuel space : Nat) :
    State.hangLoop fuel space (s.withSinkSamples xs) = (State.hangLoop fuel space s).withSinkSamples xs := by
  induction fuel generalizing s space with
  | zero => rfl
  | succ fuel ih =>
    simp only [State.hangLoop, silenceStep_withSinkSamples, State.withSinkSamples_hangCnt, ih]
    split
    · split <;> rfl
    · rfl

theorem emissionStep_withSinkSamples (space : Nat) :
    (s.withSinkSamples xs).emissionStep space = (s.emissionStep space).map (State.withSinkSamples xs) := by
  simp only [State.emissionStep, State.withSinkSamples_pobLen, State.withSinkSamples_seqState,
    drain_withSinkSamples, hangLoop_withSinkSamples]
  split
  · rfl
  · split <;> rfl

end

/-- A TICK with the same first sink input and other later ones does the same (R51, R202). -/
theorem execTick_withSinkSamples {s t : State} {x : SinkSample} {rest : List SinkSample}
    (hs : s.sinkSamples = x :: rest) (e : execTick s = .next t) (rest' : List SinkSample) :
    execTick (s.withSinkSamples (x :: rest')) = .next (t.withSinkSamples rest') := by
  obtain ⟨u, v, hu, hv, rfl⟩ := execTick_next e
  have hsample : (s.withSinkSamples (x :: rest')).sinkSample = s.sinkSample := by
    simp only [State.sinkSample, hs, State.withSinkSamples]
  have hafter : (s.withSinkSamples (x :: rest')).afterSinkSample = s.afterSinkSample.withSinkSamples rest' := by
    simp only [State.afterSinkSample, hs, State.withSinkSamples]
  simp only [execTick, State.tickBody, hsample, hafter, phaseStep_withSinkSamples, hu, Except.map,
    emissionStep_withSinkSamples, hv]
  rfl

/-- Settles O35: the first listed sample is used up, and the rest of the list passes through untouched. -/
theorem tickSamplesTheSinkOnce : Obligations.TickSamplesTheSinkOnce := by
  intro s t x rest rest' hs e
  have hafter : s.afterSinkSample = s.withSinkSamples rest := by
    simp only [State.afterSinkSample, hs, State.withSinkSamples]
  refine ⟨?_, ?_, execTick_withSinkSamples hs e rest'⟩
  · rw [execTick_frame e, hafter]; rfl
  · rw [execTick_frame e, hafter]; rfl

/-! ## The parameters -/

/-- Settles O56: no command changes the parameters, and neither reset does. -/
theorem parametersNeverChange : Obligations.ParametersNeverChange := by
  intro s t e
  rcases step_next e with ⟨-, rfl⟩ | ⟨w, p, rest, -, hr⟩ | ⟨rest, -, rfl⟩ | ⟨w, p, n, rest, u, -, hr, rfl⟩
  · rfl
  · exact (runCommand_params hr :)
  · rfl
  · exact (runCommand_params hr :)

/-! ## Reset -/

/-- The preamble length after reset is exact: the clamped offset fits 16 bits (R56). -/
theorem resetOf_cfgPreambleLen_toNat (p : Params) :
    (State.resetOf p).cfgPreambleLen.toNat = min p.preambleOffset 1200 := by
  have hle : min p.preambleOffset 1200 ≤ 1200 := Nat.min_le_right _ _
  exact Nat.mod_eq_of_lt (by omega)

theorem resetOf_filtMem_getElem (p : Params) (k : Fin 9) : (State.resetOf p).filtMem[k] = 0#16 :=
  Vector.getElem_replicate k.isLt

/-- Settles O1, register by register of R56's table. -/
theorem resetStateHasTheResetValues : Obligations.ResetStateHasTheResetValues :=
  ⟨Config.params_legal, rfl, rfl, rfl, rfl, rfl, rfl, rfl, resetOf_filtMem_getElem _, rfl,
    resetOf_cfgPreambleLen_toNat _, rfl, rfl, rfl⟩

/-- Settles O51: any legal parameters give a reset state inside the invariants. -/
theorem resetMeetsTheInvariants : Obligations.ResetMeetsTheInvariants :=
  resetOf_inv Config.params_legal

/-- Settles O54: the delay line is all zeros. -/
theorem resetFilterIsBounded : Obligations.ResetFilterIsBounded := by
  intro k
  have hzero : State.reset.filtMem[k] = 0#16 := resetOf_filtMem_getElem _ k
  rw [hzero]
  decide

/-! ## A step takes a delivery -/

theorem runCommand_of_decode {w : Word} {p : List Byte} {i : Instr} (h : decode w p = .ok i) (s : State) :
    runCommand w p s = exec i s := by
  simp only [runCommand, h]

/-- A step with a command at the head of the port runs that delivery (R52, R80). -/
theorem step_command {s : State} {w : Word} {p : List Byte} {rest : List HostEvent}
    (h : s.hostPort = .command w p :: rest) : step s = runCommand w p { s with hostPort := rest } := by
  simp only [step, State.takeEvent, h, List.tail_cons]

/-- Settles O5: the delivery is taken off the port, then decoded and run. -/
theorem stepRunsTheDecodedCommand : Obligations.StepRunsTheDecodedCommand :=
  fun _ _ _ _ _ hport hdecode => (step_command hport).trans (runCommand_of_decode hdecode _)

end Sys2Proof.Machine
end

section
/-! What a step may read and write of the two arrays and of the observed sequences (spec/20_memory.md). -/

namespace Sys2Proof.Machine

/-! ## No step faults -/

theorem exec_ne_fault {s : State} (h : s.Inv) (i : Instr) (f : Fault) : exec i s ≠ .fault f := by
  cases i with
  | submitFrame len p =>
    show execSubmitFrame len p s ≠ _
    by_cases hp : payloadMatches len p = true
    · rw [execSubmitFrame_ok hp h.head_lt]; exact nofun
    · rw [execSubmitFrame, if_neg hp]; exact nofun
  | tick =>
    obtain ⟨_, v, -, -, -, -, e⟩ := execTick_eq h
    show execTick s ≠ _
    rw [e]; exact nofun
  | setPreambleDelay d => exact nofun
  | setDevHang l u => exact nofun
  | getQueueCap => exact nofun
  | setDuplex d => exact nofun

theorem runCommand_ne_fault {s : State} (h : s.Inv) (w : Word) (p : List Byte) (f : Fault) :
    runCommand w p s ≠ .fault f := by
  unfold runCommand
  split
  · exact exec_ne_fault h _ f
  · rename_i r _; cases r <;> exact nofun

/-- Settles O52: the one index check of SUBMIT_FRAME passes, and a TICK reads written bytes only. -/
theorem noStepFaultsInsideTheInvariants : Obligations.NoStepFaultsInsideTheInvariants := by
  intro s h f
  have hrun := fun w p => runCommand_ne_fault (takeEvent_inv h) w p f
  unfold step
  split
  · exact nofun
  · exact hrun _ _
  · exact nofun
  · rename_i w p n rest _
    split
    · exact nofun
    · rename_i g hg; rw [← hg]; exact hrun w p
    · exact nofun

/-! ## The observed sequences only grow -/

theorem emitBlock_prefix (s : State) (x : Vector Sample 4) : s.sinkWrites <+: (s.emitBlock x).sinkWrites := by
  rw [State.emitBlock_sinkWrites]; exact List.prefix_append _ _

theorem drainByte_prefix (s : State) (c : Byte) : s.sinkWrites <+: (s.drainByte c).sinkWrites := by
  rw [State.drainByte_sinkWrites]; exact emitBlock_prefix s _

theorem drain_prefix {fuel space : Nat} {s t : State} (e : State.drain fuel space s = .ok t) :
    s.sinkWrites <+: t.sinkWrites := by
  induction fuel generalizing space s with
  | zero => cases e; exact List.prefix_rfl
  | succ fuel ih =>
    rw [State.drain] at e
    split at e
    · split at e
      · cases e
      · rename_i c _
        refine (drainByte_prefix s c).trans ?_
        split at e
        · cases e; exact List.prefix_rfl
        · exact ih e
    · cases e; exact List.prefix_rfl

theorem hangLoop_prefix (fuel space : Nat) (s : State) :
    s.sinkWrites <+: (State.hangLoop fuel space s).sinkWrites := by
  induction fuel generalizing space s with
  | zero => exact List.prefix_rfl
  | succ fuel ih =>
    have hstep : s.sinkWrites <+: s.silenceStep.sinkWrites := emitBlock_prefix s _
    rw [State.hangLoop]
    split
    · split
      · exact hstep
      · exact hstep.trans (ih _ _)
    · exact List.prefix_rfl

theorem emissionStep_prefix {s t : State} {space : Nat} (e : s.emissionStep space = .ok t) :
    s.sinkWrites <+: t.sinkWrites := by
  unfold State.emissionStep at e
  split at e
  · exact drain_prefix e
  · split at e
    · cases e; exact hangLoop_prefix _ _ s
    · cases e; exact List.prefix_rfl

theorem execTick_prefix {s t : State} (e : execTick s = .next t) : s.sinkWrites <+: t.sinkWrites := by
  obtain ⟨u, v, hu, hv, rfl⟩ := execTick_next e
  have hphase : u.sinkWrites = s.sinkWrites := by rw [phaseStep_frame hu]; exact State.afterSinkSample_sinkWrites s
  have hemit : u.sinkWrites <+: v.sinkWrites := emissionStep_prefix hv
  rwa [hphase] at hemit

/-- A command appends its blocks and one response, and leaves the port to the step (R80). -/
theorem exec_appends {i : Instr} {s t : State} (e : exec i s = .next t) :
    s.sinkWrites <+: t.sinkWrites ∧ t.responses = s.responses ++ [t.resp] ∧ t.hostPort = s.hostPort := by
  rcases exec_next_cases e with ⟨len, p, -, -, rfl⟩ | ⟨-, h⟩ | ⟨d, -, rfl⟩ | ⟨l, u, -, rfl⟩ | ⟨-, rfl⟩ | ⟨d, -, rfl⟩
  · rcases submitFrame_cases s len p with ⟨-, e⟩ | ⟨-, -, e⟩ | ⟨-, -, e⟩ <;> rw [e]
    · exact ⟨List.prefix_rfl, rfl, rfl⟩
    · exact ⟨List.prefix_rfl, rfl, rfl⟩
    · rw [rbEnqueue_frame]; exact ⟨List.prefix_rfl, rfl, rfl⟩
  · refine ⟨execTick_prefix h, ?_, ?_⟩ <;> rw [execTick_frame h]
  all_goals exact ⟨List.prefix_rfl, rfl, rfl⟩

theorem runCommand_appends {w : Word} {p : List Byte} {s t : State} (e : runCommand w p s = .next t) :
    s.sinkWrites <+: t.sinkWrites ∧ t.responses = s.responses ++ [t.resp] ∧ t.hostPort = s.hostPort := by
  rcases runCommand_next e with ⟨i, -, h⟩ | ⟨-, rfl⟩
  · exact exec_appends h
  · exact ⟨List.prefix_rfl, rfl, rfl⟩

/-- Settles O57: a command appends, and neither reset takes back what was observed before it. -/
theorem stepAppendsToTheObservedSequences : Obligations.StepAppendsToTheObservedSequences := by
  intro s t e
  rcases step_next e with ⟨hport, rfl⟩ | ⟨w, p, rest, -, hr⟩ | ⟨rest, -, rfl⟩ | ⟨w, p, n, rest, u, -, hr, rfl⟩
  · exact ⟨List.prefix_rfl, List.prefix_rfl, by rw [hport]; rfl⟩
  · obtain ⟨hsink, hresp, hport⟩ := runCommand_appends hr
    exact ⟨hsink, hresp ▸ List.prefix_append _ _, hport⟩
  · exact ⟨List.prefix_rfl, List.prefix_rfl, rfl⟩
  · obtain ⟨-, -, hport⟩ := runCommand_appends hr
    exact ⟨List.prefix_append _ _, List.prefix_rfl, hport⟩

/-! ## The queue and the pending bytes as lists -/

@[simp] theorem State.queue_length (s : State) : s.queue.length = s.rbCount.toNat := by
  simp [State.queue]

@[simp] theorem State.queue_getElem (s : State) (k : Nat) (hk : k < s.queue.length) :
    s.queue[k] = s.rbMem.read ((s.rbTail.toNat + k) % s.params.rbCap) := by
  simp [State.queue]

@[simp] theorem State.pending_length (s : State) : s.pending.length = s.pobLen.toNat - s.pobPtr.toNat := by
  simp [State.pending]

@[simp] theorem State.pending_getElem (s : State) (j : Nat) (hj : j < s.pending.length) :
    s.pending[j] = s.pobMem.read (s.pobPtr.toNat + j) := by
  simp [State.pending]

/-- Every queued byte is a value (R75). -/
theorem State.Inv.queue_written {s : State} (h : s.Inv) {x : Option Byte} (hx : x ∈ s.queue) :
    ∃ b : Byte, x = some b := by
  obtain ⟨k, hk, rfl⟩ := List.getElem_of_mem hx
  rw [State.queue_getElem]
  exact Option.isSome_iff_exists.1 (h.rb_written k (by simpa using hk))

/-- Every pending byte is a value (R75). -/
theorem State.Inv.pending_written {s : State} (h : s.Inv) {x : Option Byte} (hx : x ∈ s.pending) :
    ∃ b : Byte, x = some b := by
  obtain ⟨j, hj, rfl⟩ := List.getElem_of_mem hx
  rw [State.pending_length] at hj
  rw [State.pending_getElem]
  exact Option.isSome_iff_exists.1 (h.pob_written _ (by omega))

/-! ## SUBMIT_FRAME -/

/-- RB_ENQUEUE appends the frame to the queue (R132). -/
theorem rbEnqueue_queue {s : State} (h : s.Inv) {f : List Byte} (hl : f.length = s.params.frameLen)
    (hr : s.params.frameLen ≤ s.rbFree) : (s.rbEnqueue f).queue = s.queue ++ f.map some := by
  have hc := h.cap_le
  have hcl := h.count_le
  have hpos := h.frame_pos
  simp only [State.rbFree] at hr
  have hcount : (s.rbEnqueue f).rbCount.toNat = s.rbCount.toNat + f.length := by
    show (BitVec.ofNat 16 (s.rbCount.toNat + s.params.frameLen)).toNat = _
    rw [BitVec.toNat_ofNat, hl]; omega
  have hread : ∀ a, (s.rbEnqueue f).rbMem.read a = (s.rbWriteBytes f).rbMem.read a := fun _ => rfl
  have htail : (s.rbEnqueue f).rbTail = s.rbTail := by rw [rbEnqueue_frame]
  have hparams : (s.rbEnqueue f).params = s.params := by rw [rbEnqueue_frame]
  refine List.ext_getElem (by simp [hcount]) fun k hk _ => ?_
  rw [State.queue_length, hcount] at hk
  rw [State.queue_getElem, hread, htail, hparams]
  by_cases hold : k < s.rbCount.toNat
  · rw [List.getElem_append_left (by simpa using hold), State.queue_getElem]
    refine rbWriteBytes_read_other h.head_lt hc _ fun j hj e => ?_
    rw [h.head_eq, Nat.mod_add_mod, Nat.add_assoc] at e
    have := ring_slot_inj (by omega) (by omega) e
    omega
  · have hslot : (s.rbTail.toNat + k) % s.params.rbCap =
        (s.rbHead.toNat + (k - s.rbCount.toNat)) % s.params.rbCap := by
      rw [h.head_eq, Nat.mod_add_mod]; congr 1; omega
    rw [List.getElem_append_right (by simpa using hold), hslot,
      rbWriteBytes_read_new h.head_lt hc (by omega) _ (by omega)]
    simp [show k - s.rbCount.toNat < f.length by omega]

/-- SUBMIT_FRAME leaves the queue, or appends a frame of FRAME_LEN bytes to it (R130, R131). -/
theorem submitFrame_queue {s : State} (h : s.Inv) {len : BitVec 16} {p : List Byte} (hp : payloadMatches len p = true) :
    (s.submitFrame len p).queue = s.queue ∨
      (len.toNat = s.params.frameLen ∧ (s.submitFrame len p).queue = s.queue ++ p.map some) := by
  rcases submitFrame_cases s len p with ⟨-, e⟩ | ⟨-, -, e⟩ | ⟨hlen, hfree, e⟩ <;> rw [e]
  · exact .inl rfl
  · exact .inl rfl
  · have hl : p.length = s.params.frameLen := by rw [← hlen]; simpa [payloadMatches] using hp
    exact .inr ⟨hlen, rbEnqueue_queue h hl hfree⟩

theorem submitFrame_pending (s : State) (len : BitVec 16) (p : List Byte) :
    (s.submitFrame len p).pending = s.pending := by
  rw [submitFrame_frame]; rfl

/-! ## TICK -/

/-- A filled POB holds just the bytes of the fill (R203, R204). -/
theorem pending_of_fill {s : State} {m : Memory} {bytes : List Byte} (hm : s.pobMem = m.writeFrom 0 bytes)
    (hlen : s.pobLen.toNat = bytes.length) (hptr : s.pobPtr = 0) : s.pending = bytes.map some := by
  have hz : s.pobPtr.toNat = 0 := by rw [hptr]; rfl
  refine List.ext_getElem (by simp [hlen, hz]) fun j hj _ => ?_
  rw [State.pending_length, hlen, hz] at hj
  simp [hm, hz, Memory.read_writeFrom, show j < bytes.length by omega]

/-- The frame a fill takes is the oldest of the queue, byte for byte (R133). -/
theorem frame_eq_queue_take {s : State} {f : List Byte} (hl : f.length = s.params.frameLen)
    (hq : s.params.frameLen ≤ s.rbCount.toNat)
    (hf : ∀ k < s.params.frameLen, f[k]? = s.rbMem.read ((s.rbTail.toNat + k) % s.params.rbCap)) :
    f.map some = s.queue.take s.params.frameLen := by
  refine List.ext_getElem (by simp [hl, hq]) fun k hk _ => ?_
  rw [List.length_map] at hk
  rw [List.getElem_map, List.getElem_take, State.queue_getElem, ← hf k (by omega), List.getElem?_eq_getElem hk]

/-- Moving RB_TAIL and RB_COUNT past one frame drops it from the queue (R133). -/
theorem queue_of_dequeue {s : State} {tail count : BitVec 16}
    (htail : tail.toNat = (s.rbTail.toNat + s.params.frameLen) % s.params.rbCap)
    (hcount : count.toNat = s.rbCount.toNat - s.params.frameLen) :
    State.queue { s with rbTail := tail, rbCount := count } = s.queue.drop s.params.frameLen := by
  refine List.ext_getElem (by simp [hcount]) fun k _ _ => ?_
  rw [List.getElem_drop, State.queue_getElem, State.queue_getElem, htail, Nat.mod_add_mod, Nat.add_assoc]

/-- The phase step only takes from the queue. -/
theorem PhaseCase.queue_subset {s u : State} {keyed : Bool} (h : PhaseCase s keyed u) : u.queue ⊆ s.queue := by
  cases h with
  | frame f tail count len _ _ _ _ _ _ htail hcount _ =>
    show State.queue { s with rbTail := tail, rbCount := count } ⊆ s.queue
    rw [queue_of_dequeue htail hcount]
    exact List.drop_subset _ _
  | busy | quiet | preamble | hang | idle => exact List.Subset.refl s.queue

/-- After the phase step a pending byte was pending, or a fill took it from the queue or from SYNC_BYTE (R203, R204). -/
theorem PhaseCase.mem_pending {s u : State} {keyed : Bool} (h : PhaseCase s keyed u) {x : Option Byte}
    (hx : x ∈ u.pending) : x ∈ s.pending ∨ x ∈ s.queue ∨ x = some s.params.syncByte := by
  cases h with
  | frame f tail count len _ _ hq _ hl hf _ _ hlen =>
    rw [pending_of_fill (bytes := f) rfl (hlen.trans hl.symm) rfl, frame_eq_queue_take hl hq hf] at hx
    exact .inr (.inl (List.mem_of_mem_take hx))
  | preamble =>
    rw [pending_of_fill (bytes := List.replicate s.cfgPreambleLen.toNat s.params.syncByte) rfl
      List.length_replicate.symm rfl, List.map_replicate] at hx
    exact .inr (.inr (List.eq_of_mem_replicate hx))
  | busy | quiet | hang | idle => exact .inl hx

/-- Draining `bs` drops as many bytes from the pending ones (R208, R210). -/
theorem drained_pending {s : State} {bs : List Byte} (h : s.pobPtr.toNat + bs.length ≤ s.pobLen.toNat) :
    (drained s bs).pending = s.pending.drop bs.length := by
  have hlen := s.pobLen.isLt
  by_cases hlt : s.pobPtr.toNat + bs.length < s.pobLen.toNat
  · have hptr : (drained s bs).pobPtr.toNat = s.pobPtr.toNat + bs.length := by
      simp only [drained, if_pos hlt, BitVec.toNat_add, BitVec.toNat_ofNat]; omega
    have hl : (drained s bs).pobLen = s.pobLen := if_pos hlt
    have hm : (drained s bs).pobMem = s.pobMem := rfl
    refine List.ext_getElem (by simp [hptr, hl]; omega) fun j _ _ => ?_
    rw [List.getElem_drop, State.pending_getElem, State.pending_getElem, hptr, hm, Nat.add_assoc]
  · have hl : (drained s bs).pobLen = 0 := if_neg hlt
    have hnil : (drained s bs).pending = [] := List.eq_nil_of_length_eq_zero (by simp [hl])
    rw [hnil, List.drop_eq_nil_of_le (by rw [State.pending_length]; omega)]

theorem EmissionCase.queue_eq {u v : State} {space : Nat} (h : EmissionCase u space v) : v.queue = u.queue := by
  cases h <;> rfl

/-- The emission step only takes from the pending bytes (R207). -/
theorem EmissionCase.pending_subset {u v : State} {space : Nat} (hu : u.Inv) (h : EmissionCase u space v) :
    v.pending ⊆ u.pending := by
  cases h with
  | drain bs hp hl _ =>
    have hptr := hu.ptr_lt hp
    rw [drained_pending (by rw [List.length_take]; omega)]
    exact List.drop_subset _ _
  | silence | none => exact List.Subset.refl u.pending

theorem execTick_queue_subset {s t : State} (h : s.Inv) (e : execTick s = .next t) : t.queue ⊆ s.queue := by
  obtain ⟨u, v, hphase, -, hemit, -, e'⟩ := execTick_eq h
  cases e.symm.trans e'
  exact hemit.queue_eq ▸ hphase.queue_subset

theorem execTick_mem_pending {s t : State} (h : s.Inv) (e : execTick s = .next t) {x : Option Byte}
    (hx : x ∈ t.pending) : x ∈ s.pending ∨ x ∈ s.queue ∨ x = some s.params.syncByte := by
  obtain ⟨u, v, hphase, hu, hemit, -, e'⟩ := execTick_eq h
  cases e.symm.trans e'
  exact hphase.mem_pending (hemit.pending_subset hu hx)

/-! ## Where the bytes come from -/

theorem decode_submitFrame_payload {w : Word} {p q : List Byte} {len : BitVec 16}
    (h : decode w p = .ok (.submitFrame len q)) : q = p := by
  rcases decode_ok_cases h with ⟨-, -, e⟩ | ⟨-, -, e⟩ | ⟨-, -, e⟩ | ⟨-, -, e⟩ | ⟨-, -, e⟩ | ⟨-, -, e⟩ <;> cases e
  rfl

/-- After a command a queued byte was queued, or belongs to the frame that the command submitted. -/
theorem exec_mem_queue {i : Instr} {s t : State} (h : s.Inv) (e : exec i s = .next t) {x : Option Byte}
    (hx : x ∈ t.queue) : x ∈ s.queue ∨
      ∃ (len : BitVec 16) (p : List Byte), i = .submitFrame len p ∧ len.toNat = s.params.frameLen ∧ x ∈ p.map some := by
  rcases exec_next_cases e with ⟨len, p, rfl, hp, rfl⟩ | ⟨-, ht⟩ | ⟨d, -, rfl⟩ | ⟨l, u, -, rfl⟩ | ⟨-, rfl⟩ | ⟨d, -, rfl⟩
  · rcases submitFrame_queue h hp with hsame | ⟨hlen, happ⟩
    · exact .inl (hsame ▸ hx)
    · rw [happ, List.mem_append] at hx
      exact hx.imp_right fun hnew => ⟨len, p, rfl, hlen, hnew⟩
  · exact .inl (execTick_queue_subset h ht hx)
  all_goals exact .inl hx

theorem exec_mem_pending {i : Instr} {s t : State} (h : s.Inv) (e : exec i s = .next t) {x : Option Byte}
    (hx : x ∈ t.pending) : x ∈ s.pending ∨ x ∈ s.queue ∨ x = some s.params.syncByte := by
  rcases exec_next_cases e with ⟨len, p, -, -, rfl⟩ | ⟨-, ht⟩ | ⟨d, -, rfl⟩ | ⟨l, u, -, rfl⟩ | ⟨-, rfl⟩ | ⟨d, -, rfl⟩
  · exact .inl (submitFrame_pending s len p ▸ hx)
  · exact execTick_mem_pending h ht hx
  all_goals exact .inl hx

theorem step_mem_queue {s t : State} (h : s.Inv) (e : step s = .next t) {x : Option Byte} (hx : x ∈ t.queue) :
    x ∈ s.queue ∨
      ∃ (w : Word) (len : BitVec 16) (p : List Byte), s.hostPort.head? = some (.command w p) ∧
        decode w p = .ok (.submitFrame len p) ∧ len.toNat = s.params.frameLen ∧ x ∈ p.map some := by
  rcases step_next e with ⟨-, rfl⟩ | ⟨w, p, rest, hport, hr⟩ | ⟨rest, -, rfl⟩ | ⟨w, p, n, rest, u, -, -, rfl⟩
  · exact .inl hx
  · rcases runCommand_next hr with ⟨i, hi, he⟩ | ⟨-, rfl⟩
    · rcases exec_mem_queue (takeEvent_inv h) he hx with hold | ⟨len, q, rfl, hlen, hnew⟩
      · exact .inl hold
      · obtain rfl := decode_submitFrame_payload hi
        exact .inr ⟨w, len, q, by rw [hport]; rfl, hi, hlen, hnew⟩
    · exact .inl hx
  · exact absurd hx List.not_mem_nil
  · exact absurd hx List.not_mem_nil

theorem step_mem_pending {s t : State} (h : s.Inv) (e : step s = .next t) {x : Option Byte} (hx : x ∈ t.pending) :
    x ∈ s.pending ∨ x ∈ s.queue ∨ x = some s.params.syncByte := by
  rcases step_next e with ⟨-, rfl⟩ | ⟨w, p, rest, -, hr⟩ | ⟨rest, -, rfl⟩ | ⟨w, p, n, rest, u, -, -, rfl⟩
  · exact .inl hx
  · rcases runCommand_next hr with ⟨i, -, he⟩ | ⟨-, rfl⟩
    · exact exec_mem_pending (takeEvent_inv h) he hx
    · exact .inl hx
  · exact absurd hx List.not_mem_nil
  · exact absurd hx List.not_mem_nil

/-- Settles O21: the invariants after the step make each byte a value, and the step's cases say where it comes from. -/
theorem queuedAndPendingBytesAreWritten : Obligations.QueuedAndPendingBytesAreWritten := by
  intro s t h e
  have ht : t.Inv := step_inv h e
  constructor
  · intro x hx
    obtain ⟨b, rfl⟩ := ht.queue_written hx
    refine ⟨b, rfl, (step_mem_queue h e hx).imp_right ?_⟩
    rintro ⟨w, len, p, hport, hdec, hlen, hmem⟩
    exact ⟨w, len, p, hport, hdec, hlen, by simpa using hmem⟩
  · intro x hx
    obtain ⟨b, rfl⟩ := ht.pending_written hx
    exact ⟨b, rfl, (step_mem_pending h e hx).imp_right (Or.imp_right Option.some.inj)⟩

end Sys2Proof.Machine
end

section
/-! The encoding of commands and of the response word (spec/30_encoding.md): decoder and encoder are each other's inverse,
the decoder follows the opcode table, illegal words change only RESP, and every command answers one word. -/

namespace Sys2Proof.Machine

/-! ## Decoding what was encoded -/

/-- A word of a row of the opcode table, with the payload it declares, decodes to the command of that row (R115). -/
theorem decode_rows {w : Word} {p : List Byte} (hl : p.length = payloadLen w) :
    (w &&& 0xFFFF0000#32 = 0x10000000#32 → decode w p = .ok (.submitFrame (lenField w) p)) ∧
    (w &&& 0xFFFFFFFF#32 = 0x20000000#32 → decode w p = .ok .tick) ∧
    (w &&& 0xFFFFFF00#32 = 0x30000000#32 → decode w p = .ok (.setPreambleDelay (imm8Field w))) ∧
    (w &&& 0xFFFFFE00#32 = 0x40000000#32 → decode w p = .ok (.setDevHang (w.getLsbD 8) (imm8Field w))) ∧
    (w &&& 0xFFFFFFFF#32 = 0x50000000#32 → decode w p = .ok .getQueueCap) ∧
    (w &&& 0xFFFFFFFE#32 = 0x60000000#32 → decode w p = .ok (.setDuplex (w.getLsbD 0))) := by
  obtain ⟨r1, r2, r3, r4, r5, r6⟩ := rows_iff w
  rw [r1, r2, r3, r4, r5, r6, decode_of_length hl]
  refine ⟨?_, ?_, ?_, ?_, ?_, ?_⟩ <;> rintro ⟨hopc, hreserved⟩ <;> simp only [hopc, hreserved] <;> rfl

theorem encodesAsRow (i : Instr) : Laws.EncodesAsRow.Statement i := by
  cases i with
  | submitFrame len p => exact Laws.EncodesAsRow.submitFrame len p
  | tick => exact Laws.EncodesAsRow.tick
  | setPreambleDelay d => exact Laws.EncodesAsRow.setPreambleDelay d
  | setDevHang l u => exact Laws.EncodesAsRow.setDevHang l u
  | getQueueCap => exact Laws.EncodesAsRow.getQueueCap
  | setDuplex d => exact Laws.EncodesAsRow.setDuplex d

@[simp] theorem lenField_encodeWord (len : BitVec 16) (p : List Byte) :
    lenField (encodeWord (.submitFrame len p)) = len :=
  BitVec.extractLsb'_append_eq_right

@[simp] theorem imm8Field_encodeWord_setPreambleDelay (d : BitVec 8) :
    imm8Field (encodeWord (.setPreambleDelay d)) = d :=
  BitVec.extractLsb'_append_eq_right

@[simp] theorem imm8Field_encodeWord_setDevHang (l : Bool) (u : BitVec 8) :
    imm8Field (encodeWord (.setDevHang l u)) = u :=
  BitVec.extractLsb'_append_eq_right

@[simp] theorem getLsbD_encodeWord_setDevHang (l : Bool) (u : BitVec 8) :
    (encodeWord (.setDevHang l u)).getLsbD 8 = l := by
  rw [encodeWord, BitVec.getLsbD_append]
  cases l <;> rfl

@[simp] theorem getLsbD_encodeWord_setDuplex (d : Bool) : (encodeWord (.setDuplex d)).getLsbD 0 = d := by
  cases d <;> rfl

/-- A well-formed command carries the payload its word declares (R101). -/
theorem length_encodePayload {i : Instr} (h : i.wf = true) :
    (encodePayload i).length = payloadLen (encodeWord i) := by
  rw [payloadLen_eq]
  cases i with
  | submitFrame len p =>
    have hlen : p.length = len.toNat := by simpa [Instr.wf] using h
    rw [toNat_encode_submitFrame, encodePayload, hlen, if_pos (by omega)]
    omega
  | tick => rfl
  | setPreambleDelay d => rw [toNat_encode_setPreambleDelay, if_neg (by omega)]; rfl
  | setDevHang l u => rw [toNat_encode_setDevHang, if_neg (by omega)]; rfl
  | getQueueCap => rfl
  | setDuplex d => rw [toNat_encode_setDuplex, if_neg (by omega)]; rfl

theorem decode_encode {i : Instr} (h : i.wf = true) : decode (encodeWord i) (encodePayload i) = .ok i := by
  have hrow := encodesAsRow i
  obtain ⟨r1, r2, r3, r4, r5, r6⟩ := decode_rows (length_encodePayload h)
  cases i with
  | submitFrame len p => rw [r1 hrow, lenField_encodeWord]; rfl
  | tick => exact r2 hrow
  | setPreambleDelay d => rw [r3 hrow, imm8Field_encodeWord_setPreambleDelay]
  | setDevHang l u => rw [r4 hrow, getLsbD_encodeWord_setDevHang, imm8Field_encodeWord_setDevHang]
  | getQueueCap => exact r5 hrow
  | setDuplex d => rw [r6 hrow, getLsbD_encodeWord_setDuplex]

/-- Settles O10: the encoded word is a word of its row, and the operand fields of that row give back the operands. -/
theorem decodeOfEncodeIsTheInstruction : Obligations.DecodeOfEncodeIsTheInstruction :=
  fun _ h => decode_encode h

/-! ## Encoding what was decoded -/

theorem toNat_lenField (w : Word) : (lenField w).toNat = w.toNat % 2 ^ 16 := by
  rw [lenField, toNat_extract, Nat.pow_zero, Nat.div_one]

theorem toNat_imm8Field (w : Word) : (imm8Field w).toNat = w.toNat % 2 ^ 8 := by
  rw [imm8Field, toNat_extract, Nat.pow_zero, Nat.div_one]

theorem toNat_getLsbD (w : Word) (k : Nat) : (w.getLsbD k).toNat = w.toNat / 2 ^ k % 2 := by
  rw [BitVec.getLsbD, Nat.toNat_testBit]

theorem encodeWord_of_decode {w : Word} {p : List Byte} {i : Instr} (h : decode w p = .ok i) : encodeWord i = w := by
  have hw := w.isLt
  apply BitVec.eq_of_toNat_eq
  rcases decode_ok_cases h with ⟨hopc, hres, rfl⟩ | ⟨hopc, hres, rfl⟩ | ⟨hopc, hres, rfl⟩ | ⟨hopc, hres, rfl⟩ |
    ⟨hopc, hres, rfl⟩ | ⟨hopc, hres, rfl⟩ <;>
    simp only [opcField_eq, extract_zero, BitVec.toNat_ofNat] at hopc hres
  · rw [toNat_encode_submitFrame, toNat_lenField]; omega
  · rw [toNat_encode_tick]; omega
  · rw [toNat_encode_setPreambleDelay, toNat_imm8Field]; omega
  · rw [toNat_encode_setDevHang, toNat_getLsbD, toNat_imm8Field]; omega
  · rw [toNat_encode_getQueueCap]; omega
  · rw [toNat_encode_setDuplex, toNat_getLsbD]; omega

/-- Only SUBMIT_FRAME takes a payload, and it keeps the delivered bytes (R101, R114). -/
theorem encodePayload_of_decode {w : Word} {p : List Byte} {i : Instr} (h : decode w p = .ok i) :
    encodePayload i = p := by
  have hlen := decode_ok_length h
  rcases decode_ok_cases h with ⟨-, -, rfl⟩ | ⟨hopc, -, rfl⟩ | ⟨hopc, -, rfl⟩ | ⟨hopc, -, rfl⟩ | ⟨hopc, -, rfl⟩ |
    ⟨hopc, -, rfl⟩
  · rfl
  all_goals
    rw [payloadLen, hopc] at hlen
    exact (List.eq_nil_of_length_eq_zero hlen).symm

theorem wf_of_decode {w : Word} {p : List Byte} {i : Instr} (h : decode w p = .ok i) : i.wf = true := by
  have hlen := decode_ok_length h
  rcases decode_ok_cases h with ⟨hopc, -, rfl⟩ | ⟨-, -, rfl⟩ | ⟨-, -, rfl⟩ | ⟨-, -, rfl⟩ | ⟨-, -, rfl⟩ | ⟨-, -, rfl⟩
  · rw [payloadLen, if_pos hopc] at hlen
    exact beq_iff_eq.2 hlen
  all_goals rfl

/-- Settles O11: the word, the payload and the payload's length are read off the row that was decoded. -/
theorem encodeOfDecodeIsTheDelivery : Obligations.EncodeOfDecodeIsTheDelivery :=
  fun _ _ _ h => ⟨Prod.ext (encodeWord_of_decode h) (encodePayload_of_decode h), wf_of_decode h⟩

/-! ## The opcode table -/

theorem tableRow_mem (i : Instr) : tableRow i ∈ opcodeTable := by
  cases i <;> simp [tableRow, opcodeTable]

/-- A word that decodes is a word of its command's row. -/
theorem tableRow_of_decode {w : Word} {p : List Byte} {i : Instr} (h : decode w p = .ok i) :
    w &&& (tableRow i).mask = (tableRow i).matchBits := by
  rw [← encodeWord_of_decode h]
  exact encodesAsRow i

theorem exists_decode_of_row {w : Word} {p : List Byte} (hl : p.length = payloadLen w) {r : TableRow}
    (hr : r ∈ opcodeTable) (hw : w &&& r.mask = r.matchBits) : ∃ i, decode w p = .ok i := by
  obtain ⟨r1, r2, r3, r4, r5, r6⟩ := decode_rows hl
  simp only [opcodeTable, List.mem_cons, List.not_mem_nil, or_false] at hr
  rcases hr with rfl | rfl | rfl | rfl | rfl | rfl
  · exact ⟨_, r1 hw⟩
  · exact ⟨_, r2 hw⟩
  · exact ⟨_, r3 hw⟩
  · exact ⟨_, r4 hw⟩
  · exact ⟨_, r5 hw⟩
  · exact ⟨_, r6 hw⟩

/-- Every mask of the table keeps the opcode, so a word of a row has the opcode of the row. -/
theorem opcField_of_row {w : Word} {r : TableRow} (hr : r ∈ opcodeTable) (hw : w &&& r.mask = r.matchBits) :
    opcField w = opcField r.matchBits := by
  have hmask : ∀ r ∈ opcodeTable, opcField r.mask = BitVec.allOnes 4 := by decide
  calc opcField w
      = opcField w &&& opcField r.mask := by rw [hmask r hr, BitVec.and_allOnes]
    _ = opcField (w &&& r.mask) := BitVec.extractLsb'_and.symm
    _ = opcField r.matchBits := by rw [hw]

theorem row_eq_of_opcField_eq :
    ∀ r ∈ opcodeTable, ∀ r' ∈ opcodeTable, opcField r.matchBits = opcField r'.matchBits → r = r' := by
  decide

/-- Settles O12: the decoder's conditions are the rows, an encoded word is a word of its row, and the rows' opcodes
differ. -/
theorem decodesExactlyTheTableRows : Obligations.DecodesExactlyTheTableRows := by
  refine ⟨fun w p hl => ⟨?_, ?_⟩, fun w p i h => ⟨tableRow_mem i, tableRow_of_decode h⟩, ?_⟩
  · rintro ⟨i, h⟩
    exact ⟨tableRow i, tableRow_mem i, tableRow_of_decode h⟩
  · rintro ⟨r, hr, hw⟩
    exact exists_decode_of_row (hl.trans (payloadLen_eq w).symm) hr hw
  · intro w r hr r' hr' hw hw'
    exact row_eq_of_opcField_eq r hr r' hr' ((opcField_of_row hr hw).symm.trans (opcField_of_row hr' hw'))

/-! ## Deliveries that are no command -/

/-- With the payload it declares, a word is rejected for its opcode or its reserved bits only (R112, R113). -/
theorem decode_error_eq {w : Word} {p : List Byte} {r : Reject} (hl : p.length = payloadLen w)
    (h : decode w p = .error r) : r = illegalReason w := by
  rw [decode_of_length hl] at h
  split_ifs at h
  cases h
  rfl

/-- With the payload it declares, a word that encodes no command is illegal (R112, R113). -/
theorem decode_illegal {w : Word} {p : List Byte} (hl : p.length = payloadLen w) (hn : ∀ i, encodeWord i ≠ w) :
    decode w p = .error (illegalReason w) := by
  cases h : decode w p with
  | ok i => exact absurd (encodeWord_of_decode h) (hn i)
  | error r => rw [decode_error_eq hl h]

theorem execReject_illegalReason (w : Word) (s : State) :
    execReject (illegalReason w) s = .next (s.respond .illegalCommand 0) := by
  unfold illegalReason
  split <;> rfl

/-- An illegal word at the port is taken with its payload and answered; nothing else changes (R112, R113). -/
theorem step_illegal {s : State} {w : Word} {p : List Byte} {rest : List HostEvent}
    (hport : s.hostPort = .command w p :: rest) (hl : p.length = payloadLen w) (hn : ∀ i, encodeWord i ≠ w) :
    step s = .next { s with
      hostPort := rest, resp := 0x0000000F#32, responses := s.responses ++ [0x0000000F#32] } := by
  rw [step_command hport, runCommand, decode_illegal hl hn]
  exact execReject_illegalReason w _

/-- The number of an encoded word, one clause a row: its opcode is legal and its reserved bits are 0 (R102, R103). -/
theorem toNat_encodeWord_cases (i : Instr) :
    (encodeWord i).toNat / 2 ^ 16 = 0x1000 ∨ (encodeWord i).toNat = 0x20000000 ∨
    (encodeWord i).toNat / 2 ^ 8 = 0x300000 ∨ (encodeWord i).toNat / 2 ^ 9 = 0x200000 ∨
    (encodeWord i).toNat = 0x50000000 ∨ (encodeWord i).toNat / 2 = 0x30000000 := by
  cases i with
  | submitFrame len p => rw [toNat_encode_submitFrame]; omega
  | tick => rw [toNat_encode_tick]; omega
  | setPreambleDelay d => rw [toNat_encode_setPreambleDelay]; omega
  | setDevHang l u => have := l.toNat_le; rw [toNat_encode_setDevHang]; omega
  | getQueueCap => rw [toNat_encode_getQueueCap]; omega
  | setDuplex d => have := d.toNat_le; rw [toNat_encode_setDuplex]; omega

/-- Settles O6: no command has a reserved opcode, and such a word declares no payload. -/
theorem reservedOpcodeChangesOnlyResp : Obligations.ReservedOpcodeChangesOnlyResp := by
  intro s w rest hport hopc
  refine step_illegal hport ?_ ?_
  · rw [payloadLen_eq, if_neg (by omega)]; rfl
  · rintro i rfl
    have := toNat_encodeWord_cases i
    omega

/-- Settles O7: the word of a command has no reserved bit set. -/
theorem reservedBitChangesOnlyResp : Obligations.ReservedBitChangesOnlyResp := by
  intro s w p rest hport hbits
  refine step_illegal hport ?_ ?_
  · rw [payloadLen_eq]
    rcases hbits with ⟨hopc, -, hp⟩ | ⟨hopc, -, hp⟩ | ⟨hopc, -, hp⟩ | ⟨hopc, -, hp⟩ | ⟨hopc, -, hp⟩ | ⟨hopc, -, hp⟩ <;>
      rw [hopc, hp] <;> rfl
  · rintro i rfl
    have := toNat_encodeWord_cases i
    omega

/-- The length of the payload is checked before the word (R101, U11). -/
theorem step_payloadLength {s : State} {w : Word} {p : List Byte} {rest : List HostEvent}
    (hport : s.hostPort = .command w p :: rest) (hl : p.length ≠ payloadLen w) :
    step s = .refused (.payloadLength (payloadLen w) p.length) := by
  rw [step_command hport, runCommand, decode, if_pos hl]
  rfl

/-- Settles O8: at the port by the decoder's length check, in SUBMIT_FRAME by its own. -/
theorem payloadOfAnotherLengthIsRefused : Obligations.PayloadOfAnotherLengthIsRefused := by
  refine ⟨fun s w p rest hport => ⟨?_, ?_⟩, fun s len p hp => ?_⟩
  · rintro ⟨hopc, hp⟩
    have hdeclared : payloadLen w = w.toNat % 2 ^ 16 := by rw [payloadLen_eq, if_pos hopc]
    rw [← hdeclared] at hp ⊢
    exact step_payloadLength hport hp
  · rintro ⟨hopc, hp⟩
    have hdeclared : payloadLen w = 0 := by rw [payloadLen_eq, if_neg hopc]
    have hlen : p.length ≠ payloadLen w := by rwa [hdeclared, ne_eq, List.length_eq_zero_iff]
    rw [step_payloadLength hport hlen, hdeclared]
  · have hmatch : ¬ payloadMatches len p = true := by simpa [payloadMatches, operand] using hp
    exact if_neg hmatch

/-! ## The response word -/

theorem Status.code_cases (status : Status) :
    status.code.toNat = 0 ∨ status.code.toNat = 1 ∨ status.code.toNat = 2 ∨ status.code.toNat = 15 := by
  cases status <;> decide

/-- The three fields of a response word (R110). -/
theorem respWord_fields (status : Status) (data : BitVec 16) :
    (respWord status data).toNat % 2 ^ 4 = status.code.toNat ∧ (respWord status data).toNat / 2 ^ 4 % 2 ^ 12 = 0 ∧
    (respWord status data).toNat / 2 ^ 16 = data.toNat := by
  have hcode := status.code.isLt
  rw [respWord_toNat]
  omega

/-- A command is answered with some status, and with DATA only by GET_QUEUE_CAP (R110). -/
theorem answer_eq_respWord (s : State) (i : Instr) : ∃ status data,
    s.answer i = respWord status data ∧ (data ≠ 0 → i = .getQueueCap ∧ status = .ok) := by
  cases i with
  | submitFrame len p => exact ⟨_, 0, rfl, absurd rfl⟩
  | getQueueCap => exact ⟨.ok, _, rfl, fun _ => ⟨rfl, rfl⟩⟩
  | tick => exact ⟨.ok, 0, rfl, absurd rfl⟩
  | setPreambleDelay d => exact ⟨.ok, 0, rfl, absurd rfl⟩
  | setDevHang l u => exact ⟨.ok, 0, rfl, absurd rfl⟩
  | setDuplex d => exact ⟨.ok, 0, rfl, absurd rfl⟩

/-- An illegal word is answered without DATA too (R112). -/
theorem runCommand_resp {w : Word} {p : List Byte} {s t : State} (e : runCommand w p s = .next t) : ∃ status data,
    t.resp = respWord status data ∧ (data ≠ 0 → decode w p = .ok .getQueueCap ∧ status = .ok) := by
  rcases runCommand_next e with ⟨i, hi, he⟩ | ⟨-, rfl⟩
  · obtain ⟨status, data, hanswer, hdata⟩ := answer_eq_respWord s i
    refine ⟨status, data, (exec_resp he).trans hanswer, fun hne => ?_⟩
    obtain ⟨rfl, hok⟩ := hdata hne
    exact ⟨hi, hok⟩
  · exact ⟨.illegalCommand, 0, rfl, absurd rfl⟩

/-- With legal parameters the number of free frames fits the DATA field (R8, R134). -/
theorem rbFreeFrames_lt {s : State} (h : s.params.Legal) : s.rbFreeFrames < 2 ^ 16 := by
  obtain ⟨-, -, hcap, -⟩ := h
  calc s.rbFreeFrames ≤ s.rbFree := Nat.div_le_self _ _
    _ ≤ s.params.rbCap := Nat.sub_le _ _
    _ < 2 ^ 16 := by omega

/-- Settles O14: the answer is a response word of R110's layout, and only GET_QUEUE_CAP puts a number into it. -/
theorem everyCommandAnswersOneResponseWord : Obligations.EveryCommandAnswersOneResponseWord := by
  intro s t w p e
  obtain ⟨-, hresponses, -⟩ := runCommand_appends e
  obtain ⟨status, data, hresp, hdata⟩ := runCommand_resp e
  obtain ⟨hstatus, hzero, hhigh⟩ := respWord_fields status data
  rw [← hresp] at hstatus hzero hhigh
  refine ⟨hresponses, hzero, hstatus ▸ status.code_cases, fun hne => ?_, fun hlegal hq => ?_⟩
  · have hne' : data ≠ 0 := fun h0 => hne (hhigh.trans (congrArg BitVec.toNat h0))
    obtain ⟨hq, rfl⟩ := hdata hne'
    exact ⟨hq, hstatus⟩
  · rw [runCommand_of_decode hq] at e
    rw [exec_resp e]
    obtain ⟨-, -, hcap⟩ := respWord_fields .ok (BitVec.ofNat 16 s.rbFreeFrames)
    exact hcap.trans (Nat.mod_eq_of_lt (rbFreeFrames_lt hlegal))

/-! ## Examples and pseudo-instructions -/

/-- Settles O9: the seven legal words are encodings, and the two illegal ones evaluate. -/
theorem encodingExamplesDecode : Obligations.EncodingExamplesDecode := by
  refine ⟨decode_encode (i := .tick) rfl, fun p hp => decode_encode (i := .submitFrame 120#16 p) (beq_iff_eq.2 hp),
    decode_encode (i := .setPreambleDelay 255#8) rfl, decode_encode (i := .setDevHang true 3#8) rfl,
    decode_encode (i := .setDevHang false 200#8) rfl, decode_encode (i := .getQueueCap) rfl,
    decode_encode (i := .setDuplex true) rfl, ?_, ?_⟩
  · decide
  · decide

theorem flatMap_inputs_replicate (n : Nat) (x : SinkSample) :
    (List.replicate n (AsmLine.tickAt x)).flatMap AsmLine.inputs = List.replicate n x :=
  List.flatMap_replicate.trans List.flatten_replicate_singleton

/-- Settles O13: FRAME_LEN fits the LEN field, and the three expansions are R117's lists. -/
theorem pseudoInstructionsExpand : Obligations.PseudoInstructionsExpand := by
  refine ⟨fun p f hlegal hf => ?_, fun p n x => ⟨?_, flatMap_inputs_replicate n x⟩, fun _ _ _ _ _ => rfl⟩
  · obtain ⟨-, hle, hcap, -⟩ := hlegal
    have hlen : (BitVec.ofNat 16 p.frameLen).toNat = p.frameLen := Nat.mod_eq_of_lt (by omega)
    exact ⟨_, hlen, rfl, beq_iff_eq.2 (hf.trans hlen.symm)⟩
  · exact List.map_replicate

end Sys2Proof.Machine
end

section
/-! The frame ring buffer (spec/41_ring_buffer.md): what SUBMIT_FRAME stores or answers, the capacity that GET_QUEUE_CAP
shows, and the order of the queue. -/

namespace Sys2Proof.Machine

/-! ## SUBMIT_FRAME inside the invariants -/

/-- With the payload that LEN declares, SUBMIT_FRAME completes (R101, R130). -/
theorem exec_submitFrame {s : State} (h : s.Inv) {len : BitVec 16} {p : List Byte} (hp : p.length = len.toNat) :
    exec (.submitFrame len p) s = .next (s.submitFrame len p) :=
  execSubmitFrame_ok (beq_iff_eq.2 hp) h.head_lt

/-- The length is checked first (R131). -/
theorem submitFrame_of_wrong_length {s : State} {len : BitVec 16} (p : List Byte) (hn : len.toNat ≠ s.params.frameLen) :
    s.submitFrame len p = s.respond .lengthError 0 := by
  have herror : s.submitError len = some .lengthError := if_pos hn
  rw [State.submitFrame, herror]

/-- A frame of the right length without room (R130). -/
theorem submitFrame_of_no_room {s : State} {len : BitVec 16} (p : List Byte) (hlen : len.toNat = s.params.frameLen)
    (hfull : s.rbFree < s.params.frameLen) : s.submitFrame len p = s.respond .capacityError 0 := by
  have herror : s.submitError len = some .capacityError := (if_neg (not_not.2 hlen)).trans (if_pos hfull)
  rw [State.submitFrame, herror]

/-- A frame of the right length with room is stored (R130, R132). -/
theorem submitFrame_of_room {s : State} {len : BitVec 16} (p : List Byte) (hlen : len.toNat = s.params.frameLen)
    (hroom : s.params.frameLen ≤ s.rbFree) : s.submitFrame len p = (s.rbEnqueue p).respond .ok 0 := by
  have herror : s.submitError len = none := (if_neg (not_not.2 hlen)).trans (if_neg (Nat.not_lt.2 hroom))
  rw [State.submitFrame, herror]

/-- A frame of the right length is answered with CAPACITY_ERROR exactly when there is no room for it (R130). -/
theorem submitFrame_resp_eq_capacityError {s : State} {len : BitVec 16} (p : List Byte)
    (hlen : len.toNat = s.params.frameLen) :
    (s.submitFrame len p).resp = 0x00000002#32 ↔ s.rbFree < s.params.frameLen := by
  rcases Nat.lt_or_ge s.rbFree s.params.frameLen with hfull | hroom
  · rw [submitFrame_of_no_room p hlen hfull]
    exact iff_of_true rfl hfull
  · have hok : respWord .ok 0 ≠ 0x00000002#32 := by decide
    rw [submitFrame_of_room p hlen hroom]
    exact iff_of_false hok (Nat.not_lt.2 hroom)

/-- With room for a frame the byte count does not wrap (R132). -/
theorem rbEnqueue_rbCount_toNat {s : State} (h : s.Inv) (p : List Byte) (hroom : s.params.frameLen ≤ s.rbFree) :
    (s.rbEnqueue p).rbCount.toNat = s.rbCount.toNat + s.params.frameLen := by
  have hcap := h.cap_le
  have hcount := h.count_le
  simp only [State.rbFree] at hroom
  exact Nat.mod_eq_of_lt (by omega)

/-- With room for a frame, none of the slots it takes holds a byte that is still queued (R36, R132). -/
theorem held_slot_ne_new_slot {s : State} (h : s.Inv) (hroom : s.params.frameLen ≤ s.rbFree) {k j : Nat}
    (hk : k < s.rbCount.toNat) (hj : j < s.params.frameLen) :
    (s.rbTail.toNat + k) % s.params.rbCap ≠ (s.rbHead.toNat + j) % s.params.rbCap := by
  intro hslot
  simp only [State.rbFree] at hroom
  rw [h.head_eq, Nat.mod_add_mod, Nat.add_assoc] at hslot
  have hsame : k = s.rbCount.toNat + j := ring_slot_inj (by omega) (by omega) hslot
  omega

/-- Settles O17: one case a check of R130, and the store by the rules of RB_ENQUEUE's loop. -/
theorem submitFrameStoresOrRejects : Obligations.SubmitFrameStoresOrRejects := by
  intro s len p h hp
  rw [exec_submitFrame h hp]
  refine ⟨fun hn => ?_, fun hlen hfull => ?_, fun hlen hroom => ⟨_, rfl, ?_⟩⟩
  · rw [submitFrame_of_wrong_length p hn]; rfl
  · rw [submitFrame_of_no_room p hlen hfull]; rfl
  · have hl : p.length = s.params.frameLen := hp.trans hlen
    have hcap : s.params.frameLen ≤ s.params.rbCap := h.legal.2.1
    rw [submitFrame_of_room p hlen hroom]
    refine ⟨?frame, rbEnqueue_rbCount_toNat h p hroom, ?head, fun j hj => ?stored, fun a ha => ?other,
      fun k hk j hj => held_slot_ne_new_slot h hroom hk hj⟩
    case frame =>
      rw [rbEnqueue_frame]; rfl
    case head =>
      rw [← hl]
      exact rbWriteBytes_head p h.head_lt h.cap_le
    case stored =>
      exact rbWriteBytes_read_new h.head_lt h.cap_le (hl.trans_le hcap) j (hj.trans_eq hl.symm)
    case other =>
      exact rbWriteBytes_read_other h.head_lt h.cap_le a (by rwa [hl])

/-! ## GET_QUEUE_CAP and the capacity law -/

/-- The answer of GET_QUEUE_CAP as a number: the free frames in the DATA field, status OK (R110, R134). -/
theorem queueCap_respWord_toNat {s : State} (h : s.params.Legal) :
    (respWord .ok (BitVec.ofNat 16 s.rbFreeFrames)).toNat = s.rbFreeFrames * 2 ^ 16 := by
  rw [respWord_toNat, BitVec.toNat_ofNat, Nat.mod_eq_of_lt (rbFreeFrames_lt h)]
  exact Nat.add_zero _

/-- No free frame is left exactly when the free bytes do not hold one (R37). -/
theorem rbFreeFrames_eq_zero {s : State} (h : s.Inv) : s.rbFreeFrames = 0 ↔ s.rbFree < s.params.frameLen :=
  Nat.div_eq_zero_iff_lt h.frame_pos

/-- A frame of FRAME_LEN bytes can be submitted: FRAME_LEN fits the LEN field (R8, R103). -/
theorem exists_frame_of_legal {p : Params} (h : p.Legal) :
    ∃ (len : BitVec 16) (f : List Byte), f.length = len.toNat ∧ len.toNat = p.frameLen := by
  obtain ⟨-, hle, hcap, -⟩ := h
  have hlen : (BitVec.ofNat 16 p.frameLen).toNat = p.frameLen := Nat.mod_eq_of_lt (by omega)
  exact ⟨_, List.replicate p.frameLen 0, List.length_replicate.trans hlen.symm, hlen⟩

/-- Settles O18: both sides of R134's last sentence say RB_FREE < FRAME_LEN. -/
theorem queueCapIsTheFreeFrames : Obligations.QueueCapIsTheFreeFrames := by
  intro s h
  have htoNat := queueCap_respWord_toNat h.legal
  have hzero : respWord .ok (BitVec.ofNat 16 s.rbFreeFrames) = 0#32 ↔ s.rbFree < s.params.frameLen := by
    rw [← rbFreeFrames_eq_zero h, ← BitVec.toNat_inj, htoNat]
    exact Nat.mul_eq_zero.trans (or_iff_left (by decide))
  have hexec : exec .getQueueCap s = .next (s.respond .ok (BitVec.ofNat 16 s.rbFreeFrames)) := rfl
  refine ⟨_, hexec, rfl, htoNat, hzero.trans ?_⟩
  have ht := exec_inv h hexec
  constructor
  · intro hfull len p hp hlen
    exact ⟨_, exec_submitFrame ht hp, (submitFrame_resp_eq_capacityError (s := s.respond _ _) p hlen).2 hfull⟩
  · intro hreject
    obtain ⟨len, p, hp, hlen⟩ := exists_frame_of_legal h.legal
    obtain ⟨u, hu, hresp⟩ := hreject len p hp hlen
    cases hu.symm.trans (exec_submitFrame ht hp)
    exact (submitFrame_resp_eq_capacityError (s := s.respond _ _) p hlen).1 hresp

/-- SUBMIT_FRAME never makes RB_COUNT smaller (R130, R132). -/
theorem rbCount_le_submitFrame {s : State} (h : s.Inv) (len : BitVec 16) (p : List Byte) :
    s.rbCount.toNat ≤ (s.submitFrame len p).rbCount.toNat := by
  rcases submitFrame_cases s len p with ⟨-, e⟩ | ⟨-, -, e⟩ | ⟨-, hroom, e⟩ <;> rw [e, State.respond_rbCount]
  rw [rbEnqueue_rbCount_toNat h p hroom]
  exact Nat.le_add_right _ _

/-- A command other than TICK never makes RB_COUNT smaller. -/
theorem rbCount_le_exec {i : Instr} {s t : State} (h : s.Inv) (hi : i ≠ .tick) (e : exec i s = .next t) :
    s.rbCount.toNat ≤ t.rbCount.toNat := by
  rcases exec_next_cases e with ⟨len, p, -, -, rfl⟩ | ⟨htick, -⟩ | ⟨d, -, rfl⟩ | ⟨l, u, -, rfl⟩ | ⟨-, rfl⟩ | ⟨d, -, rfl⟩
  · exact rbCount_le_submitFrame h len p
  · exact absurd htick hi
  all_goals exact Nat.le_refl _

/-- Settles O19: the bound is R35's, the rejection is R130's, and only RB_DEQUEUE lowers RB_COUNT. -/
theorem capacityIsNeverExceeded : Obligations.CapacityIsNeverExceeded := by
  intro s h
  refine ⟨Nat.div_le_div_right h.count_le, fun hfull len p hp hlen => ?_, fun w p t e hw => ?_⟩
  · refine ⟨_, exec_submitFrame h hp, (submitFrame_resp_eq_capacityError p hlen).2 hfull, ?_⟩
    rw [submitFrame_of_no_room p hlen hfull, State.respond_rbCount]
  · rcases runCommand_next e with ⟨i, hdec, he⟩ | ⟨-, rfl⟩
    · exact rbCount_le_exec h (fun hi => hw (hi ▸ hdec)) he
    · exact Nat.le_refl _

/-! ## The order of the queue -/

/-- SUBMIT_FRAME answers OK when it appended the frame to the queue, and otherwise leaves the queue (R130, R132). -/
theorem submitFrame_queue_of_resp {s : State} (h : s.Inv) {len : BitVec 16} {p : List Byte} (hp : p.length = len.toNat) :
    ((s.submitFrame len p).resp = 0#32 → (s.submitFrame len p).queue = s.queue ++ p.map some) ∧
    ((s.submitFrame len p).resp ≠ 0#32 → (s.submitFrame len p).queue = s.queue) := by
  have hlengthError : respWord .lengthError 0 ≠ 0#32 := by decide
  have hcapacityError : respWord .capacityError 0 ≠ 0#32 := by decide
  rcases submitFrame_cases s len p with ⟨-, e⟩ | ⟨-, -, e⟩ | ⟨hlen, hroom, e⟩ <;> rw [e]
  · exact ⟨fun hok => absurd hok hlengthError, fun _ => rfl⟩
  · exact ⟨fun hok => absurd hok hcapacityError, fun _ => rfl⟩
  · exact ⟨fun _ => rbEnqueue_queue h (hp.trans hlen) hroom, fun hne => absurd rfl hne⟩

/-- The condition on which a TICK fills the POB with a queued frame (R203, R204, R206). -/
def State.FrameFillDue (s : State) (keyed : Bool) : Prop :=
  s.pobLen = 0 ∧ s.seqState ≠ .hang ∧ s.params.frameLen ≤ s.rbCount.toNat ∧
    ¬ (s.seqState = .idle ∧ keyed = false ∧ s.cfgPreambleLen ≠ 0)

/-- A frame fill takes the oldest frame from the queue (R133, R203). -/
theorem PhaseCase.queue_of_due {s u : State} {keyed : Bool} (h : PhaseCase s keyed u) (hdue : s.FrameFillDue keyed) :
    u.queue = s.queue.drop s.params.frameLen := by
  obtain ⟨hpob, hhang, hqueued, hcold⟩ := hdue
  cases h with
  | frame f tail count len _ _ _ _ _ _ htail hcount _ => exact queue_of_dequeue htail hcount
  | busy hbusy => exact absurd hbusy (not_or.2 ⟨not_not.2 hpob, hhang⟩)
  | preamble _ hidle _ hkeyed hlen => exact absurd ⟨hidle, hkeyed, hlen⟩ hcold
  | quiet _ _ hnone | hang _ _ hnone | idle _ _ hnone => exact absurd hnone (Nat.not_lt.2 hqueued)

/-- Without a frame fill the phase step leaves the queue (R204 to R206). -/
theorem PhaseCase.queue_of_not_due {s u : State} {keyed : Bool} (h : PhaseCase s keyed u)
    (hdue : ¬ s.FrameFillDue keyed) : u.queue = s.queue := by
  cases h with
  | frame f tail count len hpob hhang hqueued hcold => exact absurd ⟨hpob, hhang, hqueued, hcold⟩ hdue
  | busy | quiet | preamble | hang | idle => rfl

/-- A TICK drops one frame from the queue when a frame fill is due, and otherwise leaves it (R133, R200). -/
theorem execTick_queue {s t : State} (h : s.Inv) (e : execTick s = .next t) :
    (s.FrameFillDue s.sinkSample.keyed → t.queue = s.queue.drop s.params.frameLen) ∧
    (¬ s.FrameFillDue s.sinkSample.keyed → t.queue = s.queue) := by
  obtain ⟨u, v, hphase, -, hemit, -, e'⟩ := execTick_eq h
  cases e.symm.trans e'
  exact ⟨fun hdue => hemit.queue_eq.trans (hphase.queue_of_due hdue),
    fun hdue => hemit.queue_eq.trans (hphase.queue_of_not_due hdue)⟩

/-- Settles O20: the queue rule of each command that completes. -/
theorem ringBufferIsFirstInFirstOut : Obligations.RingBufferIsFirstInFirstOut := by
  intro s t i h e
  refine ⟨?_, ?_, fun htick hsubmit => ?_⟩
  · rintro len p rfl
    obtain ⟨hmatch, rfl⟩ := execSubmitFrame_next e
    exact submitFrame_queue_of_resp h (beq_iff_eq.1 hmatch)
  · rintro rfl
    exact execTick_queue h e
  · rcases exec_next_cases e with ⟨len, p, hi, -⟩ | ⟨hi, -⟩ | ⟨d, -, rfl⟩ | ⟨l, u, -, rfl⟩ | ⟨-, rfl⟩ | ⟨d, -, rfl⟩
    · exact absurd hi (hsubmit len p)
    · exact absurd hi htick
    all_goals rfl

end Sys2Proof.Machine
end

section
/-! PROOFS. The symbol mapper: the 2-bit group a sample comes from, the level tables as numbers, and the obligation on
MAP_BYTE (R150, R151). -/

namespace Sys2Proof.Machine

/-- The level tables as integers (R150). -/
theorem level_toInt (lodev : Bool) (s : BitVec 2) :
    (level lodev s).toInt =
      (if s.toNat = 3 then (if lodev then 948 else 1893)
       else if s.toNat = 2 then (if lodev then 316 else 631)
       else if s.toNat = 0 then (if lodev then -316 else -631)
       else (if lodev then -948 else -1893)) := by
  revert lodev s; decide

/-- A 2-bit group of a word is a base-4 digit of its number. -/
theorem extractLsb'_two_toNat {w : Nat} (x : BitVec w) (k : Nat) :
    (x.extractLsb' (2 * k) 2).toNat = x.toNat / 4 ^ k % 4 := by
  rw [BitVec.extractLsb'_toNat, Nat.shiftRight_eq_div_pow, Nat.pow_mul]

/-- Sample i of MAP_BYTE is the level of bits 7-2i : 6-2i (R151). -/
theorem mapByte_getElem (b : Byte) (lodev : Bool) (i : Fin 4) :
    (mapByte b lodev)[i] = level lodev (b.extractLsb' (2 * (3 - i.val)) 2) := by
  fin_cases i <;> rfl

/-- Settles O26: group i from the top is base-4 digit 3 - i of the byte, and every level is in the range. -/
theorem mapByteFollowsTheLevelTable : Obligations.MapByteFollowsTheLevelTable := by
  intro b lodev i
  refine ⟨?_, mapByte_bounded b lodev i⟩
  rw [mapByte_getElem, level_toInt, extractLsb'_two_toNat]

end Sys2Proof.Machine
end

section
/-! PROOFS. The interpolating filter (spec/43_interpolating_filter.md): the sums of one call and their range, what a step can
send and leave in the delay line, the filter as a 90-tap FIR over the input stream, and the decay of silence. -/

namespace Sys2Proof.Machine

/-! ## One call of INTERPOLATE -/

/-- Settles O30: Lean's integer division by a positive number is the floor. -/
theorem divisionRoundsTowardMinusInfinity : Obligations.DivisionRoundsTowardMinusInfinity := by
  refine ⟨fun v => ?_, by decide, by decide, by decide, by decide⟩
  rw [floorQ15]
  omega

/-- Settles O32: both are `emitBlock`, which is one sink write after the call's delay line. -/
theorem emissionWritesOneTaggedBlock : Obligations.EmissionWritesOneTaggedBlock :=
  fun _ _ => ⟨rfl, rfl⟩

theorem phaseAcc_eq_sum (coef : Vector Sample 90) (mem : Vector Sample 9) (m : Fin 10) :
    phaseAcc coef mem m = ∑ k : Fin 9, coef[k.val * 10 + m.val].toInt * mem[k].toInt := by
  simp only [Fin.sum_univ_castSucc, Fin.sum_univ_zero, zero_add]
  rfl

/-- The sum of R174 for phase m after input i, on what the delay line holds then. -/
theorem sum_delayEntry (coef : Vector Sample 90) (mem : Vector Sample 9) (x : Vector Sample 4) (i : Fin 4)
    (m : Fin 10) :
    ∑ k : Fin 9, coef[k.val * 10 + m.val].toInt * (delayEntry mem x i k).toInt =
      phaseAcc coef (delayAfter mem x i) m := by
  simp only [phaseAcc_eq_sum, delayAfter_getElem]

/-- Settles O27: sample i*10+m is phase m on the delay line after input i. -/
theorem interpolateComputesThePolyphaseSums : Obligations.InterpolateComputesThePolyphaseSums := by
  intro coef mem x
  refine ⟨fun i m => ?_, fun k => ?_⟩
  · rw [interpolate_getElem, phaseOut_toInt, sum_delayEntry]
  · rw [interpolate_snd, delayAfter_getElem]

/-- R175 read from the sample's place in the block. -/
theorem interpolate_getElem_div (coef : Vector Sample 90) (mem : Vector Sample 9) (x : Vector Sample 4) (j : Fin 40) :
    (interpolate coef mem x).1[j] =
      phaseOut coef (delayAfter mem x ⟨j.val / 10, by omega⟩) ⟨j.val % 10, by omega⟩ := by
  simp only [← interpolate_getElem, Nat.div_add_mod', Fin.getElem_fin]

/-! ## The range of a sample -/

/-- R176: on a bounded delay line the quotient needs no saturation. -/
theorem phaseOut_bounded {coef : Vector Sample 90} {mem : Vector Sample 9} (h : ∀ k : Fin 9, LevelBounded mem[k])
    (m : Fin 10) :
    (phaseOut coef mem m).toInt = phaseAcc coef mem m / 32768 ∧
      -17037 ≤ (phaseOut coef mem m).toInt ∧ (phaseOut coef mem m).toInt ≤ 17037 := by
  obtain ⟨hlo, hhi⟩ := phaseAcc_bounded (coef := coef) (m := m) h
  rw [phaseOut_toInt]
  omega

/-- Settles O29: the delay line stays bounded after each input, so each sum and each quotient does. -/
theorem filterNeverSaturates : Obligations.FilterNeverSaturates := by
  intro coef mem x hmem hx i m
  have hline := delayAfter_bounded hmem hx i
  rw [sum_delayEntry, interpolate_getElem]
  exact ⟨abs_le.2 (phaseAcc_bounded hline), phaseOut_bounded hline m⟩

theorem interpolate_bounded {coef : Vector Sample 90} {mem : Vector Sample 9} {x : Vector Sample 4}
    (h : ∀ k : Fin 9, LevelBounded mem[k]) (hx : ∀ i : Fin 4, LevelBounded x[i]) (j : Fin 40) :
    -17037 ≤ (interpolate coef mem x).1[j].toInt ∧ (interpolate coef mem x).1[j].toInt ≤ 17037 := by
  rw [interpolate_getElem_div]
  exact (phaseOut_bounded (delayAfter_bounded h hx _) _).2

/-! ## What a step can send -/

/-- R50, R176: a block as the sink may get it. -/
def SinkBlock.InRange (tag : Byte) (b : SinkBlock) : Prop :=
  b.tag = tag ∧ ∀ j : Fin 40, -17037 ≤ b.samples[j].toInt ∧ b.samples[j].toInt ≤ 17037

/-- From `s` with its delay line bounded, `t` is left with a bounded delay line, and in range is all that was sent on the
way. A relation, so that the loops of a TICK compose it. -/
structure SendsInRange (s t : State) : Prop where
  params : t.params = s.params
  bounded : s.FiltBounded → t.FiltBounded
  blocks : s.FiltBounded → ∃ bs, t.sinkWrites = s.sinkWrites ++ bs ∧ ∀ b ∈ bs, b.InRange s.params.channelTag

/-- What neither calls the filter nor writes to the sink sends nothing. -/
theorem SendsInRange.of_eq {s t : State} (hp : t.params = s.params) (hf : t.filtMem = s.filtMem)
    (hw : t.sinkWrites = s.sinkWrites) : SendsInRange s t where
  params := hp
  bounded h k := by rw [hf]; exact h k
  blocks _ := ⟨[], by simp [hw], nofun⟩

theorem SendsInRange.refl (s : State) : SendsInRange s s := .of_eq rfl rfl rfl

theorem SendsInRange.trans {s t u : State} (h : SendsInRange s t) (h' : SendsInRange t u) : SendsInRange s u where
  params := h'.params.trans h.params
  bounded hs := h'.bounded (h.bounded hs)
  blocks hs := by
    obtain ⟨bs, hbs, hin⟩ := h.blocks hs
    obtain ⟨cs, hcs, hin'⟩ := h'.blocks (h.bounded hs)
    rw [h.params] at hin'
    exact ⟨bs ++ cs, by rw [hcs, hbs, List.append_assoc], fun b hb => (List.mem_append.1 hb).elim (hin b) (hin' b)⟩

/-- The one place where the filter runs and the sink is written (R179, R180, R181). -/
theorem emitBlock_sendsInRange (s : State) {x : Vector Sample 4} (hx : ∀ i : Fin 4, LevelBounded x[i]) :
    SendsInRange s (s.emitBlock x) where
  params := rfl
  bounded h := delayAfter_bounded h hx 3
  blocks h := ⟨_, s.emitBlock_sinkWrites x, fun b hb => by
    rw [List.mem_singleton.1 hb]
    exact ⟨rfl, interpolate_bounded h hx⟩⟩

theorem drainByte_sendsInRange (s : State) (c : Byte) : SendsInRange s (s.drainByte c) :=
  (emitBlock_sendsInRange s (mapByte_bounded c s.cfgLodev)).trans
    (.of_eq (s.drainByte_params c) (s.drainByte_filtMem c) (s.drainByte_sinkWrites c))

theorem silenceStep_sendsInRange (s : State) : SendsInRange s s.silenceStep :=
  (emitBlock_sendsInRange s (x := Vector.replicate 4 0) (by decide)).trans (.of_eq rfl rfl rfl)

theorem drain_sendsInRange {fuel space : Nat} {s t : State} (e : State.drain fuel space s = .ok t) :
    SendsInRange s t := by
  induction fuel generalizing space s with
  | zero => cases e; exact .refl _
  | succ fuel ih =>
    rw [State.drain] at e
    split at e
    · split at e
      · cases e
      · rename_i c _
        refine (drainByte_sendsInRange s c).trans ?_
        split at e
        · cases e; exact .of_eq rfl rfl rfl
        · exact ih e
    · cases e; exact .refl _

theorem hangLoop_sendsInRange (fuel space : Nat) (s : State) : SendsInRange s (State.hangLoop fuel space s) := by
  induction fuel generalizing space s with
  | zero => exact .refl s
  | succ fuel ih =>
    have hstep := silenceStep_sendsInRange s
    rw [State.hangLoop]
    split
    · split
      · exact hstep.trans (.of_eq rfl rfl rfl)
      · exact hstep.trans (ih _ _)
    · exact .refl s

theorem emissionStep_sendsInRange {s t : State} {space : Nat} (e : s.emissionStep space = .ok t) :
    SendsInRange s t := by
  unfold State.emissionStep at e
  split at e
  · exact drain_sendsInRange e
  · split at e
    · cases e; exact hangLoop_sendsInRange _ _ s
    · cases e; exact .refl _

theorem execTick_sendsInRange {s t : State} (e : execTick s = .next t) : SendsInRange s t := by
  obtain ⟨u, v, hu, hv, rfl⟩ := execTick_next e
  have hphase : SendsInRange s u := by
    rw [phaseStep_frame hu]
    exact .of_eq s.afterSinkSample_params s.afterSinkSample_filtMem s.afterSinkSample_sinkWrites
  exact (hphase.trans (emissionStep_sendsInRange hv)).trans (.of_eq rfl rfl rfl)

/-- Only a TICK sends anything (R181). -/
theorem exec_sendsInRange {i : Instr} {s t : State} (e : exec i s = .next t) : SendsInRange s t := by
  rcases exec_next_cases e with ⟨len, p, -, -, rfl⟩ | ⟨-, h⟩ | ⟨d, -, rfl⟩ | ⟨l, u, -, rfl⟩ | ⟨-, rfl⟩ | ⟨d, -, rfl⟩
  · rw [submitFrame_frame]; exact .of_eq rfl rfl rfl
  · exact execTick_sendsInRange h
  all_goals exact .of_eq rfl rfl rfl

theorem runCommand_sendsInRange {w : Word} {p : List Byte} {s t : State} (e : runCommand w p s = .next t) :
    SendsInRange s t := by
  rcases runCommand_next e with ⟨i, -, h⟩ | ⟨-, rfl⟩
  · exact exec_sendsInRange h
  · exact .of_eq rfl rfl rfl

theorem resetOf_filtBounded (p : Params) : (State.resetOf p).FiltBounded := by
  intro k
  rw [resetOf_filtMem_getElem]
  decide

theorem applyRst_sendsInRange (s : State) : SendsInRange s s.applyRst where
  params := rfl
  bounded _ := resetOf_filtBounded s.params
  blocks _ := ⟨[], (List.append_nil _).symm, nofun⟩

/-- R291: what a command cut short by `RST` has sent is the first part of what it would have sent. -/
theorem applyRstDuring_sendsInRange {s t : State} (h : SendsInRange s t) (n : Nat) :
    SendsInRange s (s.applyRstDuring t n) where
  params := h.params
  bounded _ := resetOf_filtBounded t.params
  blocks hs := by
    obtain ⟨bs, hbs, hin⟩ := h.blocks hs
    refine ⟨bs.take n, ?_, fun b hb => hin b (List.mem_of_mem_take hb)⟩
    simp only [State.applyRstDuring, hbs, List.drop_left]

theorem step_sendsInRange {s t : State} (e : step s = .next t) : SendsInRange s t := by
  have htake : SendsInRange s s.takeEvent := .of_eq rfl rfl rfl
  rcases step_next e with ⟨-, rfl⟩ | ⟨w, p, rest, -, hr⟩ | ⟨rest, -, rfl⟩ | ⟨w, p, n, rest, u, -, hr, rfl⟩
  · exact .refl t
  · exact htake.trans (runCommand_sendsInRange hr)
  · exact htake.trans (applyRst_sendsInRange _)
  · exact htake.trans (applyRstDuring_sendsInRange (runCommand_sendsInRange hr) n)

/-- Settles O53: the delay line takes in only levels and silence, and a reset clears it. -/
theorem stepKeepsTheFilterBounded : Obligations.StepKeepsTheFilterBounded :=
  fun _ _ h e => (step_sendsInRange e).bounded h

/-- Settles O55: every block of a step is one filter call on a bounded delay line. -/
theorem everySampleSentIsInRange : Obligations.EverySampleSentIsInRange := by
  intro s t h e b hb
  obtain ⟨bs, hbs, hin⟩ := (step_sendsInRange e).blocks h
  rw [newBlocks, hbs, List.drop_left] at hb
  exact hin b hb

/-! ## The delay line over many inputs -/

/-- The delay line holds the inputs, newest first, and then what it held before (R174). -/
theorem foldl_shiftIn_getElem (mem : Vector Sample 9) (xs : List Sample) (k : Fin 9) :
    (xs.foldl shiftIn mem)[k] = (xs.reverse ++ mem.toList)[k.val]'(by simp; omega) := by
  induction xs using List.reverseRecOn generalizing k with
  | nil => simp
  | append_singleton xs x ih =>
    rw [List.foldl_concat, shiftIn_getElem]
    split
    next h0 => simp [h0]
    next h0 =>
      refine (ih ⟨k.val - 1, by omega⟩).trans ?_
      simp [List.getElem_cons, h0]

theorem toList_eq_four (x : Vector Sample 4) : x.toList = [x[0], x[1], x[2], x[3]] := by
  refine List.ext_getElem x.length_toList fun k _ hk => ?_
  match k, hk with
  | 0, _ | 1, _ | 2, _ | 3, _ => rfl

theorem delayAfter_eq_foldl (mem : Vector Sample 9) (x : Vector Sample 4) (i : Fin 4) :
    delayAfter mem x i = (x.toList.take (i.val + 1)).foldl shiftIn mem := by
  rw [toList_eq_four]
  fin_cases i <;> rfl

theorem interpolate_snd_eq_foldl (coef : Vector Sample 90) (mem : Vector Sample 9) (x : Vector Sample 4) :
    (interpolate coef mem x).2 = x.toList.foldl shiftIn mem := by
  rw [interpolate_snd, delayAfter_eq_foldl, List.take_of_length_le (by simp)]

/-! ## Silence -/

theorem phaseOut_zeros (coef : Vector Sample 90) (m : Fin 10) : phaseOut coef (Vector.replicate 9 0#16) m = 0#16 := by
  have hacc : phaseAcc coef (Vector.replicate 9 0#16) m = 0 := by
    rw [phaseAcc_eq_sum]
    exact Finset.sum_eq_zero fun k _ => by simp
  rw [phaseOut, hacc]
  decide

/-- R178: nine zero inputs clear the delay line. -/
theorem foldl_shiftIn_zeros (mem : Vector Sample 9) {n : Nat} (h : 9 ≤ n) :
    (List.replicate n 0#16).foldl shiftIn mem = Vector.replicate 9 0#16 := by
  refine Vector.ext fun k hk => ?_
  refine (foldl_shiftIn_getElem mem (List.replicate n 0#16) ⟨k, hk⟩).trans ?_
  rw [List.getElem_append_left (by simp; omega)]
  simp only [List.reverse_replicate, List.getElem_replicate, Vector.getElem_replicate]

/-- A silence step is four zero inputs (R180). -/
theorem emitSilences_filtMem (s : State) (n : Nat) :
    (s.emitSilences n).filtMem = (List.replicate (4 * n) 0#16).foldl shiftIn s.filtMem := by
  induction n generalizing s with
  | zero => rfl
  | succ n ih =>
    have hstep : s.emitSilence.filtMem = (List.replicate 4 0#16).foldl shiftIn s.filtMem :=
      interpolate_snd_eq_foldl s.params.coef _ _
    rw [State.emitSilences, ih, hstep, ← List.foldl_append, List.replicate_append_replicate]
    congr 2; omega

/-- R178: eight zeros of two silence steps and the first input of the next block fill the delay line. -/
theorem delayAfter_emitSilences (s : State) {n : Nat} (hn : 2 ≤ n) (i : Fin 4) :
    delayAfter (s.emitSilences n).filtMem (Vector.replicate 4 0#16) i = Vector.replicate 9 0#16 := by
  have hzeros : 9 ≤ 4 * n + min (i.val + 1) 4 := by omega
  rw [delayAfter_eq_foldl, emitSilences_filtMem, Vector.toList_replicate, List.take_replicate, ← List.foldl_append,
    List.replicate_append_replicate, foldl_shiftIn_zeros _ hzeros]

/-- Settles O31: from the third silence step on, each sample is a phase of a delay line of zeros. -/
theorem silenceDecaysToZero : Obligations.SilenceDecaysToZero := by
  refine ⟨phaseOut_zeros, fun s n hn j => ?_⟩
  rw [interpolate_getElem_div, delayAfter_emitSilences s hn, phaseOut_zeros]

/-! ## The polyphase filter on one input stream -/

/-- One polyphase filter run over a whole input stream, ten samples an input (R172). -/
def polyphase (coef : Vector Sample 90) : Vector Sample 9 → List Sample → List Sample
  | _, [] => []
  | mem, x :: xs => (phaseGroup coef (shiftIn mem x)).toList ++ polyphase coef (shiftIn mem x) xs

theorem polyphase_length (coef : Vector Sample 90) (mem : Vector Sample 9) (xs : List Sample) :
    (polyphase coef mem xs).length = 10 * xs.length := by
  induction xs generalizing mem with
  | nil => rfl
  | cons x xs ih => simp [polyphase, ih]; omega

theorem toList_four_groups (a b c d : Vector Sample 10) :
    (a ++ b ++ c ++ d : Vector Sample 40).toList = a.toList ++ (b.toList ++ (c.toList ++ d.toList)) := by
  show Vector.toList (n := 10 + 10 + 10 + 10) (a ++ b ++ c ++ d) = _
  simp only [Vector.toList_append, List.append_assoc]

/-- R172: the split of the stream into 4-sample calls has no effect. -/
theorem interpolateAll_eq_polyphase (coef : Vector Sample 90) (mem : Vector Sample 9) (xs : List (Vector Sample 4)) :
    interpolateAll coef mem xs = polyphase coef mem (xs.flatMap Vector.toList) := by
  induction xs generalizing mem with
  | nil => rfl
  | cons x xs ih =>
    rw [interpolateAll, ih, List.flatMap_cons, toList_eq_four]
    simp only [interpolate, toList_four_groups, polyphase, List.cons_append, List.nil_append, List.append_assoc]

theorem flatMap_toList_length (xs : List (Vector Sample 4)) : (xs.flatMap Vector.toList).length = 4 * xs.length := by
  simp [List.length_flatMap, Nat.mul_comm]

/-- R175: sample j of the stream is phase j mod 10 on the delay line after the inputs 0 .. j div 10. -/
theorem polyphase_getElem? (coef : Vector Sample 90) (mem : Vector Sample 9) {xs : List Sample} {j : Nat}
    (hj : j < 10 * xs.length) :
    (polyphase coef mem xs)[j]? =
      some (phaseOut coef ((xs.take (j / 10 + 1)).foldl shiftIn mem) ⟨j % 10, by omega⟩) := by
  induction xs generalizing mem j with
  | nil => simp at hj
  | cons x xs ih =>
    rw [List.length_cons] at hj
    rw [polyphase]
    by_cases h : j < 10
    · have hgroup := phaseGroup_getElem coef (shiftIn mem x) j h
      rw [List.getElem?_append_left (by simpa using h)]
      simp [hgroup, Nat.div_eq_of_lt h, Nat.mod_eq_of_lt h, h]
    · have hdiv : j / 10 = (j - 10) / 10 + 1 := by omega
      have hmod : j % 10 = (j - 10) % 10 := by omega
      rw [List.getElem?_append_right (by simpa using h), Vector.length_toList, ih _ (by omega)]
      simp only [hdiv, hmod, List.take_succ_cons, List.foldl_cons]

/-! ## The 90-tap FIR sum -/

theorem upsampled_eq_zero (xs : List Sample) {j : Int} (h : j % 10 ≠ 0) : upsampled xs j = 0 :=
  if_neg fun hc => h hc.2

/-- R175: tap k of a phase meets the k-th newest input, which is entry k of the delay line. -/
theorem upsampled_eq_delayLine {xs : List Sample} {n : Nat} (hn : n < xs.length) (k : Fin 9) :
    upsampled xs (10 * ((n : Int) - k.val)) =
      ((xs.take (n + 1)).foldl shiftIn (Vector.replicate 9 0#16))[k].toInt := by
  have hlen : (xs.take (n + 1)).length = n + 1 := by simp; omega
  rw [foldl_shiftIn_getElem, upsampled]
  by_cases hk : k.val ≤ n
  · have hidx : (10 * ((n : Int) - k.val) / 10).toNat = n - k.val := by omega
    rw [if_pos (by omega), hidx, List.getElem_append_left (by simp; omega), List.getElem_reverse, List.getElem_take]
    simp [hlen, show n - k.val < xs.length by omega]
  · rw [if_neg (by omega), List.getElem_append_right (by simp; omega)]
    simp only [Vector.getElem_toList, Vector.getElem_replicate, BitVec.toInt_zero]

/-- The 90 taps, taken as nine groups of ten. -/
theorem firSum_eq_sum (coef : Vector Sample 90) (xs : List Sample) (j : Nat) :
    firSum coef xs j =
      ∑ k : Fin 9, ∑ m : Fin 10, coef[k.val * 10 + m.val].toInt * upsampled xs (j - (k.val * 10 + m.val : Nat)) := by
  rw [firSum, ← Fin.sum_univ_def, ← (finProdFinEquiv (m := 9) (n := 10)).sum_comp, Fintype.sum_prod_type]
  simp only [Fin.getElem_fin, finProdFinEquiv_apply_val, Nat.add_comm, Nat.mul_comm]

/-- R175: of the 90 taps only the nine of the sample's phase meet an input. -/
theorem firSum_eq_phaseAcc (coef : Vector Sample 90) {xs : List Sample} {j : Nat} (hj : j < 10 * xs.length) :
    firSum coef xs j =
      phaseAcc coef ((xs.take (j / 10 + 1)).foldl shiftIn (Vector.replicate 9 0#16)) ⟨j % 10, by omega⟩ := by
  rw [firSum_eq_sum, phaseAcc_eq_sum]
  refine Finset.sum_congr rfl fun k _ => ?_
  rw [Fintype.sum_eq_single (⟨j % 10, by omega⟩ : Fin 10), ← upsampled_eq_delayLine (by omega)]
  · congr 2; simp only; omega
  · intro m hm
    have hphase : m.val ≠ j % 10 := fun e => hm (Fin.ext e)
    rw [upsampled_eq_zero _ (by omega), mul_zero]

/-- Settles O28: the calls are one polyphase filter, and its sums are the FIR's. -/
theorem polyphaseIsTheNinetyTapFilter : Obligations.PolyphaseIsTheNinetyTapFilter := by
  intro coef xs
  have hlen := flatMap_toList_length xs
  rw [interpolateAll_eq_polyphase, polyphase_length]
  refine ⟨by omega, fun j hj => ?_⟩
  have hj : j < 10 * (xs.flatMap Vector.toList).length := by omega
  rw [polyphase_getElem? coef _ hj, Option.map_some, phaseOut_toInt, firSum_eq_phaseAcc coef hj]

end Sys2Proof.Machine
end

section
/-! PROOFS. The transmit sequencer (spec/44_transmit_sequencer.md): one equation of TICK for each thing its phase step can
do, the run of bytes and the run of silence steps it sends, and how runs of several TICKs add up. -/

namespace Sys2Proof.Machine

/-! ## What a TICK starts from -/

/-- The state on which the two steps of a TICK work: its sink sample is used up (R51, R202). -/
def State.sampled (s : State) : State :=
  { s with sinkSamples := s.afterSinkSample.sinkSamples, sinkDraws := s.afterSinkSample.sinkDraws }

/-- How many blocks the free space shown to the next TICK allows (R214). -/
def State.blockLimit (s : State) : Nat := maxBlocks s.sinkSample.freeSpace.toNat

theorem sampled_inv {s : State} (h : s.Inv) : s.sampled.Inv := h.congr rfl

/-- A TICK from its two steps (R200). -/
theorem execTick_of_steps {s u v : State} (hphase : s.sampled.phaseStep s.sinkSample.keyed = .ok u)
    (hemit : u.emissionStep s.sinkSample.freeSpace.toNat = .ok v) : execTick s = .next (v.respond .ok 0) := by
  have hemit' : u.emissionStep (operand s.sinkSample.freeSpace) = .ok v := hemit
  simp only [execTick, State.tickBody, show s.afterSinkSample = s.sampled from afterSinkSample_eq s, hphase, hemit']

/-- What holds of the state that a command leaves holds of every state it leaves. -/
theorem of_exec_next {i : Instr} {s t : State} {P : State → Prop} (e : exec i s = .next t)
    (h : ∃ u, exec i s = .next u ∧ P u) : P t := by
  obtain ⟨u, hu, hP⟩ := h
  cases e.symm.trans hu
  exact hP

/-! ## The phase step, equation by equation -/

/-- The preamble condition of R204 as a proposition. -/
theorem coldStart_eq_true {s : State} {keyed : Bool} :
    s.coldStart keyed = true ↔ s.seqState = .idle ∧ keyed = false ∧ s.cfgPreambleLen ≠ 0 := by
  simp only [State.coldStart, Bool.and_eq_true, decide_eq_true_eq, Bool.not_eq_true', and_assoc]

theorem phaseStep_of_busy {s : State} (h : s.pobLen ≠ 0 ∨ s.seqState = .hang) (keyed : Bool) :
    s.phaseStep keyed = .ok s :=
  if_neg fun hc => h.elim (absurd hc.1) hc.2

theorem phaseStep_of_due {s : State} {keyed : Bool} (h : s.FrameFillDue keyed) : s.phaseStep keyed = s.frameFill := by
  obtain ⟨hpob, hhang, hqueued, hcold⟩ := h
  have hqueued' : s.queued = true := decide_eq_true hqueued
  rw [State.phaseStep, if_pos ⟨hpob, hhang⟩, if_pos hqueued', if_neg (mt coldStart_eq_true.1 hcold)]

theorem phaseStep_of_coldStart {s : State} (hpob : s.pobLen = 0) (hidle : s.seqState = .idle)
    (hqueued : s.params.frameLen ≤ s.rbCount.toNat) (hlen : s.cfgPreambleLen ≠ 0) :
    s.phaseStep false = s.preambleFill := by
  have hhang : s.seqState ≠ .hang := by rw [hidle]; decide
  have hqueued' : s.queued = true := decide_eq_true hqueued
  rw [State.phaseStep, if_pos ⟨hpob, hhang⟩, if_pos hqueued', if_pos (coldStart_eq_true.2 ⟨hidle, rfl, hlen⟩)]

theorem phaseStep_of_endOfData {s : State} (hpob : s.pobLen = 0) (hs : s.seqState = .preamble ∨ s.seqState = .data)
    (hnone : s.rbCount.toNat < s.params.frameLen) (keyed : Bool) : s.phaseStep keyed = .ok s.endOfData := by
  have hhang : s.seqState ≠ .hang := by rcases hs with e | e <;> rw [e] <;> decide
  have hqueued : ¬ s.queued = true := by simpa [State.queued] using hnone
  rw [State.phaseStep, if_pos ⟨hpob, hhang⟩, if_neg hqueued, if_pos hs]

theorem phaseStep_of_quiet {s : State} (hpob : s.pobLen = 0) (hidle : s.seqState = .idle)
    (hnone : s.rbCount.toNat < s.params.frameLen) (keyed : Bool) : s.phaseStep keyed = .ok s := by
  have hhang : s.seqState ≠ .hang := by rw [hidle]; decide
  have hqueued : ¬ s.queued = true := by simpa [State.queued] using hnone
  rw [State.phaseStep, if_pos ⟨hpob, hhang⟩, if_neg hqueued, if_neg (by rw [hidle]; decide)]

theorem phaseStep_ok_inv {s u : State} {keyed : Bool} (h : s.Inv) (e : s.phaseStep keyed = .ok u) : u.Inv := by
  obtain ⟨u', e', hu⟩ := phaseStep_inv h keyed
  cases e.symm.trans e'
  exact hu

/-! ## The emission step, equation by equation -/

/-- The pending bytes are what the drain reads (R208). -/
theorem pobMem_read_of_pending {s : State} {bs : List Byte} (h : s.pending = bs.map some) (j : Nat)
    (hj : j < bs.length) : s.pobMem.read (s.pobPtr.toNat + j) = bs[j]? := by
  have hj' : j < s.pending.length := by simpa [h] using hj
  rw [← State.pending_getElem s j hj', List.getElem?_eq_getElem hj]
  simp only [h, List.getElem_map]

theorem length_of_pending {s : State} {bs : List Byte} (h : s.pending = bs.map some) :
    bs.length = s.pobLen.toNat - s.pobPtr.toNat := by
  rw [← State.pending_length, h, List.length_map]

theorem emissionStep_of_pending {u : State} (hu : u.Inv) (hpob : u.pobLen ≠ 0) {bs : List Byte}
    (hbs : u.pending = bs.map some) (space : Nat) :
    u.emissionStep space = .ok (drained u (bs.take (maxBlocks space))) := by
  rw [State.emissionStep, if_pos hpob]
  exact drain_eq (by omega) (hu.ptr_lt hpob) (length_of_pending hbs) hu.pob_le (pobMem_read_of_pending hbs)

theorem emissionStep_of_hang {u : State} (hpob : u.pobLen = 0) (hhang : u.seqState = .hang) (space : Nat) :
    u.emissionStep space = .ok (State.hangLoop space space u) := by
  rw [State.emissionStep, if_neg (not_not.2 hpob), if_pos hhang]

theorem emissionStep_of_quiet {u : State} (hpob : u.pobLen = 0) (hhang : u.seqState ≠ .hang) (space : Nat) :
    u.emissionStep space = .ok u := by
  rw [State.emissionStep, if_neg (not_not.2 hpob), if_neg hhang]

/-! ## Lists of written bytes -/

theorem exists_bytes_of_written {l : List (Option Byte)} (h : ∀ x ∈ l, ∃ b : Byte, x = some b) :
    ∃ bs : List Byte, l = bs.map some := by
  have hl : l ∈ Set.range (List.map (some : Byte → Option Byte)) := by
    rw [Set.range_list_map]
    exact fun x hx => (h x hx).imp fun _ => Eq.symm
  exact hl.imp fun _ => Eq.symm

theorem State.Inv.exists_pending {s : State} (h : s.Inv) : ∃ bs : List Byte, s.pending = bs.map some :=
  exists_bytes_of_written fun _ => h.pending_written

theorem State.Inv.exists_frame {s : State} (h : s.Inv) :
    ∃ f : List Byte, s.queue.take s.params.frameLen = f.map some :=
  exists_bytes_of_written fun _ hx => h.queue_written (List.mem_of_mem_take hx)

/-- Byte j of the oldest frame stands j places behind RB_TAIL (R133). -/
theorem getElem?_of_queue_take {s : State} {f : List Byte} (hf : s.queue.take s.params.frameLen = f.map some)
    (hqueued : s.params.frameLen ≤ s.rbCount.toNat) {j : Nat} (hj : j < s.params.frameLen) :
    f[j]? = s.rbMem.read ((s.rbTail.toNat + j) % s.params.rbCap) := by
  have hl : f.length = s.params.frameLen := by simpa [hqueued] using (congrArg List.length hf).symm
  have hq : j < (s.queue.take s.params.frameLen).length := by simpa [hf, hl] using hj
  have hsome : (s.queue.take s.params.frameLen)[j] = some f[j] := by simp only [hf, List.getElem_map]
  rw [List.getElem?_eq_getElem (by omega), ← hsome, List.getElem_take, State.queue_getElem]

/-! ## The drain of a TICK -/

/-- What is left of the POB once the space or the bytes are used up (R208, R210), and what was sent, said of any state
with the same parameters, delay line, deviation flag and writes so far. -/
theorem drained_take (s : State) {u : State} {bs : List Byte} (hp : u.params = s.params) (hf : u.filtMem = s.filtMem)
    (hl : u.cfgLodev = s.cfgLodev) (hw : u.sinkWrites = s.sinkWrites)
    (hlen : u.pobPtr.toNat + bs.length = u.pobLen.toNat) {m k : Nat} (hk : k = min bs.length m) :
    (drained u (bs.take m)).sinkWrites = (s.emitBytes (bs.take k)).sinkWrites ∧
    (drained u (bs.take m)).filtMem = (s.emitBytes (bs.take k)).filtMem ∧
    (k < bs.length → (drained u (bs.take m)).pobLen = u.pobLen ∧
      (drained u (bs.take m)).pobPtr.toNat = u.pobPtr.toNat + k) ∧
    (k = bs.length → (drained u (bs.take m)).pobLen = 0 ∧ (drained u (bs.take m)).pobPtr = 0) := by
  have htake : bs.take m = bs.take k := by rw [hk, Nat.min_comm, ← List.take_eq_take_min]
  have hlk : (bs.take k).length = k := by rw [List.length_take]; omega
  have hlt := u.pobLen.isLt
  obtain ⟨hsink, hfilt⟩ := drained_emits s u (bs.take k) hp hf hl hw
  rw [htake]
  refine ⟨hsink, hfilt, fun hsome => ?_, fun hall => ?_⟩
  · have hleft : u.pobPtr.toNat + (bs.take k).length < u.pobLen.toNat := by omega
    refine ⟨if_pos hleft, ?_⟩
    simp only [drained, if_pos hleft, BitVec.toNat_add, BitVec.toNat_ofNat]
    omega
  · have hleft : ¬ u.pobPtr.toNat + (bs.take k).length < u.pobLen.toNat := by omega
    exact ⟨if_neg hleft, if_neg hleft⟩

/-- Only a byte sent in DATA with duplex on reloads the hang count (R209). -/
theorem drained_hangCnt_eq {s : State} {bs : List Byte}
    (h : ¬ (bs ≠ [] ∧ s.seqState = .data ∧ s.cfgDuplex = true)) : (drained s bs).hangCnt = s.hangCnt :=
  if_neg h

theorem execTick_of_pending {s : State} (h : s.Inv) (hpob : s.pobLen ≠ 0) {bs : List Byte}
    (hbs : s.pending = bs.map some) :
    execTick s = .next ((drained s.sampled (bs.take s.blockLimit)).respond .ok 0) :=
  execTick_of_steps (phaseStep_of_busy (s := s.sampled) (.inl hpob) _)
    (emissionStep_of_pending (sampled_inv h) hpob hbs _)

/-- The POB right after a fill (R203, R204), with the sequencer in the state the fill leads to. -/
def State.filled (s : State) (bytes : List Byte) (phase : SeqState) : State :=
  { s with
    pobMem := s.pobMem.writeFrom 0 bytes, pobLen := BitVec.ofNat 16 bytes.length, pobPtr := 0, seqState := phase }

theorem filled_pobLen_toNat (s : State) {bytes : List Byte} (phase : SeqState) (hlt : bytes.length < 2 ^ 16) :
    (s.filled bytes phase).pobLen.toNat = bytes.length :=
  Nat.mod_eq_of_lt hlt

theorem filled_pobMem_read (s : State) (bytes : List Byte) (phase : SeqState) {j : Nat} (hj : j < bytes.length) :
    (s.filled bytes phase).pobMem.read j = bytes[j]? :=
  (Memory.read_writeFrom s.pobMem 0 j bytes).trans (if_pos (by omega))

/-- `drained_take` for a POB that has just been filled: the cursor counts the bytes sent. -/
theorem drained_filled_take (s : State) {r : State} (bytes : List Byte) (phase : SeqState) (hp : r.params = s.params)
    (hf : r.filtMem = s.filtMem) (hl : r.cfgLodev = s.cfgLodev) (hw : r.sinkWrites = s.sinkWrites)
    (hlt : bytes.length < 2 ^ 16) {m k : Nat} (hk : k = min bytes.length m) :
    (drained (r.filled bytes phase) (bytes.take m)).sinkWrites = (s.emitBytes (bytes.take k)).sinkWrites ∧
    (drained (r.filled bytes phase) (bytes.take m)).filtMem = (s.emitBytes (bytes.take k)).filtMem ∧
    (k < bytes.length → (drained (r.filled bytes phase) (bytes.take m)).pobLen.toNat = bytes.length ∧
      (drained (r.filled bytes phase) (bytes.take m)).pobPtr.toNat = k) ∧
    (k = bytes.length → (drained (r.filled bytes phase) (bytes.take m)).pobLen = 0 ∧
      (drained (r.filled bytes phase) (bytes.take m)).pobPtr = 0) := by
  have hlen := filled_pobLen_toNat r phase hlt
  have hptr : (r.filled bytes phase).pobPtr.toNat = 0 := rfl
  obtain ⟨hsink, hfilt, hsome, hall⟩ :=
    drained_take s (u := r.filled bytes phase) hp hf hl hw (by omega) hk
  refine ⟨hsink, hfilt, fun hlt => ?_, hall⟩
  obtain ⟨hpobLen, hpobPtr⟩ := hsome hlt
  exact ⟨(congrArg BitVec.toNat hpobLen).trans hlen, by omega⟩

/-- A TICK that fills the POB drains it from its first byte on (R200). -/
theorem execTick_of_fill {s r : State} (h : s.Inv) {bytes : List Byte} {phase : SeqState}
    (hfill : s.sampled.phaseStep s.sinkSample.keyed = .ok (r.filled bytes phase)) (hpos : bytes ≠ [])
    (hlt : bytes.length < 2 ^ 16) :
    execTick s = .next ((drained (r.filled bytes phase) (bytes.take s.blockLimit)).respond .ok 0) := by
  have hlen := filled_pobLen_toNat r phase hlt
  have hpob : (r.filled bytes phase).pobLen ≠ 0 := fun e0 =>
    hpos (List.eq_nil_of_length_eq_zero (hlen.symm.trans (congrArg BitVec.toNat e0)))
  exact execTick_of_steps hfill
    (emissionStep_of_pending (phaseStep_ok_inv (sampled_inv h) hfill) hpob (pending_of_fill rfl hlen rfl) _)

theorem execTick_of_coldStart {s : State} (h : s.Inv) (hidle : s.seqState = .idle)
    (hqueued : s.params.frameLen ≤ s.rbCount.toNat) (hkeyed : s.sinkSample.keyed = false)
    (hlen : s.cfgPreambleLen ≠ 0) {bytes : List Byte}
    (hbytes : bytes = List.replicate s.cfgPreambleLen.toNat s.params.syncByte) :
    execTick s =
      .next ((drained (s.sampled.filled bytes .preamble) (bytes.take s.blockLimit)).respond .ok 0) := by
  have hle := h.preamble_le
  have hlength : bytes.length = s.cfgPreambleLen.toNat := by rw [hbytes, List.length_replicate]
  have hpos : bytes ≠ [] := fun e0 => hlen (BitVec.eq_of_toNat_eq (by rw [← hlength, e0]; rfl))
  refine execTick_of_fill h ?_ hpos (by omega)
  rw [hkeyed, phaseStep_of_coldStart (s := s.sampled) (h.idle hidle).2 hidle hqueued hlen]
  have hfit : s.cfgPreambleLen.toNat ≤ s.params.pobCap := by simp only [Params.pobCap]; omega
  have hpobLen : BitVec.ofNat 16 bytes.length = s.cfgPreambleLen := by
    rw [hlength, BitVec.ofNat_toNat, BitVec.setWidth_eq]
  exact preambleFill_ok.2 ⟨hfit, by rw [State.filled, hpobLen, hbytes]; rfl⟩

/-- The frame fill of a TICK takes the oldest frame (R133, R203), and the drain starts on it. -/
theorem execTick_of_due {s : State} (h : s.Inv) (hdue : s.FrameFillDue s.sinkSample.keyed) {f : List Byte}
    (hf : s.queue.take s.params.frameLen = f.map some) :
    ∃ tail count : BitVec 16, tail.toNat = (s.rbTail.toNat + s.params.frameLen) % s.params.rbCap ∧
      count.toNat = s.rbCount.toNat - s.params.frameLen ∧ f.length = s.params.frameLen ∧
      execTick s = .next ((drained (State.filled { s.sampled with rbTail := tail, rbCount := count } f .data)
        (f.take s.blockLimit)).respond .ok 0) := by
  have hdue' : s.sampled.FrameFillDue s.sinkSample.keyed := hdue
  obtain ⟨-, -, hqueued, -⟩ := hdue
  obtain ⟨frame, tail, count, len, hl, hread, htail, hcount, hlen, hfill⟩ :=
    frameFill_eq (sampled_inv h) (decide_eq_true hqueued)
  have hframe : frame.map some = f.map some := (frame_eq_queue_take hl hqueued hread).trans hf
  obtain rfl : frame = f := List.map_injective_iff.2 (Option.some_injective _) hframe
  have hl' : frame.length = s.params.frameLen := hl
  have hbig : s.params.frameLen < 2 ^ 16 := by have := s.rbCount.isLt; omega
  have hpobLen : len = BitVec.ofNat 16 frame.length := by
    apply BitVec.eq_of_toNat_eq
    rw [hlen, BitVec.toNat_ofNat, hl', Nat.mod_eq_of_lt hbig]; rfl
  have hpos : frame ≠ [] := by
    have := h.frame_pos
    exact List.ne_nil_of_length_pos (by omega)
  refine ⟨tail, count, htail, hcount, hl', execTick_of_fill h ?_ hpos (by omega)⟩
  rw [phaseStep_of_due hdue', hfill, hpobLen]
  rfl

/-! ## Silence runs -/

/-- From `s` to `t`, with nothing else in between, `n` silence steps have gone out of a hang of `c` (R211, R212): of the
block's own registers only FILT_MEM, HANG_CNT and SEQ_STATE differ, and the hang is over when the count is used up. -/
structure SilenceRun (s t : State) (c n : Nat) : Prop where
  frame : t = { s with
    seqState := t.seqState, hangCnt := t.hangCnt, filtMem := t.filtMem, sinkWrites := t.sinkWrites
    resp := t.resp, responses := t.responses, sinkSamples := t.sinkSamples, sinkDraws := t.sinkDraws }
  sinkWrites : t.sinkWrites = (s.emitSilences n).sinkWrites
  filtMem : t.filtMem = (s.emitSilences n).filtMem
  count : t.hangCnt.toNat + n = c
  phase : t.seqState = if t.hangCnt = 0 then .idle else .hang

theorem emitSilences_add (s : State) (m n : Nat) : s.emitSilences (m + n) = (s.emitSilences m).emitSilences n := by
  induction m generalizing s with
  | zero => rw [Nat.zero_add]; rfl
  | succ m ih => rw [Nat.succ_add]; exact ih s.emitSilence

theorem SilenceRun.phase_eq {s t : State} {c n : Nat} (h : SilenceRun s t c n) :
    t.seqState = if n = c then .idle else .hang := by
  have hiff : t.hangCnt = 0 ↔ n = c := by
    have hcount := h.count
    rw [show t.hangCnt = 0 ↔ t.hangCnt.toNat = 0 from BitVec.toNat_inj.symm]
    omega
  rw [h.phase]
  exact if_congr hiff rfl rfl

theorem SilenceRun.phase_cases {s t : State} {c n : Nat} (h : SilenceRun s t c n) :
    t.seqState = .hang ∨ t.seqState = .idle := by
  rw [h.phase]
  split
  · exact .inr rfl
  · exact .inl rfl

theorem SilenceRun.rbCount {s t : State} {c n : Nat} (h : SilenceRun s t c n) : t.rbCount = s.rbCount := by rw [h.frame]

theorem SilenceRun.params {s t : State} {c n : Nat} (h : SilenceRun s t c n) : t.params = s.params := by rw [h.frame]

theorem SilenceRun.trans {s t u : State} {c m n : Nat} (h : SilenceRun s t c m)
    (h' : SilenceRun t u t.hangCnt.toNat n) : SilenceRun s u c (m + n) := by
  have hparams : t.params = (s.emitSilences m).params := by rw [h.params, emitSilences_frame]
  obtain ⟨hfilt, hsink⟩ := emitSilences_congr (s := t) n hparams h.filtMem h.sinkWrites
  refine ⟨?_, ?_, ?_, ?_, h'.phase⟩
  · rw [h'.frame, h.frame]
  · rw [h'.sinkWrites, hsink, emitSilences_add]
  · rw [h'.filtMem, hfilt, emitSilences_add]
  · have h1 := h.count
    have h2 := h'.count
    omega

/-- Silence steps as far as one allowance goes and then as far as another one goes are silence steps as far as both go. -/
theorem SilenceRun.trans_min {s t u : State} {c a b : Nat} (h : SilenceRun s t c (min c a))
    (h' : SilenceRun t u t.hangCnt.toNat (min t.hangCnt.toNat b)) : SilenceRun s u c (min c (a + b)) := by
  have hcount := h.count
  have hmin : min c (a + b) = min c a + min t.hangCnt.toNat b := by omega
  rw [hmin]
  exact h.trans h'

/-- Steps that the count covers lower it without wrapping (R212). -/
theorem silenced_hangCnt_toNat {s : State} {k : Nat} (hk : k ≤ s.hangCnt.toNat) :
    (silenced s k).hangCnt.toNat = s.hangCnt.toNat - k := by
  have := s.hangCnt.isLt
  simp only [silenced, BitVec.toNat_sub, BitVec.toNat_ofNat]
  omega

/-- The silence steps of one TICK in HANG (R211, R212). -/
theorem silenced_silenceRun {s : State} (hhang : s.seqState = .hang) {k : Nat} (hk : k ≤ s.hangCnt.toNat) :
    SilenceRun s (silenced s k) s.hangCnt.toNat k where
  frame := rfl
  sinkWrites := rfl
  filtMem := rfl
  count := by
    have hsub := silenced_hangCnt_toNat hk
    omega
  phase := by
    have hsub := silenced_hangCnt_toNat hk
    have hiff : k = s.hangCnt.toNat ↔ (silenced s k).hangCnt = 0 := by
      rw [show (silenced s k).hangCnt = 0 ↔ (silenced s k).hangCnt.toNat = 0 from BitVec.toNat_inj.symm]
      omega
    exact (if_congr hiff rfl hhang :)

/-- In HANG a TICK is the hang loop and its response; the queue and the configuration are not looked at (R206, R211). -/
theorem execTick_of_hang {s : State} (hpob : s.pobLen = 0) (hhang : s.seqState = .hang) :
    execTick s = .next ((State.hangLoop s.sinkSample.freeSpace.toNat s.sinkSample.freeSpace.toNat
      s.sampled).respond .ok 0) :=
  execTick_of_steps (phaseStep_of_busy (s := s.sampled) (.inr hhang) _)
    (emissionStep_of_hang (u := s.sampled) hpob hhang _)

theorem execTick_of_quiet {s : State} (hpob : s.pobLen = 0) (hidle : s.seqState = .idle)
    (hnone : s.rbCount.toNat < s.params.frameLen) : execTick s = .next (s.sampled.respond .ok 0) := by
  have hhang : s.seqState ≠ .hang := by rw [hidle]; decide
  exact execTick_of_steps (phaseStep_of_quiet (s := s.sampled) hpob hidle hnone _)
    (emissionStep_of_quiet (u := s.sampled) hpob hhang _)

theorem emissionStep_silenceRun {u : State} (hpob : u.pobLen = 0) (hhang : u.seqState = .hang) (hcount : u.hangCnt ≠ 0)
    (space : Nat) : ∃ v, u.emissionStep space = .ok v ∧
      SilenceRun u v u.hangCnt.toNat (min u.hangCnt.toNat (maxBlocks space)) := by
  refine ⟨_, emissionStep_of_hang hpob hhang space, ?_⟩
  rw [hangLoop_eq (by omega) hcount, Nat.min_comm]
  exact silenced_silenceRun hhang (Nat.min_le_left _ _)

/-- A silence run may be counted from a state that differs in its phase, its count and the sink inputs, and through the
response of the TICK. -/
theorem SilenceRun.of_start {s u v : State} {c n : Nat} (h : SilenceRun u v c n)
    (hu : u = { s with
      seqState := u.seqState, hangCnt := u.hangCnt, sinkSamples := u.sinkSamples, sinkDraws := u.sinkDraws }) :
    SilenceRun s (v.respond .ok 0) c n := by
  obtain ⟨hfilt, hsink⟩ := emitSilences_congr (s := u) (u := s) n (by rw [hu]) (by rw [hu]) (by rw [hu])
  refine ⟨?_, h.sinkWrites.trans hsink, h.filtMem.trans hfilt, h.count, h.phase⟩
  rw [h.frame, hu]
  rfl

/-- A TICK in HANG, or in IDLE with no frame queued, is a silence run out of HANG_CNT (R206, R211, R212); in IDLE the count
is 0 and the run is empty. -/
theorem execTick_silenceRun {s : State} (h : s.Inv)
    (hs : s.seqState = .hang ∨ s.seqState = .idle ∧ s.rbCount.toNat < s.params.frameLen) :
    ∃ t, execTick s = .next t ∧ SilenceRun s t s.hangCnt.toNat (min s.hangCnt.toNat s.blockLimit) := by
  rcases hs with hhang | ⟨hidle, hnone⟩
  · obtain ⟨hcount, hpob⟩ := h.hang hhang
    obtain ⟨v, hv, hrun⟩ := emissionStep_silenceRun (u := s.sampled) hpob hhang hcount s.sinkSample.freeSpace.toNat
    exact ⟨_, execTick_of_steps (phaseStep_of_busy (s := s.sampled) (.inr hhang) _) hv, hrun.of_start rfl⟩
  · obtain ⟨hcount, hpob⟩ := h.idle hidle
    refine ⟨_, execTick_of_quiet hpob hidle hnone, ?_⟩
    have hzero : s.hangCnt.toNat = 0 := congrArg BitVec.toNat hcount
    rw [hzero, Nat.zero_min]
    exact ⟨rfl, rfl, rfl, hzero, by rw [if_pos (show (s.sampled.respond .ok 0).hangCnt = 0 from hcount)]; exact hidle⟩

/-- How many silence steps are owed at the end of data: HANG_CNT with duplex on, and none with duplex off (R205). -/
def State.hangDue (s : State) : Nat := if s.cfgDuplex = true then s.hangCnt.toNat else 0

/-- With duplex off or the count used up no hang is owed (R205). -/
theorem hangDue_eq_zero {s : State} (h : ¬ (s.cfgDuplex = true ∧ s.hangCnt ≠ 0)) : s.hangDue = 0 := by
  rw [State.hangDue]
  split
  · rename_i hd
    exact congrArg BitVec.toNat (not_not.1 fun hcount => h ⟨hd, hcount⟩)
  · rfl

/-- A TICK at the end of data is a silence run out of what is owed; with nothing owed it goes to IDLE at once (R205). -/
theorem execTick_silenceRun_of_endOfData {s : State} (hpob : s.pobLen = 0)
    (hs : s.seqState = .preamble ∨ s.seqState = .data) (hnone : s.rbCount.toNat < s.params.frameLen) :
    ∃ t, execTick s = .next t ∧ SilenceRun s t s.hangDue (min s.hangDue s.blockLimit) := by
  have hphase := phaseStep_of_endOfData (s := s.sampled) hpob hs hnone s.sinkSample.keyed
  by_cases hd : s.cfgDuplex = true ∧ s.hangCnt ≠ 0
  · have hend : s.sampled.endOfData = { s.sampled with seqState := .hang } := if_pos hd
    have hdue : s.hangDue = s.hangCnt.toNat := if_pos hd.1
    rw [hend] at hphase
    obtain ⟨v, hv, hrun⟩ := emissionStep_silenceRun (u := { s.sampled with seqState := .hang }) hpob rfl hd.2
      s.sinkSample.freeSpace.toNat
    rw [hdue]
    exact ⟨_, execTick_of_steps hphase hv, hrun.of_start rfl⟩
  · have hend : s.sampled.endOfData = { s.sampled with seqState := .idle, hangCnt := 0 } := if_neg hd
    rw [hend] at hphase
    rw [hangDue_eq_zero hd, Nat.zero_min]
    exact ⟨_, execTick_of_steps hphase (emissionStep_of_quiet (u := { s.sampled with seqState := .idle, hangCnt := 0 })
      hpob (fun e => nomatch e) _), rfl, rfl, rfl, rfl, rfl⟩

/-! ## Completion and frame -/

/-- Settles O33: inside the invariants no part of a TICK faults. -/
theorem tickAlwaysCompletes : Obligations.TickAlwaysCompletes := by
  intro s h
  obtain ⟨_, v, -, -, -, -, e⟩ := execTick_eq h
  obtain ⟨-, hresponses, -⟩ := exec_appends (i := .tick) e
  exact ⟨_, e, rfl, hresponses⟩

/-- A fill writes the first bytes of POB_MEM only (R203, R204). -/
theorem writeFrom_zero_read_of_le (m : Memory) {bytes : List Byte} {a : Nat} (h : bytes.length ≤ a) :
    (m.writeFrom 0 bytes).read a = m.read a :=
  (Memory.read_writeFrom m 0 a bytes).trans (if_neg (by omega))

/-- How many bytes of POB_MEM the phase step writes (R203, R204, R206). -/
def State.fillLength (s : State) (keyed : Bool) : Nat :=
  if s.pobLen = 0 ∧ s.seqState ≠ .hang ∧ s.params.frameLen ≤ s.rbCount.toNat then
    if s.seqState = .idle ∧ keyed = false ∧ s.cfgPreambleLen ≠ 0 then s.cfgPreambleLen.toNat else s.params.frameLen
  else 0

theorem phaseStep_pobMem_read {s u : State} {keyed : Bool} (e : s.phaseStep keyed = .ok u) {a : Nat}
    (ha : s.fillLength keyed ≤ a) : u.pobMem.read a = s.pobMem.read a := by
  rcases phaseStep_cases e with ⟨-, rfl⟩ | ⟨hpob, hidle, hqueued, hkeyed, hlen, hfill⟩ |
    ⟨hpob, hhang, hqueued, hcold, hfill⟩ | ⟨-, -, -, rfl⟩ | ⟨-, -, -, rfl⟩
  · rfl
  · have hhang : s.seqState ≠ .hang := by rw [hidle]; decide
    rw [State.fillLength, if_pos ⟨hpob, hhang, of_decide_eq_true hqueued⟩, if_pos ⟨hidle, hkeyed, hlen⟩] at ha
    rw [(preambleFill_ok.1 hfill).2]
    exact writeFrom_zero_read_of_le _ (List.length_replicate.trans_le ha)
  · have hcold' : ¬ (s.seqState = .idle ∧ keyed = false ∧ s.cfgPreambleLen ≠ 0) := fun hc =>
      nomatch hcold.symm.trans (coldStart_eq_true.2 hc)
    rw [State.fillLength, if_pos ⟨hpob, hhang, of_decide_eq_true hqueued⟩, if_neg hcold'] at ha
    obtain ⟨frame, r, hdeq, -, rfl⟩ := frameFill_ok.1 hfill
    exact writeFrom_zero_read_of_le _ ((rbDequeue_frame hdeq).2.trans_le ha)
  · rw [State.endOfData_pobMem]
  · rfl

/-- Settles O34: the emission step leaves POB_MEM, and the phase step writes as much of it as it fills. -/
theorem tickWritesOnlyWhatItsRuleLists : Obligations.TickWritesOnlyWhatItsRuleLists := by
  intro s t e
  obtain ⟨u, v, hphase, hemit, ht⟩ := execTick_next e
  have hpobMem : t.pobMem = u.pobMem := by rw [ht, emissionStep_frame hemit]; rfl
  have hread : ∀ a, s.fillLength s.sinkSample.keyed ≤ a → t.pobMem.read a = s.pobMem.read a := by
    intro a ha
    rw [afterSinkSample_eq] at hphase
    rw [hpobMem]
    exact (phaseStep_pobMem_read (s := s.sampled) hphase ha :)
  refine ⟨?_, ?_, ?_, ?_, ?_, ?_, ?_, ?_, hread⟩ <;> rw [execTick_frame e]

/-- Settles O49, command by command: none of the others names one of these registers. -/
theorem onlyTickMovesTheTransmitter : Obligations.OnlyTickMovesTheTransmitter := by
  intro s t i hi e
  rcases exec_next_cases e with ⟨len, p, -, -, rfl⟩ | ⟨htick, -⟩ | ⟨d, -, rfl⟩ | ⟨l, u, -, rfl⟩ | ⟨-, rfl⟩ | ⟨d, -, rfl⟩
  · rw [submitFrame_frame]
    exact ⟨rfl, rfl, rfl, rfl, rfl, rfl, rfl, rfl, rfl, rfl⟩
  · exact absurd htick hi
  all_goals exact ⟨rfl, rfl, rfl, rfl, rfl, rfl, rfl, rfl, rfl, rfl⟩

/-! ## Fills and drains -/

/-- Settles O38: the phase step leaves a POB with bytes, and the drain takes as many as the space allows. -/
theorem drainSendsWhatTheSpaceAllows : Obligations.DrainSendsWhatTheSpaceAllows := by
  intro s bs h hpob hbs
  refine ⟨_, execTick_of_pending h hpob hbs, rfl, rfl, rfl, rfl, rfl, rfl, fun k hk => ?_⟩
  have hptr := h.ptr_lt hpob
  have hlen := length_of_pending hbs
  exact drained_take s (u := s.sampled) rfl rfl rfl rfl
    (show s.pobPtr.toNat + bs.length = s.pobLen.toNat by omega) hk

/-- Settles O37: the fill takes the oldest frame, and the drain starts at its first byte. -/
theorem frameFillTakesTheOldestFrame : Obligations.FrameFillTakesTheOldestFrame := by
  intro s f h hpob hhang hqueued hcold hf
  obtain ⟨tail, count, htail, hcount, hl, e⟩ := execTick_of_due h ⟨hpob, hhang, hqueued, hcold⟩ hf
  refine ⟨_, e, rfl, rfl, rfl, htail, hcount, fun j hj => filled_pobMem_read _ f .data (hj.trans_eq hl.symm),
    fun k hk => ?_⟩
  have hlt : f.length < 2 ^ 16 := by have := s.rbCount.isLt; omega
  rw [← hl] at hk ⊢
  exact drained_filled_take s (r := { s.sampled with rbTail := tail, rbCount := count }) f .data rfl rfl rfl rfl hlt hk

/-- Settles O36: a preamble fill and its drain, or with no preamble the frame fill. -/
theorem coldStartFillsThePreamble : Obligations.ColdStartFillsThePreamble := by
  intro s h hidle hqueued hkeyed
  refine ⟨fun hlen => ?_, fun hlen => ?_⟩
  · obtain ⟨bytes, hbytes⟩ : ∃ bytes, bytes = List.replicate s.cfgPreambleLen.toNat s.params.syncByte := ⟨_, rfl⟩
    have hl : bytes.length = s.cfgPreambleLen.toNat := by rw [hbytes, List.length_replicate]
    refine ⟨_, execTick_of_coldStart h hidle hqueued hkeyed hlen hbytes, rfl, rfl, rfl, rfl, rfl,
      drained_hangCnt_eq (by rintro ⟨-, hdata, -⟩; cases hdata), fun j hj => ?read, fun k hk => ?drain⟩
    case read =>
      refine (filled_pobMem_read s.sampled bytes .preamble (hj.trans_eq hl.symm)).trans ?_
      rw [hbytes, List.getElem?_replicate, if_pos hj]
    case drain =>
      have htake : bytes.take k = List.replicate k s.params.syncByte := by
        rw [hbytes, List.take_replicate, Nat.min_eq_left (hk.trans_le (Nat.min_le_left _ _))]
      have hlt : bytes.length < 2 ^ 16 := hl.trans_lt s.cfgPreambleLen.isLt
      rw [← hl] at hk ⊢
      rw [← htake]
      obtain ⟨hsink, hfilt, hsome, hall⟩ :=
        drained_filled_take s (r := s.sampled) bytes .preamble rfl rfl rfl rfl hlt hk
      refine ⟨hsink, hfilt, fun hsent => ?_, hall⟩
      obtain ⟨hpobLen, hpobPtr⟩ := hsome hsent
      exact ⟨BitVec.eq_of_toNat_eq (hpobLen.trans hl), hpobPtr⟩
  · obtain ⟨f, hf⟩ := h.exists_frame
    have hhang : s.seqState ≠ .hang := by rw [hidle]; decide
    obtain ⟨t, e, hdata, -, -, -, hcount, hread, -⟩ :=
      frameFillTakesTheOldestFrame s f h (h.idle hidle).2 hhang hqueued (fun hc => hc.2.2 hlen) hf
    exact ⟨t, e, hdata, hcount, fun j hj => (hread j hj).trans (getElem?_of_queue_take hf hqueued hj)⟩

/-! ## Hang -/

/-- Settles O41: a silence run out of HANG_CNT. -/
theorem hangCountsItsSilenceSteps : Obligations.HangCountsItsSilenceSteps := by
  intro s h hhang
  obtain ⟨t, e, hrun⟩ := execTick_silenceRun h (.inl hhang)
  refine ⟨t, e, fun k hk => ?_⟩
  rw [← show k = min s.hangCnt.toNat s.blockLimit from hk] at hrun
  exact ⟨hrun.sinkWrites, hrun.filtMem, by rw [hrun.sinkWrites, emitSilences_length], hrun.count, hrun.phase⟩

/-- Settles O40: a silence run out of what is owed at the end of data, which is HANG_CNT or nothing. -/
theorem endOfDataGoesToHangOrIdle : Obligations.EndOfDataGoesToHangOrIdle := by
  intro s h hpob hs hnone
  obtain ⟨t, e, hrun⟩ := execTick_silenceRun_of_endOfData hpob hs hnone
  refine ⟨t, e, by rw [hrun.frame], by rw [hrun.frame], by rw [hrun.frame], ?_, fun hd => ?_⟩
  · rintro ⟨hd, -⟩ k hk
    have hdue : s.hangDue = s.hangCnt.toNat := if_pos hd
    rw [hdue, ← show k = min s.hangCnt.toNat s.blockLimit from hk] at hrun
    have hcount := hrun.count
    exact ⟨hrun.sinkWrites, hrun.filtMem, by omega, hrun.phase_eq⟩
  · rw [hangDue_eq_zero hd, Nat.zero_min] at hrun
    exact ⟨hrun.phase_eq, BitVec.eq_of_toNat_eq hrun.count, hrun.sinkWrites, hrun.filtMem⟩

/-- Settles O43: in HANG a TICK is a silence run, in an empty IDLE nothing but its response. -/
theorem noFillInHangOrEmptyIdle : Obligations.NoFillInHangOrEmptyIdle := by
  intro s
  refine ⟨fun h hhang => ?_, fun hidle hpob hnone => execTick_of_quiet hpob hidle hnone⟩
  obtain ⟨t, e, hrun⟩ := execTick_silenceRun h (.inl hhang)
  refine ⟨t, e, ?_, ?_, ?_, ?_, ?_, ?_, ?_⟩ <;> rw [hrun.frame]

/-- The state with another ring-buffer content and configuration. -/
def State.withQueueAndConfig (q : Memory) (h c n : BitVec 16) (l d : Bool) (dur : BitVec 32) (s : State) : State :=
  { s with
    rbMem := q, rbHead := h, rbCount := c
    cfgLodev := l, cfgPreambleLen := n, cfgHangDur := dur, cfgDuplex := d }

section
variable (q : Memory) (h c n : BitVec 16) (l d : Bool) (dur : BitVec 32)

theorem hangLoop_withQueueAndConfig (fuel space : Nat) (s : State) :
    State.hangLoop fuel space (s.withQueueAndConfig q h c n l d dur) =
      (State.hangLoop fuel space s).withQueueAndConfig q h c n l d dur := by
  have hstep : ∀ s : State, (s.withQueueAndConfig q h c n l d dur).silenceStep =
    s.silenceStep.withQueueAndConfig q h c n l d dur := fun _ => rfl
  induction fuel generalizing s space with
  | zero => rfl
  | succ fuel ih =>
    simp only [State.hangLoop, hstep, ih, apply_ite (State.withQueueAndConfig q h c n l d dur)]
    rfl

theorem sampled_withQueueAndConfig (s : State) :
    (s.withQueueAndConfig q h c n l d dur).sampled = s.sampled.withQueueAndConfig q h c n l d dur := by
  have hafter : (s.withQueueAndConfig q h c n l d dur).afterSinkSample =
      s.afterSinkSample.withQueueAndConfig q h c n l d dur := by
    simp only [State.afterSinkSample, State.withQueueAndConfig]
    split <;> rfl
  simp only [State.sampled, hafter]
  rfl

end

/-- Settles O44: neither step of a TICK in HANG looks at what is replaced. -/
theorem hangIgnoresQueueAndConfiguration : Obligations.HangIgnoresQueueAndConfiguration := by
  intro s t q h c n l d dur hhang hpob e
  cases e.symm.trans (execTick_of_hang hpob hhang)
  have hother := execTick_of_hang (s := s.withQueueAndConfig q h c n l d dur) hpob hhang
  rw [sampled_withQueueAndConfig, hangLoop_withQueueAndConfig] at hother
  exact hother

/-! ## A hang over several TICKs -/

/-- The first of several TICKs completes, and the others follow it (R51). -/
theorem afterTicks_cons {s t : State} {x : SinkSample} (xs : List SinkSample)
    (e : execTick (s.withSinkSamples (x :: s.sinkSamples)) = .next t) : afterTicks (x :: xs) s = afterTicks xs t := by
  have e' : exec .tick { s with sinkSamples := x :: s.sinkSamples } = .next t := e
  rw [afterTicks, e']

theorem withSinkSamples_inv {s : State} (h : s.Inv) (xs : List SinkSample) : (s.withSinkSamples xs).Inv := h.congr rfl

theorem totalBlocks_cons (x : SinkSample) (xs : List SinkSample) :
    totalBlocks (x :: xs) = maxBlocks x.freeSpace.toNat + totalBlocks xs := by
  simp only [totalBlocks, List.map_cons, List.sum_cons]

theorem SilenceRun.of_withSinkSamples {s t : State} {xs : List SinkSample} {c n : Nat}
    (h : SilenceRun (s.withSinkSamples xs) t c n) : SilenceRun s t c n := by
  obtain ⟨hfilt, hsink⟩ := emitSilences_congr (s := s.withSinkSamples xs) (u := s) n rfl rfl rfl
  refine ⟨?_, h.sinkWrites.trans hsink, h.filtMem.trans hfilt, h.count, h.phase⟩
  rw [h.frame]
  rfl

/-- In HANG, or once in IDLE, any TICKs with no frame queued are one silence run out of HANG_CNT (R206, R211, R212). -/
theorem afterTicks_silenceRun {s : State} (h : s.Inv) (hs : s.seqState = .hang ∨ s.seqState = .idle)
    (hnone : s.rbCount.toNat < s.params.frameLen) (xs : List SinkSample) :
    ∃ t, afterTicks xs s = some t ∧ SilenceRun s t s.hangCnt.toNat (min s.hangCnt.toNat (totalBlocks xs)) := by
  induction xs generalizing s with
  | nil =>
    rw [show totalBlocks [] = 0 from rfl, Nat.min_zero]
    refine ⟨s, rfl, rfl, rfl, rfl, rfl, ?_⟩
    rcases hs with hhang | hidle
    · rw [hhang, if_neg (h.hang hhang).1]
    · rw [hidle, if_pos (h.idle hidle).1]
  | cons x xs ih =>
    have h' := withSinkSamples_inv h (x :: s.sinkSamples)
    obtain ⟨t, e, hrun⟩ := execTick_silenceRun h' (hs.imp_right fun hidle => ⟨hidle, hnone⟩)
    have hnone' : t.rbCount.toNat < t.params.frameLen := by rw [hrun.rbCount, hrun.params]; exact hnone
    obtain ⟨u, eu, hrun'⟩ := ih (execTick_inv h' e) hrun.phase_cases hnone'
    refine ⟨u, (afterTicks_cons xs e).trans eu, ?_⟩
    rw [totalBlocks_cons]
    exact hrun.of_withSinkSamples.trans_min hrun'

/-- From the end of data any TICKs, one at least, are one silence run out of what is owed (R205, R211, R212). -/
theorem afterTicks_silenceRun_of_endOfData {s : State} (h : s.Inv) (hpob : s.pobLen = 0)
    (hs : s.seqState = .preamble ∨ s.seqState = .data) (hnone : s.rbCount.toNat < s.params.frameLen)
    {xs : List SinkSample} (hxs : xs ≠ []) :
    ∃ t, afterTicks xs s = some t ∧ SilenceRun s t s.hangDue (min s.hangDue (totalBlocks xs)) := by
  obtain ⟨x, xs, rfl⟩ := List.exists_cons_of_ne_nil hxs
  obtain ⟨t, e, hrun⟩ := execTick_silenceRun_of_endOfData (s := s.withSinkSamples (x :: s.sinkSamples)) hpob hs hnone
  have hnone' : t.rbCount.toNat < t.params.frameLen := by rw [hrun.rbCount, hrun.params]; exact hnone
  obtain ⟨u, eu, hrun'⟩ :=
    afterTicks_silenceRun (execTick_inv (withSinkSamples_inv h _) e) hrun.phase_cases hnone' xs
  refine ⟨u, (afterTicks_cons xs e).trans eu, ?_⟩
  rw [totalBlocks_cons]
  exact hrun.of_withSinkSamples.trans_min hrun'

/-- A TICK in DATA with room for all that is in the POB sends it and clears the POB (R208 to R210). -/
theorem execTick_sends_all {s : State} (h : s.Inv) (hpob : s.pobLen ≠ 0) {bs : List Byte}
    (hbs : s.pending = bs.map some) (hdata : s.seqState = .data) (hroom : bs.length ≤ s.blockLimit) :
    ∃ t, execTick s = .next t ∧ t.pobLen = 0 ∧ t.seqState = .data ∧ t.rbCount = s.rbCount ∧ t.params = s.params ∧
      t.hangDue = (if s.cfgDuplex = true then s.cfgHangDur.toNat else 0) ∧
      t.sinkWrites = (s.emitBytes bs).sinkWrites ∧ t.filtMem = (s.emitBytes bs).filtMem := by
  have hptr := h.ptr_lt hpob
  have hlen := length_of_pending hbs
  have hne : bs ≠ [] := List.ne_nil_of_length_pos (by omega)
  have e := execTick_of_pending h hpob hbs
  rw [List.take_of_length_le hroom] at e
  obtain ⟨hsink, hfilt⟩ := drained_emits s s.sampled bs rfl rfl rfl rfl
  refine ⟨_, e, if_neg ?_, hdata, rfl, rfl, ?_, hsink, hfilt⟩
  · show ¬ s.pobPtr.toNat + bs.length < s.pobLen.toNat
    omega
  · refine if_ctx_congr Iff.rfl (fun hd => ?_) fun _ => rfl
    exact congrArg BitVec.toNat (if_pos ⟨hne, hdata, hd⟩)

/-- Settles O42: the TICK that sends the last bytes reloads the count, and the later ones are one silence run out of it. -/
theorem hangLastsExactlyItsDuration : Obligations.HangLastsExactlyItsDuration := by
  intro s bs x xs h hdata hpob hbs hnone hroom hxs
  have h' := withSinkSamples_inv h (x :: s.sinkSamples)
  obtain ⟨t, e, hempty, hdata', hcount, hparams, hdue, hsink, hfilt⟩ :=
    execTick_sends_all h' hpob (bs := bs) hbs hdata hroom
  have hnone' : t.rbCount.toNat < t.params.frameLen := by rw [hcount, hparams]; exact hnone
  obtain ⟨u, eu, hrun⟩ := afterTicks_silenceRun_of_endOfData (execTick_inv h' e) hempty (.inr hdata') hnone' hxs
  obtain ⟨hfilt₀, hsink₀⟩ := emitBytes_congr (s := s.withSinkSamples (x :: s.sinkSamples)) (u := s) bs rfl rfl rfl rfl
  have hdue' : t.hangDue = if s.cfgDuplex = true then s.cfgHangDur.toNat else 0 := hdue
  have hparams₀ : t.params = (s.emitBytes bs).params := by rw [hparams, emitBytes_frame]; rfl
  refine ⟨u, (afterTicks_cons xs e).trans eu, hrun.rbCount.trans hcount, fun hd k hk => ?_, fun hd => ?_⟩
  · rw [hdue'.trans (if_pos hd), ← hk] at hrun
    obtain ⟨hfilt₁, hsink₁⟩ :=
      emitSilences_congr (u := s.emitBytes bs) k hparams₀ (hfilt.trans hfilt₀) (hsink.trans hsink₀)
    exact ⟨hrun.sinkWrites.trans hsink₁, hrun.filtMem.trans hfilt₁, hrun.phase_eq⟩
  · have hd' : ¬ s.cfgDuplex = true := by rw [hd]; decide
    rw [hdue'.trans (if_neg hd'), Nat.zero_min] at hrun
    exact ⟨hrun.sinkWrites.trans (hsink.trans hsink₀), hrun.filtMem.trans (hfilt.trans hfilt₀), hrun.phase_eq⟩

/-! ## What any TICK sends -/

/-- The phase step sends nothing and leaves the configuration (R200). -/
theorem PhaseCase.frame_eq {s u : State} {keyed : Bool} (h : PhaseCase s keyed u) : u = { s with
    seqState := u.seqState, hangCnt := u.hangCnt, rbTail := u.rbTail, rbCount := u.rbCount
    pobMem := u.pobMem, pobLen := u.pobLen, pobPtr := u.pobPtr } := by
  cases h <;> rfl

/-- The emission step sends at most as many blocks as the free space allows (R214). -/
theorem EmissionCase.sent {u v : State} {space : Nat} (h : EmissionCase u space v) :
    ∃ n ≤ maxBlocks space, v.sinkWrites.length = u.sinkWrites.length + n := by
  cases h with
  | drain bs _ _ _ => exact ⟨_, List.length_take_le _ bs, emitBytes_length u _⟩
  | silence _ _ => exact ⟨_, Nat.min_le_left _ _, emitSilences_length u _⟩
  | none _ _ => exact ⟨0, Nat.zero_le _, rfl⟩

theorem execTick_sent {s t : State} (h : s.Inv) (e : execTick s = .next t) :
    ∃ n ≤ s.blockLimit, t.sinkWrites.length = s.sinkWrites.length + n := by
  obtain ⟨u, v, hphase, -, hemit, -, e'⟩ := execTick_eq h
  cases e.symm.trans e'
  have hsent := hemit.sent
  rwa [hphase.frame_eq] at hsent

/-- Settles O46: the blocks are counted by `execTick_sent`, and SPACE_W bounds the free space. -/
theorem tickStaysBelowTheFreeSpace : Obligations.TickStaysBelowTheFreeSpace := by
  intro s t h e
  obtain ⟨n, hn, hlen⟩ := execTick_sent h e
  have hprefix := execTick_prefix e
  have hspace := s.sinkSample.freeSpace.isLt
  simp only [State.blockLimit, maxBlocks] at hn
  refine ⟨hprefix, by omega, fun _ => by omega, fun hsmall => ?_, by omega⟩
  exact (hprefix.eq_of_length (by omega)).symm

/-- Bytes are in the POB in PREAMBLE and DATA only (R34, R41). -/
theorem State.Inv.phase_of_pob {s : State} (h : s.Inv) (hpob : s.pobLen ≠ 0) :
    s.seqState = .preamble ∨ s.seqState = .data := by
  cases hs : s.seqState with
  | preamble => exact .inl rfl
  | data => exact .inr rfl
  | idle => exact absurd (h.idle hs).2 hpob
  | hang => exact absurd (h.hang hs).2 hpob

/-- Settles O45: the emission step is a drain, a silence run or nothing, and nothing is the empty run of either. -/
theorem oneEmissionPathPerTick : Obligations.OneEmissionPathPerTick := by
  intro s t h e
  obtain ⟨u, v, hphase, hu, hemit, -, e'⟩ := execTick_eq h
  cases e.symm.trans e'
  have hparams : u.params = s.params := by rw [hphase.frame_eq]
  have hfilt : u.filtMem = s.filtMem := by rw [hphase.frame_eq]
  have hlodev : u.cfgLodev = s.cfgLodev := by rw [hphase.frame_eq]
  have hsink : u.sinkWrites = s.sinkWrites := by rw [hphase.frame_eq]
  cases hemit with
  | drain bs hpob _ _ =>
    obtain ⟨hw, hf⟩ := drained_emits s u (bs.take (maxBlocks s.sinkSample.freeSpace.toNat)) hparams hfilt hlodev hsink
    exact .inl ⟨_, hw, hf, fun _ => hu.phase_of_pob hpob⟩
  | silence hpob hhang =>
    obtain ⟨hw, hf⟩ := silenced_emits s u (min (maxBlocks s.sinkSample.freeSpace.toNat) u.hangCnt.toNat) hparams hfilt hsink
    exact .inr ⟨_, hw, hf, (silenced_silenceRun hhang (Nat.min_le_right _ _)).phase_cases⟩
  | none => exact .inl ⟨[], hsink, hfilt, absurd rfl⟩

/-! ## The hang count -/

/-- The phase step touches HANG_CNT only on the way to IDLE (R205). -/
theorem PhaseCase.hangCnt_eq {s u : State} {keyed : Bool} (h : PhaseCase s keyed u) (hu : u.seqState ≠ .idle) :
    u.hangCnt = s.hangCnt := by
  cases h with
  | idle => exact absurd rfl hu
  | busy | quiet | preamble | frame | hang => rfl

/-- After an emission step that ends in PREAMBLE or DATA, HANG_CNT is reloaded if a byte went out in DATA with duplex on, and
else as it was (R209). -/
theorem EmissionCase.hangCnt_eq {u v : State} {space : Nat} (h : EmissionCase u space v)
    (hv : v.seqState = .preamble ∨ v.seqState = .data) :
    u.seqState = v.seqState ∧
    v.hangCnt = if u.sinkWrites.length < v.sinkWrites.length ∧ v.seqState = .data ∧ u.cfgDuplex = true then u.cfgHangDur
      else u.hangCnt := by
  cases h with
  | drain bs hpob _ _ =>
    refine ⟨rfl, if_congr (and_congr_left' ?_) rfl rfl⟩
    rw [show (drained u _).sinkWrites.length = _ from emitBytes_length u _, ← List.length_pos_iff]
    omega
  | silence _ hhang =>
    rcases (silenced_silenceRun hhang (Nat.min_le_right _ _)).phase_cases with e | e <;>
      exact absurd hv (by rw [e]; decide)
  | none => exact ⟨rfl, (if_neg fun hc => Nat.lt_irrefl _ hc.1).symm⟩

theorem execTick_hangCnt {s t : State} (h : s.Inv) (e : execTick s = .next t)
    (ht : t.seqState = .preamble ∨ t.seqState = .data) :
    t.hangCnt = if s.sinkWrites.length < t.sinkWrites.length ∧ t.seqState = .data ∧ s.cfgDuplex = true then s.cfgHangDur
      else s.hangCnt := by
  obtain ⟨u, v, hphase, -, hemit, -, e'⟩ := execTick_eq h
  cases e.symm.trans e'
  obtain ⟨hseq, hcnt⟩ := hemit.hangCnt_eq ht
  have hidle : u.seqState ≠ .idle := by
    intro hi
    rw [hi] at hseq
    rcases ht with e | e <;> exact nomatch hseq.trans e
  rw [hphase.hangCnt_eq hidle] at hcnt
  rw [hphase.frame_eq] at hcnt
  exact hcnt

/-- Settles O39: `execTick_hangCnt`, and in HANG the count of a silence run. -/
theorem dataBytesReloadTheHangCount : Obligations.DataBytesReloadTheHangCount := by
  intro s t h e
  refine ⟨fun hdata hd hsent => ?_, fun hdata hkept => ?_, fun hpre => ?_, fun hhang => ?_⟩
  · rw [execTick_hangCnt h e (.inr hdata), if_pos ⟨hsent, hdata, hd⟩]
  · rw [execTick_hangCnt h e (.inr hdata), if_neg]
    rintro ⟨hsent, -, hd⟩
    rcases hkept with hoff | hsame
    · exact absurd hd (by rw [hoff]; decide)
    · exact absurd hsent (by rw [hsame]; exact Nat.lt_irrefl _)
  · rw [execTick_hangCnt h e (.inl hpre), if_neg]
    rintro ⟨-, hdata, -⟩
    exact nomatch hpre.symm.trans hdata
  · have hcount := (of_exec_next (i := .tick) e (execTick_silenceRun h (.inl hhang))).count
    omega

/-! ## The transition table -/

/-- Settles O47, row by row, from the statement about what a TICK does on that row. -/
theorem sequencerFollowsTheTransitionTable : Obligations.SequencerFollowsTheTransitionTable := by
  intro s t h e
  have hfill (hdue : s.FrameFillDue s.sinkSample.keyed) : t.seqState = .data := by
    obtain ⟨hpob, hhang, hqueued, hcold⟩ := hdue
    obtain ⟨f, hf⟩ := h.exists_frame
    exact (of_exec_next e (frameFillTakesTheOldestFrame s f h hpob hhang hqueued hcold hf)).1
  have hend (hs : s.seqState = .preamble ∨ s.seqState = .data) (hpob : s.pobLen = 0)
      (hnone : s.rbCount.toNat < s.params.frameLen) :=
    of_exec_next (i := .tick) e (execTick_silenceRun_of_endOfData hpob hs hnone)
  have hhang (hs : s.seqState = .hang) := of_exec_next (i := .tick) e (execTick_silenceRun h (.inl hs))
  refine ⟨fun hidle hnone => ?_, fun hidle hqueued hcold => ?_, fun hidle hqueued hwarm => ?_, fun hpob => ?_,
    fun hs hpob hqueued => ?_, fun hs hpob hnone _ _ => (hend hs hpob hnone).phase, fun hs hpob hnone hoff => ?_,
    fun hs hne => (hhang hs).phase.trans (if_neg hne), fun hs h0 => (hhang hs).phase.trans (if_pos h0)⟩
  · cases e.symm.trans ((noFillInHangOrEmptyIdle s).2 hidle (h.idle hidle).2 hnone)
    exact hidle
  · exact (of_exec_next e ((coldStartFillsThePreamble s h hidle hqueued hcold.1).1 hcold.2)).1
  · refine hfill ⟨(h.idle hidle).2, by rw [hidle]; decide, hqueued, ?_⟩
    rintro ⟨-, hkeyed, hlen⟩
    exact hwarm.elim (fun hk => nomatch hk.symm.trans hkeyed) hlen
  · obtain ⟨bs, hbs⟩ := h.exists_pending
    exact (of_exec_next e (drainSendsWhatTheSpaceAllows s bs h hpob hbs)).1
  · refine hfill ⟨hpob, ?_, hqueued, ?_⟩
    · rcases hs with hs | hs <;> rw [hs] <;> decide
    · rintro ⟨hidle, -⟩
      rcases hs with hs | hs <;> exact nomatch hs.symm.trans hidle
  · have hnohang : ¬ (s.cfgDuplex = true ∧ s.hangCnt ≠ 0) := by
      rintro ⟨hon, hne⟩
      exact hoff.elim (fun ho => nomatch ho.symm.trans hon) hne
    have hrun := hend hs hpob hnone
    rw [hangDue_eq_zero hnohang, Nat.zero_min] at hrun
    exact ⟨hrun.phase_eq, BitVec.eq_of_toNat_eq hrun.count⟩

/-- A TICK that ends in PREAMBLE has its phase step end there (R204, R212). -/
theorem EmissionCase.preamble_of_preamble {u v : State} {space : Nat} (h : EmissionCase u space v)
    (hv : v.seqState = .preamble) : u.seqState = .preamble :=
  (h.hangCnt_eq (.inl hv)).1.trans hv

/-- Only the preamble fill enters PREAMBLE, and it starts in IDLE (R204). -/
theorem PhaseCase.of_preamble {s u : State} {keyed : Bool} (h : PhaseCase s keyed u) (hu : u.seqState = .preamble) :
    s.seqState = .preamble ∨ s.seqState = .idle := by
  cases h with
  | busy => exact .inl hu
  | quiet _ hidle _ => exact .inr hidle
  | preamble _ hidle _ _ _ => exact .inr hidle
  | frame | hang | idle => exact nomatch hu

/-- Settles O48: the way into PREAMBLE is `PhaseCase.of_preamble`, and the frame that started a preamble is still queued when
the preamble is drained (D20). -/
theorem preambleOncePerTransmission : Obligations.PreambleOncePerTransmission := by
  intro s t h e
  refine ⟨fun hpre => ?_, fun hpre hpob => ?_⟩
  · obtain ⟨u, v, hphase, -, hemit, -, e'⟩ := execTick_eq h
    cases e.symm.trans e'
    exact hphase.of_preamble (hemit.preamble_of_preamble hpre)
  · obtain ⟨-, -, -, -, hnext, -⟩ := sequencerFollowsTheTransitionTable s t h e
    exact hnext (.inl hpre) hpob (of_decide_eq_true (h.preamble_queued hpre))

end Sys2Proof.Machine
end

section
/-! The configuration commands (spec/45_configuration.md): the values the two numeric registers can hold, and the whole next
state of each command. -/

namespace Sys2Proof.Machine

/-! ## An answer OK without DATA -/

theorem respWord_ok_zero : respWord .ok 0 = 0#32 := by decide

/-- Such an answer writes RESP and the port, and nothing else (R110). -/
theorem respond_ok_zero (s : State) : s.respond .ok 0 = { s with resp := 0#32, responses := s.responses ++ [0#32] } := by
  rw [State.respond, respWord_ok_zero]

/-! ## The register values -/

/-- The clamp fits the preamble length into its register, whatever the parameters are (R240). -/
theorem toNat_ofNat_preambleLen (p : Params) (delay : BitVec 8) :
    (BitVec.ofNat 16 (Params.preambleLen p delay)).toNat = min (p.preambleOffset + p.preambleScale * delay.toNat) 1200 := by
  have hclamp : Params.preambleLen p delay ≤ 1200 := Nat.min_le_right _ _
  exact Nat.mod_eq_of_lt (by omega)

/-- R243: the product is at most 255 * 2^24. -/
theorem hangDur_lt {p : Params} (hscale : p.hangScale ≤ 2 ^ 24) (units : BitVec 8) : Params.hangDur p units < 2 ^ 32 := by
  have hunits : operand units ≤ 255 := Nat.le_of_lt_succ units.isLt
  calc Params.hangDur p units ≤ 255 * 2 ^ 24 := Nat.mul_le_mul hunits hscale
    _ < 2 ^ 32 := by decide

/-- The hang duration fits into its register (R243). -/
theorem toNat_ofNat_hangDur {p : Params} (hscale : p.hangScale ≤ 2 ^ 24) (units : BitVec 8) :
    (BitVec.ofNat 32 (Params.hangDur p units)).toNat = units.toNat * p.hangScale :=
  Nat.mod_eq_of_lt (hangDur_lt hscale units)

/-! ## The next state of each command -/

theorem exec_setPreambleDelay (s : State) (delay : BitVec 8) : exec (.setPreambleDelay delay) s = .next { s with
    cfgPreambleLen := BitVec.ofNat 16 (Params.preambleLen s.params delay)
    resp := 0#32, responses := s.responses ++ [0#32] } :=
  congrArg Host.Outcome.next (respond_ok_zero _)

theorem exec_setDevHang (s : State) (lodev : Bool) (units : BitVec 8) : exec (.setDevHang lodev units) s = .next { s with
    cfgLodev := lodev, cfgHangDur := BitVec.ofNat 32 (Params.hangDur s.params units)
    resp := 0#32, responses := s.responses ++ [0#32] } :=
  congrArg Host.Outcome.next (respond_ok_zero _)

/-- Settles O23: the two registers written are `exec_setDevHang`'s, and the product fits by R243's bound. -/
theorem devHangSetsDeviationAndExactDuration : Obligations.DevHangSetsDeviationAndExactDuration := by
  intro s lodev units hlegal
  obtain ⟨-, -, -, -, -, hscale⟩ := hlegal
  exact ⟨_, exec_setDevHang s lodev units, rfl, toNat_ofNat_hangDur hscale units, rfl⟩

/-- Settles O22: the clamped length fits into the register. -/
theorem preambleDelaySetsTheClampedLength : Obligations.PreambleDelaySetsTheClampedLength := by
  intro s delay
  exact ⟨_, exec_setPreambleDelay s delay, toNat_ofNat_preambleLen s.params delay, rfl⟩

/-- Settles O24: CFG_DUPLEX is the one register written beside the answer. -/
theorem duplexIsSet : Obligations.DuplexIsSet := by
  intro s duplex
  exact congrArg Host.Outcome.next (respond_ok_zero { s with cfgDuplex := duplex })

end Sys2Proof.Machine
end

section
/-! The errors of a command (spec/60_exceptions.md): the table of causes in the order of their priority, the status each
cause is answered with, and the state an error leaves. Beside them the step with nothing at the port. -/

namespace Sys2Proof.Machine

/-! ## The causes -/

/-- The error of a command that decodes: only SUBMIT_FRAME has one (R261). -/
def State.execError (s : State) : Instr → Option Status
  | .submitFrame len _ => s.submitError len
  | _ => none

/-- The error of a delivery, an illegal word before the checks of SUBMIT_FRAME (R261, R264). -/
def State.commandError (s : State) (w : Word) (p : List Byte) : Option Status :=
  match decode w p with
  | .ok i => s.execError i
  | .error _ => some .illegalCommand

theorem commandError_of_decode {w : Word} {p : List Byte} {i : Instr} (h : decode w p = .ok i) (s : State) :
    s.commandError w p = s.execError i := by
  simp only [State.commandError, h]

theorem commandError_of_reject {w : Word} {p : List Byte} {r : Reject} (h : decode w p = .error r) (s : State) :
    s.commandError w p = some .illegalCommand := by
  simp only [State.commandError, h]

/-- The length is checked first (R131, R264). -/
theorem submitError_eq_lengthError {s : State} {len : BitVec 16} :
    s.submitError len = some .lengthError ↔ len.toNat ≠ s.params.frameLen := by
  unfold State.submitError operand
  split_ifs with hlen hfull
  · exact iff_of_true rfl hlen
  · exact iff_of_false nofun hlen
  · exact iff_of_false nofun hlen

theorem submitError_eq_capacityError {s : State} {len : BitVec 16} :
    s.submitError len = some .capacityError ↔ len.toNat = s.params.frameLen ∧ s.rbFree < s.params.frameLen := by
  unfold State.submitError operand
  split_ifs with hlen hfull
  · exact iff_of_false nofun fun h => hlen h.1
  · exact iff_of_true rfl ⟨not_not.1 hlen, hfull⟩
  · exact iff_of_false nofun fun h => hfull h.2

theorem submitError_ne_illegalCommand (s : State) (len : BitVec 16) : s.submitError len ≠ some .illegalCommand := by
  unfold State.submitError
  split_ifs <;> exact nofun

/-- A command that decodes is not illegal. -/
theorem execError_ne_illegalCommand (s : State) (i : Instr) : s.execError i ≠ some .illegalCommand := by
  cases i with
  | submitFrame len p => exact submitError_ne_illegalCommand s len
  | _ => exact nofun

theorem commandError_eq_illegalCommand {s : State} {w : Word} {p : List Byte} :
    s.commandError w p = some .illegalCommand ↔ ∀ i, decode w p ≠ .ok i := by
  cases hd : decode w p with
  | ok i =>
    rw [commandError_of_decode hd]
    exact iff_of_false (execError_ne_illegalCommand s i) fun h => h i rfl
  | error r => exact iff_of_true (commandError_of_reject hd s) fun _ => nofun

/-- Any error but an illegal word is one of the two checks of a SUBMIT_FRAME that decodes (R261). -/
theorem commandError_eq_some {s : State} {w : Word} {p : List Byte} {status : Status} (hne : status ≠ .illegalCommand) :
    s.commandError w p = some status ↔
      ∃ len, decode w p = .ok (.submitFrame len p) ∧ s.submitError len = some status := by
  constructor
  · intro h
    cases hd : decode w p with
    | error r =>
      cases (commandError_of_reject hd s).symm.trans h
      exact absurd rfl hne
    | ok i =>
      rw [commandError_of_decode hd] at h
      cases i with
      | submitFrame len q =>
        obtain rfl := decode_submitFrame_payload hd
        exact ⟨len, rfl, h⟩
      | _ => cases h
  · rintro ⟨len, hd, h⟩
    exact (commandError_of_decode hd s).trans h

/-! ## The answer to an error -/

/-- Two statuses have two codes (R111). -/
theorem Status.code_injective : Function.Injective Status.code := by
  intro a b
  cases a <;> cases b <;> decide

/-- The status bits of the answer are an error's code exactly when the command has that error (R110, R111). -/
theorem code_getD_ok_eq {status : Status} (hne : status ≠ .ok) (error : Option Status) :
    (error.getD .ok).code.toNat = status.code.toNat ↔ error = some status := by
  rw [BitVec.toNat_inj, Status.code_injective.eq_iff]
  cases error with
  | none => exact iff_of_false hne.symm nofun
  | some e => exact (Option.some_inj).symm

/-- Without DATA, a response word is its status alone (R110). -/
theorem respWord_zero_div (status : Status) : (respWord status 0).toNat / 2 ^ 4 = 0 := by
  obtain ⟨-, hzero, hdata⟩ := respWord_fields status 0
  have hhigh : (respWord status 0).toNat / 2 ^ 16 = 0 := hdata
  omega

/-- A command is answered with its error's status, or with OK if it has none (R110, R260). -/
theorem answer_status (s : State) (i : Instr) :
    (s.answer i).toNat % 2 ^ 4 = ((s.execError i).getD .ok).code.toNat := by
  cases i with
  | submitFrame len p => exact (respWord_fields _ _).1
  | getQueueCap => exact (respWord_fields _ _).1
  | _ => exact (respWord_fields .ok 0).1

theorem runCommand_status {w : Word} {p : List Byte} {s t : State} (e : runCommand w p s = .next t) :
    t.resp.toNat % 2 ^ 4 = ((s.commandError w p).getD .ok).code.toNat := by
  rcases runCommand_next e with ⟨i, hd, he⟩ | ⟨⟨r, hd⟩, rfl⟩
  · rw [exec_resp he, commandError_of_decode hd]
    exact answer_status s i
  · rw [commandError_of_reject hd]
    exact (respWord_fields .illegalCommand 0).1

/-- The answer's status bits tell which error a command had. -/
theorem runCommand_status_eq {w : Word} {p : List Byte} {s t : State} (e : runCommand w p s = .next t)
    {status : Status} (hne : status ≠ .ok) :
    t.resp.toNat % 2 ^ 4 = status.code.toNat ↔ s.commandError w p = some status := by
  rw [runCommand_status e]
  exact code_getD_ok_eq hne _

/-- An error writes the answer without DATA and nothing else (R262). -/
theorem runCommand_of_error {w : Word} {p : List Byte} {s t : State} {status : Status}
    (e : runCommand w p s = .next t) (h : s.commandError w p = some status) : t = s.respond status 0 := by
  rcases runCommand_next e with ⟨i, hd, he⟩ | ⟨⟨r, hd⟩, rfl⟩
  · rw [commandError_of_decode hd] at h
    cases i with
    | submitFrame len q =>
      have hcheck : s.submitError len = some status := h
      obtain ⟨-, rfl⟩ := execSubmitFrame_next he
      rw [State.submitFrame, hcheck]
    | _ => cases h
  · cases (commandError_of_reject hd s).symm.trans h
    rfl

/-- Settles O15: each status belongs to one cause of R261's table, and an error leaves `runCommand_of_error`'s state. -/
theorem everyStatusHasItsCause : Obligations.EveryStatusHasItsCause := by
  intro s t w p e
  refine ⟨?illegal, ?length, ?capacity, fun herror => ?unchanged⟩
  case illegal =>
    exact (runCommand_status_eq e (status := .illegalCommand) nofun).trans commandError_eq_illegalCommand
  case length =>
    refine (runCommand_status_eq e (status := .lengthError) nofun).trans ?_
    simp only [commandError_eq_some (status := .lengthError) nofun, submitError_eq_lengthError]
  case capacity =>
    refine (runCommand_status_eq e (status := .capacityError) nofun).trans ?_
    simp only [commandError_eq_some (status := .capacityError) nofun, submitError_eq_capacityError, State.rbFree]
  case unchanged =>
    cases hc : s.commandError w p with
    | none =>
      rw [runCommand_status e, hc] at herror
      exact absurd rfl herror
    | some status =>
      obtain rfl := runCommand_of_error e hc
      exact ⟨respWord_zero_div status, rfl⟩

/-! ## Nothing at the port -/

/-- Settles O4: the step's case of an empty port (R274). -/
theorem nothingAtThePortChangesNothing : Obligations.NothingAtThePortChangesNothing := by
  intro s hport
  simp only [step, hport]

end Sys2Proof.Machine
end

section
/-! The two resets of the port (spec/70_reset_and_hazards.md R290, R291): the step of each, and the registers and records it
leaves. -/

namespace Sys2Proof.Machine

/-- R290: `RST` at the head of the port is taken and resets the block. -/
theorem step_reset {s : State} {rest : List HostEvent} (h : s.hostPort = .reset :: rest) :
    step s = .next { s with hostPort := rest }.applyRst := by
  simp only [step, State.takeEvent, h, List.tail_cons]

/-- R291: where the cut-short command alone would have completed with `u`, the step completes with the reset of `u`. -/
theorem step_resetDuring {s u : State} {w : Word} {p : List Byte} {n : Nat} {rest : List HostEvent}
    (h : s.hostPort = .resetDuring w p n :: rest) (hu : runCommand w p s.takeEvent = .next u) :
    step s = .next (s.takeEvent.applyRstDuring u n) := by
  simp only [step, h, hu]

/-- Settles O2, register by register of R56's table; the reset carries the parameters and the records over. -/
theorem rstSetsEveryRegister : Obligations.RstSetsEveryRegister := by
  intro s rest hport
  exact ⟨_, step_reset hport, rfl, rfl, rfl, rfl, rfl, rfl, rfl, resetOf_filtMem_getElem s.params, rfl,
    resetOf_cfgPreambleLen_toNat s.params, rfl, rfl, rfl, rfl, rfl, rfl, rfl⟩

/-- Settles O3: the registers are the reset values for the parameters of `u`, which are those of `s` (R43), and the command
leaves the rest of the port alone. -/
theorem rstDuringACommandKeepsOnlyItsSinkWrites : Obligations.RstDuringACommandKeepsOnlyItsSinkWrites := by
  intro s u w p n rest hport hrun
  have hparams : u.params = s.params := (runCommand_params hrun :)
  have hlen : (s.takeEvent.applyRstDuring u n).cfgPreambleLen.toNat = min s.params.preambleOffset 1200 :=
    hparams ▸ resetOf_cfgPreambleLen_toNat u.params
  have hrest : u.hostPort = rest := by
    obtain ⟨-, -, hu⟩ := runCommand_appends hrun
    rw [hu, State.takeEvent, hport, List.tail_cons]
  exact ⟨_, step_resetDuring hport hrun, rfl, rfl, rfl, rfl, rfl, rfl, rfl, rfl, rfl,
    resetOf_filtMem_getElem u.params, rfl, hlen, rfl, rfl, rfl, hparams, hrest⟩

end Sys2Proof.Machine
end
